-- ==== Sys2Proof/Word.lean ====
section
/-! DEFINITION. The word types of the XH engine: bytes, 16-bit fields and 32-bit registers and addresses
(spec/00_scope.md R18, R25; spec/10_state.md section 3). -/

namespace Sys2Proof

/-- A byte of system memory, scratch memory or the wire format. -/
abbrev Byte := BitVec 8

/-- A 16-bit field: a bitstream word, a raw offset, a tier-2 length (R83). -/
abbrev Half := BitVec 16

/-- A register of the window, a host address or a host length: ADDR_WIDTH = LEN_WIDTH = 32 (R18). -/
abbrev Word := BitVec 32

/-- One of the 512 symbols of the alphabet, a 9-bit value (R11, R114). -/
abbrev Sym := BitVec 9

end Sys2Proof
end

