-- ==== Sys2Proof/Syntax.lean ====
section
/-! DEFINITION. The rows of spec/opcode_table.json, one constructor each: the command words (R124), the symbol classes
(R114), the length forms (R118) and the intermediate tokens (R120 to R123). -/

namespace Sys2Proof

/-- What the engine executes. -/
inductive Instr where
  /-- CMD_NOP: the word 0 stored to CMD (R319). -/
  | cmdNop
  /-- COMPRESS: the word 1 stored to CMD (R200). -/
  | compress
  /-- DECOMPRESS: the word 2 stored to CMD (R250). -/
  | decompress
  /-- CMD_ILLEGAL: any other word stored to CMD (R304). -/
  | cmdIllegal (v : Word)
  /-- SYM_LIT: a decoded symbol 0x000 to 0x0FF (R258). -/
  | symLit (b : Byte)
  /-- SYM_EOS: the decoded symbol 0x100 with a zero bit buffer (R257). -/
  | symEos
  /-- SYM_MATCH: any other symbol of the match class, with O = s[7:4] and N = s[3:0] (R259). -/
  | symMatch (o n : BitVec 4)
  /-- LEN_NIBBLE: no extension bytes, L = N (R118). -/
  | lenNibble (n : BitVec 4)
  /-- LEN_EXT8: one extension byte, L = 15 + b (R261). -/
  | lenExt8 (b : Byte)
  /-- LEN_EXT16: 0xFF, then L in 16 bits (R261). -/
  | lenExt16 (w : Half)
  /-- LEN_EXT32: 0xFF, 0x0000, then L in 32 bits (R261). -/
  | lenExt32 (x : Word)
  /-- ITOK_GROUP: a group's mask (R120). -/
  | itokGroup (m : Word)
  /-- ITOK_LIT: a literal token (R121). -/
  | itokLit (b : Byte)
  /-- ITOK_MATCH_L8: a match token with L in one byte (R122). -/
  | itokMatchL8 (off : Half) (l : Byte)
  /-- ITOK_MATCH_L16: a match token with 0xFF and L in two bytes (R122). -/
  | itokMatchL16 (off w : Half)
  /-- ITOK_MATCH_L32: a match token with 0xFF, 0x0000 and L in four bytes (R122). -/
  | itokMatchL32 (off : Half) (x : Word)
  /-- ITOK_EOS: three zero bytes (R123). -/
  | itokEos
  deriving DecidableEq, Repr

end Sys2Proof
end

