-- ==== Sys2Proof/WellFormed.lean ====
section
/-! DEFINITION. Which terms of Instr are rows of spec/opcode_table.json: the operand values a row's match column
excludes belong to another row. -/

namespace Sys2Proof

/-- The operand values a row admits. CMD_ILLEGAL excludes the words 0, 1 and 2 (R124); LEN_NIBBLE excludes N = 15 and
LEN_EXT8 the escape byte 0xFF and LEN_EXT16 the escape word 0 (R118); ITOK_MATCH_L8 excludes the escape byte and the
three zero bytes of ITOK_EOS, ITOK_MATCH_L16 the escape word (R122, R123). -/
def Instr.wellFormed : Instr → Bool
  | .cmdNop => true
  | .compress => true
  | .decompress => true
  | .cmdIllegal v => 3 ≤ v.toNat
  | .symLit _ => true
  | .symEos => true
  | .symMatch _ _ => true
  | .lenNibble n => n ≠ 15#4
  | .lenExt8 b => b ≠ 255#8
  | .lenExt16 w => w ≠ 0#16
  | .lenExt32 _ => true
  | .itokGroup _ => true
  | .itokLit _ => true
  | .itokMatchL8 off l => l ≠ 255#8 && (off ≠ 0#16 || l ≠ 0#8)
  | .itokMatchL16 _ w => w ≠ 0#16
  | .itokMatchL32 _ _ => true
  | .itokEos => true

end Sys2Proof
end

