-- ==== Sys2Proof/Decode.lean ====
section
/-! DEFINITION. Decoding and encoding: little-endian fields (spec/20_memory.md R83), command words (R124), symbols
(R114, R116), length forms (R118) and intermediate tokens (R120 to R123), each total, refusing by name. -/

namespace Sys2Proof

/-- The `m` bytes of `v`, least significant first (R83). -/
def bytesLE : Nat → Nat → List Byte
  | 0, _ => []
  | m + 1, v => BitVec.ofNat 8 v :: bytesLE m (v / 256)

/-- The value of little-endian bytes (R83). -/
def ofBytesLE : List Byte → Nat
  | [] => 0
  | b :: bs => b.toNat + 256 * ofBytesLE bs

/-- What tells how the next bits are to be read: a word stored to CMD; a decoded symbol, with whether the bit buffer is
zero after its codeword (R116); the length form after a symbol with nibble N (R118); a group's mask, a literal token
(mask bit 0) or a match token (mask bit 1) in scratch memory (R120). -/
inductive Format where
  | cmd
  | sym (bufZero : Bool)
  | len (n : BitVec 4)
  | group
  | lit
  | mat
  deriving DecidableEq, Repr

/-- Why bytes are no instruction. -/
inductive DecodeError where
  /-- The bytes end inside a field (R125 (d), R216). -/
  | truncated
  /-- A symbol has 9 bits (R114): the value is 512 or more. -/
  | symbolTooWide
  deriving DecidableEq, Repr

/-- The length forms of R118. -/
inductive LenForm where
  | nibble (n : BitVec 4)
  | ext8 (b : Byte)
  | ext16 (w : Half)
  | ext32 (x : Word)
  deriving DecidableEq, Repr

/-- The row of the opcode table a length form is. -/
def LenForm.instr : LenForm → Instr
  | .nibble n => .lenNibble n
  | .ext8 b => .lenExt8 b
  | .ext16 w => .lenExt16 w
  | .ext32 x => .lenExt32 x

/-- How many raw bytes a length form takes (R110, R126). -/
def LenForm.size : LenForm → Nat
  | .nibble _ => 0
  | .ext8 _ => 1
  | .ext16 _ => 3
  | .ext32 _ => 7

/-- The command a word stored to CMD names (R124, R319). -/
def decodeCmd (v : Word) : Instr :=
  if v = 0#32 then .cmdNop
  else if v = 1#32 then .compress
  else if v = 2#32 then .decompress
  else .cmdIllegal v

/-- The symbol's row (R114, R116, R256): end of stream is tried first. -/
def decodeSym (s : Sym) (bufZero : Bool) : Instr :=
  if s = 256#9 ∧ bufZero = true then .symEos
  else if s.toNat < 256 then .symLit (BitVec.ofNat 8 s.toNat)
  else .symMatch (BitVec.ofNat 4 (s.toNat / 16)) (BitVec.ofNat 4 s.toNat)

/-- The length form after a symbol with nibble `n`, and the bytes after it (R118). -/
def decodeLength (n : BitVec 4) (bs : List Byte) : Except DecodeError (LenForm × List Byte) :=
  if n ≠ 15#4 then .ok (.nibble n, bs)
  else
    match bs with
    | [] => .error .truncated
    | b :: r =>
      if b ≠ 255#8 then .ok (.ext8 b, r)
      else
        match r with
        | w0 :: w1 :: r' =>
          if ofBytesLE [w0, w1] ≠ 0 then .ok (.ext16 (BitVec.ofNat 16 (ofBytesLE [w0, w1])), r')
          else
            match r' with
            | x0 :: x1 :: x2 :: x3 :: r'' => .ok (.ext32 (BitVec.ofNat 32 (ofBytesLE [x0, x1, x2, x3])), r'')
            | _ => .error .truncated
        | _ => .error .truncated

/-- The match token (or end-of-stream token) at the head of scratch bytes (R122, R123, R214). -/
def decodeMatchToken (bs : List Byte) : Except DecodeError (Instr × List Byte) :=
  match bs with
  | o0 :: o1 :: l :: r =>
    let off : Half := BitVec.ofNat 16 (ofBytesLE [o0, o1])
    if l ≠ 255#8 then
      if off = 0#16 ∧ l = 0#8 then .ok (.itokEos, r) else .ok (.itokMatchL8 off l, r)
    else
      match r with
      | w0 :: w1 :: r' =>
        if ofBytesLE [w0, w1] ≠ 0 then .ok (.itokMatchL16 off (BitVec.ofNat 16 (ofBytesLE [w0, w1])), r')
        else
          match r' with
          | x0 :: x1 :: x2 :: x3 :: r'' => .ok (.itokMatchL32 off (BitVec.ofNat 32 (ofBytesLE [x0, x1, x2, x3])), r'')
          | _ => .error .truncated
      | _ => .error .truncated
  | _ => .error .truncated

/-- The instruction at the head of the bytes, and the bytes after it. -/
def decode (f : Format) (bs : List Byte) : Except DecodeError (Instr × List Byte) :=
  match f with
  | .cmd =>
    match bs with
    | a :: b :: c :: d :: r => .ok (decodeCmd (BitVec.ofNat 32 (ofBytesLE [a, b, c, d])), r)
    | _ => .error .truncated
  | .sym z =>
    match bs with
    | a :: b :: r =>
      if ofBytesLE [a, b] < 512 then .ok (decodeSym (BitVec.ofNat 9 (ofBytesLE [a, b])) z, r)
      else .error .symbolTooWide
    | _ => .error .truncated
  | .len n =>
    match decodeLength n bs with
    | .ok (g, r) => .ok (g.instr, r)
    | .error e => .error e
  | .group =>
    match bs with
    | a :: b :: c :: d :: r => .ok (.itokGroup (BitVec.ofNat 32 (ofBytesLE [a, b, c, d])), r)
    | _ => .error .truncated
  | .lit =>
    match bs with
    | b :: r => .ok (.itokLit b, r)
    | [] => .error .truncated
  | .mat => decodeMatchToken bs

/-- The 9-bit symbol of a match class (R114): 0x100 | (O << 4) | N. -/
def matchSym (o n : Nat) : Nat := 256 + 16 * o + n

/-- The bytes of an instruction: a command word and a symbol as little-endian words, a length form and a token as the
wire and the scratch memory hold them (R83, R114, R118, R120 to R124). -/
def encode : Instr → List Byte
  | .cmdNop => bytesLE 4 0
  | .compress => bytesLE 4 1
  | .decompress => bytesLE 4 2
  | .cmdIllegal v => bytesLE 4 v.toNat
  | .symLit b => bytesLE 2 b.toNat
  | .symEos => bytesLE 2 256
  | .symMatch o n => bytesLE 2 (matchSym o.toNat n.toNat)
  | .lenNibble _ => []
  | .lenExt8 b => [b]
  | .lenExt16 w => 255#8 :: bytesLE 2 w.toNat
  | .lenExt32 x => 255#8 :: (bytesLE 2 0 ++ bytesLE 4 x.toNat)
  | .itokGroup m => bytesLE 4 m.toNat
  | .itokLit b => [b]
  | .itokMatchL8 off l => bytesLE 2 off.toNat ++ [l]
  | .itokMatchL16 off w => bytesLE 2 off.toNat ++ 255#8 :: bytesLE 2 w.toNat
  | .itokMatchL32 off x => bytesLE 2 off.toNat ++ 255#8 :: (bytesLE 2 0 ++ bytesLE 4 x.toNat)
  | .itokEos => [0#8, 0#8, 0#8]

/-- The format an instruction is read under. SYM_MATCH with O = N = 0 is read where the buffer is not zero (R116); a
length form with extension bytes is read after nibble 15 (R118). -/
def Instr.format : Instr → Format
  | .cmdNop => .cmd
  | .compress => .cmd
  | .decompress => .cmd
  | .cmdIllegal _ => .cmd
  | .symLit _ => .sym false
  | .symEos => .sym true
  | .symMatch _ _ => .sym false
  | .lenNibble n => .len n
  | .lenExt8 _ => .len 15#4
  | .lenExt16 _ => .len 15#4
  | .lenExt32 _ => .len 15#4
  | .itokGroup _ => .group
  | .itokLit _ => .lit
  | .itokMatchL8 _ _ => .mat
  | .itokMatchL16 _ _ => .mat
  | .itokMatchL32 _ _ => .mat
  | .itokEos => .mat

/-- The format and the bytes that the opcode table's `nbits` bits `w` stand for (log entry 22): 32 bits are a command
word; 9 to 16 bits a symbol followed by zero bits; 24 bits whose top byte is 0xFF the row LEN_EXT16, whose pattern the
table numbers with its first byte on top; other widths of 17 to 24, 33 to 40 and over 56 bits a match token; up to 8
and 41 to 56 bits a length form after nibble 15; none at all LEN_NIBBLE. Bits above `nbits` are 0. -/
def tableBytes (nbits w : Nat) : Format × List Byte :=
  if nbits = 0 then (.len 0#4, [])
  else if nbits ≤ 8 then (.len 15#4, bytesLE 7 w)
  else if nbits ≤ 16 then (.sym true, bytesLE 2 w)
  else if nbits ≤ 24 then
    if w / 65536 = 255 then (.len 15#4, 255#8 :: BitVec.ofNat 8 (w / 256) :: BitVec.ofNat 8 w :: bytesLE 4 0)
    else (.mat, bytesLE 9 w)
  else if nbits ≤ 32 then (.cmd, bytesLE 4 w)
  else if nbits ≤ 40 then (.mat, bytesLE 9 w)
  else if nbits ≤ 56 then (.len 15#4, bytesLE 7 w)
  else (.mat, bytesLE 9 w)

/-- The instruction the decoder reads from the opcode table's `nbits` bits `w` (log entry 22). -/
def decodeTableWord (nbits w : Nat) : Option Instr :=
  match decode (tableBytes nbits w).1 (tableBytes nbits w).2 with
  | .ok (i, _) => some i
  | .error _ => none

end Sys2Proof
end

