-- ==== Sys2Proof/Config.lean ====
section
/-! DEFINITION. What an implementation of the XH engine fixes: the format's constants (spec/00_scope.md R10 to R18),
the named parameters (R19 to R22) and the free values (spec/93_implementation_defined.md U1 to U4, U12, U13). -/

namespace Sys2Proof

/-- CHUNK_SIZE (R10). -/
def Config.chunkSize : Nat := 65536

/-- ALPHABET (R11). -/
def Config.alphabet : Nat := 512

/-- TABLE_BYTES (R12). -/
def Config.tableBytes : Nat := 256

/-- MIN_BLOCK (R13). -/
def Config.minBlock : Nat := 260

/-- WINDOW (R14). -/
def Config.window : Nat := 65535

/-- MAX_CODE_LEN (R15). -/
def Config.maxCodeLen : Nat := 15

/-- LENGTH_BIAS (R16). -/
def Config.lengthBias : Nat := 3

/-- NIBBLE_SAT (R17). -/
def Config.nibbleSat : Nat := 15

/-- The parameters that are plain numbers: XH_BASE (R22) and SCRATCH_BYTES (R19). State holds one, so a statement about
every state is about every value of them (log entries 3 and 4). -/
structure Config.Params where
  /-- The base address of the register window (R22). -/
  xhBase : Word
  /-- The size of the scratch memory in bytes (R19). -/
  scratchBytes : Nat
  deriving DecidableEq, Repr

/-- The parameters that are functions (R20, R21). -/
structure Config.Oracles where
  /-- MATCH_SOURCE: from the whole input, the absolute cursor and the bytes remaining in the chunk to a pair
  (length, offset) (R20, R201). -/
  matchSource : List Byte → Nat → Nat → Nat × Nat
  /-- HUFF_BUILD: from the 512 symbol counts to the code length of each symbol (R21, R210). -/
  huffBuild : List (BitVec 17) → Nat → BitVec 4

/-- Free value: MATCH_SOURCE of this engine (R20, U12; log entry 5). -/
opaque Config.matchSource : List Byte → Nat → Nat → Nat × Nat

/-- Free value: HUFF_BUILD of this engine (R21, U13; log entry 5). -/
opaque Config.huffBuild : List (BitVec 17) → Nat → BitVec 4

/-- The oracles this engine consults (R20, R21). -/
def Config.oracles : Config.Oracles := ⟨Config.matchSource, Config.huffBuild⟩

/-- Free value: a byte of system memory with no known value. The first argument counts the events (R99, R342) that
made the byte unspecified, the second is its address (log entries 6 and 7). -/
opaque Config.freeByte : Nat → Nat → Byte

/-- Free value: a byte of scratch memory that nothing has written, by its index (R59, R341; log entry 8). -/
opaque Config.freeScratch : Nat → Byte

/-- Free value: what the host reads from an output byte while BUSY = 1 (R91, R351), from one it has yet to synchronise with
(R95, R346), or from a byte it has written over one, by the number of values the host has read before (log entries 9, 28
and 29). -/
opaque Config.freeBusyRead : Nat → Byte

end Sys2Proof
end

