-- ==== Sys2Proof/Machine/State.lean ====
section
/-! DEFINITION. The state of the XH engine (spec/10_state.md R30 to R60) and of the host's side of its interface, the
reasons a step can stop, and the state after reset (spec/70_reset_and_hazards.md R340, R341). -/

namespace Sys2Proof.Machine

/-- Bytes by address: addresses strictly rising, an address with no known value is not listed (log entry 6). -/
abbrev Memory := List Host.Cell

/-- The engine's state-machine state (R45). -/
inductive Phase where
  | idle
  | cTokenize
  | cPack
  | cEmpty
  | dReadHeader
  | dDecode
  | dEndOfStream
  deriving DecidableEq, Repr

/-- The running command (R46). -/
inductive Op where
  | compress
  | decompress
  deriving DecidableEq, Repr

/-- The errors a rule raises (R300); ILLEGAL_COMMAND is raised by no running command (R304). -/
inductive Err where
  | insufficientBuffer
  | invalidData
  | invalidState
  deriving DecidableEq, Repr

/-- What the host does next (R30, R127, R340; log entry 1). -/
inductive HostOp where
  /-- A store of the low `width` bytes of `v` at bus address `addr` of the register window's space (R81, R86). -/
  | regStore (addr : Word) (width : Nat) (v : Word)
  /-- A load at bus address `addr` of the register window's space (R81, R86). -/
  | regLoad (addr : Word) (width : Nat)
  /-- A byte written to system memory (R95). -/
  | memStore (addr : Word) (v : Byte)
  /-- A byte read from system memory (R95). -/
  | memLoad (addr : Word)
  /-- POLL STATUS.BUSY == 0 (R127, R346): the engine runs on until BUSY = 0. -/
  | poll
  /-- Nothing: the engine takes one step. -/
  | tick
  /-- The platform asserts reset (R340). -/
  | reset
  deriving DecidableEq, Repr

/-- The register window's storage (R32 to R40). CMD and the reserved offsets hold nothing (R32, R41). -/
structure Window where
  /-- Bit 0 BUSY, bit 1 DONE, bit 2 ERR; bits 31:3 read 0 (R33). -/
  status : BitVec 3
  srcAddr : Word
  srcLen : Word
  dstAddr : Word
  dstCap : Word
  result : Word
  /-- ERROR[3:0]; bits 31:4 read 0 (R39). -/
  error : BitVec 4
  inConsumed : Word
  deriving DecidableEq, Repr

/-- The command cursors (R46). -/
structure Cursors where
  op : Op
  src : Word
  slen : Word
  dst : Word
  cap : Word
  inPos : BitVec 33
  outPos : BitVec 33
  chunkOutStart : BitVec 33
  chunkLen : BitVec 17
  finalChunk : Bool
  eosSeen : Bool
  deriving DecidableEq, Repr

/-- The bit reader's registers (R52). -/
structure Reader where
  buf : BitVec 32
  nbits : BitVec 6
  rpos : BitVec 33
  deriving DecidableEq, Repr

/-- The bit writer's registers (R53). -/
structure Writer where
  acc : BitVec 16
  nacc : BitVec 5
  slot0 : BitVec 33
  slot1 : BitVec 33
  rawpos : BitVec 33
  deriving DecidableEq, Repr

/-- The tokenizer's registers (R54). -/
structure Tokenizer where
  tpos : BitVec 33
  tend : BitVec 33
  gmask : BitVec 32
  gbit : BitVec 6
  gmaskAt : BitVec 18
  scrLen : BitVec 18
  deriving DecidableEq, Repr

/-- The packer's register `ppos` (R55), and the mask M and the bit number k of the group being walked (R212; log entry
18). -/
structure Packer where
  ppos : BitVec 18
  pmask : BitVec 32
  pbit : BitVec 6
  deriving DecidableEq, Repr

/-- The match being assembled: R259's off, O and N, and whether its length form is still to be read (log entry 17). -/
structure MatchRegs where
  off : Half
  o : BitVec 4
  n : BitVec 4
  await : Bool
  deriving DecidableEq, Repr

/-- The whole machine. `host` and `reads` are the host's side: its pending accesses, oldest first, and the values its
loads returned, newest first (log entry 1). `chunkOpen` says that the chunk driver has passed its capacity check and
set the tokenizer up (R221; log entry 16). `lost` lists the address ranges (base, length) whose bytes R99 or R342 made
unspecified (log entry 7). `unseen` lists the address ranges (base, length) that commands which have ended since the host
last read STATUS with BUSY = 0 wrote: R95 makes them visible to the host by that read (log entry 28). `contested` lists the
addresses of the bytes the host has written over such an engine write: R95 does not order the two writes for the host's
own reads (log entry 29). -/
structure State where
  par : Config.Params
  host : List HostOp
  reads : List Word
  win : Window
  phase : Phase
  cur : Cursors
  chunkOpen : Bool
  cnt : List (BitVec 17)
  len : List (BitVec 4)
  rd : Reader
  wr : Writer
  tk : Tokenizer
  pk : Packer
  mt : MatchRegs
  mem : Memory
  lost : List (Nat × Nat)
  unseen : List (Nat × Nat)
  contested : List Nat
  scr : Memory
  deriving DecidableEq, Repr

/-- Why the machine stops with a fault. -/
inductive Fault where
  /-- The host wrote a byte of the running command's input or output buffer. Raised by the host's memory store while
  BUSY = 1 (R97, R352, U6): the command's result is not specified. SAFE: the model stops where the hardware goes on
  (log entry 10). -/
  | bufferRace
  deriving DecidableEq, Repr

/-- Why a step has no meaning. -/
inductive Refusal where
  /-- The instruction has no meaning yet. Raised by exec's refused arms only. SAFE. -/
  | notModelled (mnemonic : String)
  /-- A launch whose buffers wrap past 2^32 - 1 or overlap. Raised by COMPRESS and DECOMPRESS when BUSY = 0 (R90, R353,
  U7). SAFE: the spec refuses the launch (log entry 11). -/
  | badBuffers
  /-- A register access that is not an aligned 32-bit one. Raised by the host's register store and load (R86, U9).
  SAFE (log entry 12). -/
  | badRegisterAccess
  /-- A register access outside the 64-byte window, where the engine has no register. Raised by the host's register
  store and load (R81). SAFE (log entry 12). -/
  | outsideWindow
  deriving DecidableEq, Repr

/-- 512 symbol counts of 0 (R50). -/
def zeroCounts : List (BitVec 17) := List.replicate 512 0

/-- 512 code lengths of 0 (R51). -/
def zeroLengths : List (BitVec 4) := List.replicate 512 0

/-- The machine right after reset (R340). The fields R341 leaves unspecified hold the values of log entry 13, the
parameters those of log entries 3 and 4; no byte of either memory has a known value (log entries 6 and 8). -/
def State.reset : State where
  par := ⟨0x40000000#32, 73730⟩
  host := []
  reads := []
  win := ⟨0, 0, 0, 0, 0, 0, 0, 0⟩
  phase := .idle
  cur := ⟨.compress, 0, 0, 0, 0, 0, 0, 0, 0, false, false⟩
  chunkOpen := false
  cnt := zeroCounts
  len := zeroLengths
  rd := ⟨0, 0, 0⟩
  wr := ⟨0, 0, 0, 0, 0⟩
  tk := ⟨0, 0, 0, 32, 0, 0⟩
  pk := ⟨0, 0, 32⟩
  mt := ⟨0, 0, 0, false⟩
  mem := []
  lost := []
  unseen := []
  contested := []
  scr := []

end Sys2Proof.Machine
end

