-- ==== Sys2Proof/Machine/Flags.lean ====
section
/-! DEFINITION. STATUS and its three flags BUSY, DONE, ERR (spec/10_state.md R33, R47). -/

namespace Sys2Proof.Machine

/-- STATUS.BUSY (R33). -/
def State.busy (s : State) : Bool := s.win.status.getLsbD 0

/-- STATUS.DONE (R33). -/
def State.done (s : State) : Bool := s.win.status.getLsbD 1

/-- STATUS.ERR (R33). -/
def State.err (s : State) : Bool := s.win.status.getLsbD 2

/-- STATUS after acceptance: DONE and ERR cleared, BUSY set (R200, R250). -/
def statusAccepted : BitVec 3 := 1#3

/-- STATUS after a successful completion: DONE set, BUSY cleared, ERR as it was (R310). -/
def statusDone (st : BitVec 3) : BitVec 3 := (st ||| 2#3) &&& 6#3

/-- STATUS after a completion with an error: ERR set, BUSY cleared, DONE as it was (R310). -/
def statusErr (st : BitVec 3) : BitVec 3 := (st ||| 4#3) &&& 6#3

/-- STATUS after a host store of `v` to it with BUSY = 0: DONE and ERR are cleared where `v` has a 1, BUSY is kept
(R33). -/
def statusWrite (st : BitVec 3) (v : Word) : BitVec 3 := st &&& ~~~(v.setWidth 3 &&& 6#3)

/-- The code ERROR records (R300). -/
def Err.code : Err → BitVec 4
  | .insufficientBuffer => 1
  | .invalidData => 2
  | .invalidState => 3

/-- The code of ILLEGAL_COMMAND (R300, R304). -/
def illegalCommandCode : BitVec 4 := 4

end Sys2Proof.Machine
end

