-- ==== Sys2Proof/Machine/Ops.lean ====
section
/-! DEFINITION. The named operations over memory and registers (spec/20_memory.md R80 to R99, spec/00_scope.md R26),
raising an error, and completion, which is this engine's taking of an exception (spec/60_exceptions.md R310). -/

namespace Sys2Proof.Machine

/-- The known byte at an address, if it has one. -/
def Memory.find : Memory → Nat → Option Byte
  | [], _ => none
  | (k, b) :: m, a => if k = a then some b else Memory.find m a

/-- Store a byte, keeping the addresses strictly rising. -/
def Memory.put : Memory → Nat → Byte → Memory
  | [], a, v => [(a, v)]
  | (k, b) :: m, a, v =>
    if a < k then (a, v) :: (k, b) :: m
    else if a = k then (a, v) :: m
    else (k, b) :: Memory.put m a v

/-- Forget the bytes at `lo` to `lo + n - 1`: they have no known value any more. -/
def Memory.forget (m : Memory) (lo n : Nat) : Memory :=
  m.filter fun c => !(decide (lo ≤ c.1) && decide (c.1 < lo + n))

/-- The canonical form of a memory whose addresses lie below `bound`: strictly rising, no address twice. -/
abbrev Memory.wf (m : Memory) (bound : Nat) : Prop :=
  m.Pairwise (fun c d => c.1 < d.1) ∧ ∀ c ∈ m, c.1 < bound

/-- The number of addresses of system memory (R80). -/
def memBound : Nat := 4294967296

/-- How often the byte at `a` was made unspecified (R99, R342; log entry 7). -/
def lostCount (lost : List (Nat × Nat)) (a : Nat) : Nat :=
  lost.countP fun r => decide (r.1 ≤ a) && decide (a < r.1 + r.2)

/-- What a byte of system memory with no known value reads as: a free value (log entries 6 and 7). -/
def State.unlisted (s : State) (a : Nat) : Byte := Config.freeByte (lostCount s.lost a) a

/-- MemRead(a, 1) (R26, R80). -/
def State.readByte (s : State) (a : Word) : Byte := (s.mem.find a.toNat).getD (s.unlisted a.toNat)

/-- MemWrite(a, 1, v) (R26, R91). -/
def State.writeByte (s : State) (a : Word) (v : Byte) : State := { s with mem := s.mem.put a.toNat v }

/-- Consecutive bytes of system memory, stored one at a time in ascending address order (R26, R87). -/
def Memory.putBytes (m : Memory) (a : Word) : List Byte → Memory
  | [] => m
  | b :: bs => (m.put a.toNat b).putBytes (a + 1#32) bs

/-- Consecutive byte writes in ascending address order (R26, R87). -/
def State.writeBytes (s : State) (a : Word) (bs : List Byte) : State := { s with mem := s.mem.putBytes a bs }

/-- The address of input byte `off`: src + off (R88). Address arithmetic is on 32 bits (log entry 20). -/
def State.inAddr (s : State) (off : Nat) : Word := s.cur.src + BitVec.ofNat 32 off

/-- The address of output byte `off`: dst + off (R88; log entry 20). -/
def State.outAddr (s : State) (off : Nat) : Word := s.cur.dst + BitVec.ofNat 32 off

/-- Input byte `off`. -/
def State.inByte (s : State) (off : Nat) : Byte := s.readByte (s.inAddr off)

/-- Output byte `off`. -/
def State.outByte (s : State) (off : Nat) : Byte := s.readByte (s.outAddr off)

/-- Write bytes at output offset `off` (R26). -/
def State.writeOut (s : State) (off : Nat) (bs : List Byte) : State := s.writeBytes (s.outAddr off) bs

/-- The input bytes at offsets `off` to `off + n - 1`. -/
def State.inBytes (s : State) (off n : Nat) : List Byte := (List.range n).map fun i => s.inByte (off + i)

/-- The whole input buffer I, as MATCH_SOURCE sees it (R60, R201). -/
def State.input (s : State) : List Byte := s.inBytes 0 s.cur.slen.toNat

/-- Scr[i] (R26, R59). A byte nothing has written reads as a free value (log entry 8). -/
def State.scrByte (s : State) (i : Nat) : Byte := (s.scr.find i).getD (Config.freeScratch i)

/-- The scratch bytes at indices `i` to `i + n - 1`. -/
def State.scrBytes (s : State) (i n : Nat) : List Byte := (List.range n).map fun j => s.scrByte (i + j)

/-- Write consecutive scratch bytes in ascending order (R26). -/
def Memory.putList (m : Memory) (i : Nat) : List Byte → Memory
  | [] => m
  | b :: bs => (m.put i b).putList (i + 1) bs

/-- The bytes at `lo` to `lo + n - 1` become unspecified: a fresh free value each (log entry 7). -/
def State.lose (lo n : Nat) (s : State) : State := { s with mem := s.mem.forget lo n, lost := (lo, n) :: s.lost }

/-- The bytes of the output buffer [dst, dst + cap) become unspecified (R99, R342; log entry 7), and any of them may be one
the host has yet to synchronise with (R95; log entry 28). -/
def State.loseOutput (s : State) : State :=
  { s.lose s.cur.dst.toNat s.cur.cap.toNat with unseen := (s.cur.dst.toNat, s.cur.cap.toNat) :: s.unseen }

/-- What an operation answers: a value and the state after it, or a raised error and the state at the raise (R27). -/
inductive Res (α : Type) where
  | ok (a : α) (s : State)
  | raise (e : Err) (s : State)

/-- Go on with the answer; a raise ends the command's operations at once (R27). -/
def Res.andThen {α β : Type} (r : Res α) (f : α → State → Res β) : Res β :=
  match r with
  | .ok a s => f a s
  | .raise e s => .raise e s

/-- Successful completion (R310, R200, R271). The bytes the command wrote are [dst, dst + out_pos); the host sees them once
it has read STATUS with BUSY = 0 (R95; log entry 28). The latched command registers of R46 and the datapath's registers keep
their values: R310 makes them don't-care (U5), and keeping them is the model's choice (log entry 27). -/
def completeOk (s : State) : State :=
  { s with
    win := { s.win with
      result := s.cur.outPos.setWidth 32
      inConsumed := match s.cur.op with
        | .compress => s.cur.slen
        | .decompress => s.cur.inPos.setWidth 32
      error := 0
      status := statusDone s.win.status }
    phase := .idle
    unseen := (s.cur.dst.toNat, s.cur.outPos.toNat) :: s.unseen }

/-- Completion with error `e` (R310, R311): RESULT and IN_CONSUMED are 0, ERROR is the code, ERR is set, and the output
buffer's bytes are unspecified from now on (R99). No match is left half assembled (log entry 17). The latched command
registers of R46 and the other datapath registers keep their values, which R310 makes don't-care (U5): the model's choice
(log entry 27). -/
def completeErr (e : Err) (s : State) : State :=
  { s.loseOutput with
    win := { s.win with
      result := 0
      inConsumed := 0
      error := e.code
      status := statusErr s.win.status }
    phase := .idle
    mt := { s.mt with await := false } }

/-- The outcome of an engine operation: its state, or the completion with the error it raised (R27, R310). -/
def settle (r : Res Unit) : Host.Outcome State Fault Refusal :=
  match r with
  | .ok _ s => .next s
  | .raise e s => .next (completeErr e s)

end Sys2Proof.Machine
end

