-- ==== Sys2Proof/Machine/Huffman.lean ====
section
/-! DEFINITION. The canonical Huffman code of a length table (spec/40_bitcoder.md R180, R181) and the packing of the
table (spec/30_encoding.md R113). -/

namespace Sys2Proof.Machine

/-- len[s]; 0 outside the table. -/
def lenOf (len : List (BitVec 4)) (s : Nat) : Nat := (len.getD s 0#4).toNat

/-- The Kraft sum of a length table, times 2^15 (R180). -/
def kraftSum (len : List (BitVec 4)) : Nat :=
  (len.map fun l => if l = 0#4 then 0 else 2 ^ (15 - l.toNat)).sum

/-- A length table is valid when its Kraft sum does not exceed 1 (R180). -/
def tableValid (len : List (BitVec 4)) : Bool := kraftSum len ≤ 2 ^ 15

/-- bl[b]: how many symbols have length `b` (R181). -/
def lengthCount (len : List (BitVec 4)) (b : Nat) : Nat := len.countP fun l => l.toNat == b

/-- The first codeword of length `b`: next[1] = 0, next[b] = (next[b-1] + bl[b-1]) << 1 (R181). -/
def firstCode (len : List (BitVec 4)) : Nat → Nat
  | 0 => 0
  | b + 1 => if b = 0 then 0 else (firstCode len b + lengthCount len b) * 2

/-- The walk of R181 over the symbols in ascending order, `next` being the array next[0..15]. A symbol without a
codeword has the entry 0. -/
def assignCodes (next : List Nat) : List (BitVec 4) → List (BitVec 15)
  | [] => []
  | l :: ls =>
    if l = 0#4 then 0#15 :: assignCodes next ls
    else
      BitVec.ofNat 15 (next.getD l.toNat 0) :: assignCodes (next.set l.toNat (next.getD l.toNat 0 + 1)) ls

/-- code[0..511] (R51, R181): a function of the length table alone. -/
def codeTable (len : List (BitVec 4)) : List (BitVec 15) :=
  assignCodes ((List.range 16).map (firstCode len)) len

/-- code[s] (R181). -/
def codeOf (len : List (BitVec 4)) (s : Nat) : Nat := ((codeTable len).getD s 0#15).toNat

/-- The symbol with len[s] = b and code[s] = v, if there is one (R183). -/
def findCode (len : List (BitVec 4)) (b v : Nat) : Option Nat :=
  (len.zip (codeTable len)).findIdx? fun p => p.1.toNat == b && p.2.toNat == v

/-- The 256 bytes of a length table: byte i is len[2i] | (len[2i+1] << 4) (R113). -/
def tableToBytes : List (BitVec 4) → List Byte
  | a :: b :: r => BitVec.ofNat 8 (a.toNat + 16 * b.toNat) :: tableToBytes r
  | _ => []

/-- The length table of 256 bytes: len[2i] = t[3:0], len[2i+1] = t[7:4] (R113, R252). -/
def tableOfBytes : List Byte → List (BitVec 4)
  | [] => []
  | t :: r => BitVec.ofNat 4 t.toNat :: BitVec.ofNat 4 (t.toNat / 16) :: tableOfBytes r

end Sys2Proof.Machine
end

