-- ==== Sys2Proof/Machine/BitCoder.lean ====
section
/-! DEFINITION. The bit writer and the bit reader (spec/40_bitcoder.md R161 to R175), Encode (R182) and Decode
(R183). The layout is the spec's choice from general knowledge (log entry 25). -/

namespace Sys2Proof.Machine

/-- WriterInit(p) (R161). -/
def writerInit (p : Nat) (s : State) : Res Unit :=
  if s.cur.cap.toNat < p + 4 then .raise .insufficientBuffer s
  else
    .ok () { s with
      wr := {
        acc := 0
        nacc := 0
        slot0 := BitVec.ofNat 33 p
        slot1 := BitVec.ofNat 33 (p + 2)
        rawpos := BitVec.ofNat 33 (p + 4) } }

/-- WriteBits(v, n) (R162): a word is flushed only when a bit beyond its 16th arrives. -/
def writeBits (v n : Nat) (s : State) : Res Unit :=
  if s.wr.nacc.toNat + n ≤ 16 then
    .ok () { s with
      wr := { s.wr with
        acc := BitVec.ofNat 16 (s.wr.acc.toNat <<< n ||| v)
        nacc := BitVec.ofNat 5 (s.wr.nacc.toNat + n) } }
  else if s.cur.cap.toNat < s.wr.rawpos.toNat + 2 then .raise .insufficientBuffer s
  else
    let k := 16 - s.wr.nacc.toNat
    let word := (s.wr.acc.toNat <<< k ||| v >>> (n - k)) % 65536
    .ok () { s.writeOut s.wr.slot0.toNat (bytesLE 2 word) with
      wr := {
        acc := BitVec.ofNat 16 (v % 2 ^ (n - k))
        nacc := BitVec.ofNat 5 (n - k)
        slot0 := s.wr.slot1
        slot1 := s.wr.rawpos
        rawpos := BitVec.ofNat 33 (s.wr.rawpos.toNat + 2) } }

/-- WriteRaw(v, m) (R163). -/
def writeRaw (v m : Nat) (s : State) : Res Unit :=
  if s.cur.cap.toNat < s.wr.rawpos.toNat + m then .raise .insufficientBuffer s
  else
    .ok () { s.writeOut s.wr.rawpos.toNat (bytesLE m v) with
      wr := { s.wr with rawpos := BitVec.ofNat 33 (s.wr.rawpos.toNat + m) } }

/-- Finish() (R164): the pending bits left-aligned into slot0, zero into slot1. The end offset it returns is
`wr.rawpos`. -/
def finishWriter (s : State) : State :=
  (s.writeOut s.wr.slot0.toNat (bytesLE 2 ((s.wr.acc.toNat <<< (16 - s.wr.nacc.toNat)) % 65536))).writeOut
    s.wr.slot1.toNat (bytesLE 2 0)

/-- LE16 of the input at offset `q` (R26). -/
def inWord (s : State) (q : Nat) : Nat := ofBytesLE (s.inBytes q 2)

/-- ReaderInit(q) (R171). -/
def readerInit (q : Nat) (s : State) : State :=
  { s with
    rd := {
      buf := BitVec.ofNat 32 (inWord s q <<< 16 ||| inWord s (q + 2))
      nbits := 32
      rpos := BitVec.ofNat 33 (q + 4) } }

/-- Peek(n) (R172). -/
def peek (n : Nat) (s : State) : Nat := if n = 0 then 0 else s.rd.buf.toNat >>> (32 - n)

/-- The reader's registers after Skip(n) (R173): one word is fetched when fewer than 16 bits remain and 2 input bytes
do. -/
def skipped (n : Nat) (s : State) : Reader :=
  let nb := s.rd.nbits.toNat - n
  if nb < 16 ∧ s.rd.rpos.toNat + 2 ≤ s.cur.slen.toNat then
    { buf := s.rd.buf <<< n ||| BitVec.ofNat 32 (inWord s s.rd.rpos.toNat <<< (16 - nb))
      nbits := BitVec.ofNat 6 (nb + 16)
      rpos := BitVec.ofNat 33 (s.rd.rpos.toNat + 2) }
  else { s.rd with buf := s.rd.buf <<< n, nbits := BitVec.ofNat 6 nb }

/-- Skip(n) (R173). -/
def skip (n : Nat) (s : State) : State := { s with rd := skipped n s }

/-- MaskIsZero() (R175). -/
def maskIsZero (s : State) : Bool := s.rd.buf == 0#32

/-- Encode(s) (R182). -/
def encodeSym (sym : Nat) (s : State) : Res Unit :=
  if lenOf s.len sym = 0 then .raise .invalidState s
  else writeBits (codeOf s.len sym) (lenOf s.len sym) s

/-- The loop of Decode() from length 16 - fuel on (R183). -/
def decodeFrom (s : State) : Nat → Res Nat
  | 0 => .raise .invalidData s
  | fuel + 1 =>
    let b := 15 - fuel
    if s.rd.nbits.toNat < b then .raise .invalidData s
    else
      match findCode s.len b (peek b s) with
      | some sym => .ok sym (skip b s)
      | none => decodeFrom s fuel

/-- Decode() (R183). -/
def decodeNext (s : State) : Res Nat := decodeFrom s 15

end Sys2Proof.Machine
end

