-- ==== Sys2Proof/Machine/Operands.lean ====
section
/-! DEFINITION. The operand forms: symbol formation (spec/30_encoding.md R115), the residual and the offset (R117,
spec/42_decompress.md R260), the length forms (R118, R119, R261) and the back-reference copy (R262, R263). -/

namespace Sys2Proof.Machine

/-- highbit(v), with highbit(0) = 0 (R27). -/
def highbit (v : Nat) : Nat := Nat.log2 v

/-- The symbol of a match of raw offset `off` and L = `l` (R115). -/
def symOfMatch (off l : Nat) : Nat := matchSym (highbit off) (min 15 l)

/-- The residual of a raw offset: the low O bits, off - 2^O (R117). -/
def residualOf (off : Nat) : Nat := off - 2 ^ highbit off

/-- ResolveOffset(O) (R260): the offset, or InvalidData for too few bits and for an offset before the output's start. -/
def resolveOffset (o : Nat) (s : State) : Res Nat :=
  if s.rd.nbits.toNat < o then .raise .invalidData s
  else if s.cur.outPos.toNat < 2 ^ o + peek o s then .raise .invalidData s
  else .ok (2 ^ o + peek o s) s

/-- The input bytes a length form may take: from rpos, at most 7, none at or beyond slen (R118, R170). -/
def lengthBytes (s : State) : List Byte :=
  s.inBytes s.rd.rpos.toNat (min 7 (s.cur.slen.toNat - s.rd.rpos.toNat))

/-- Read the length form after nibble `n` from the raw bytes at rpos (R118, R174, R261): a field the input ends in
raises InvalidData. -/
def fetchLength (n : BitVec 4) (s : State) : Res LenForm :=
  match decodeLength n (lengthBytes s) with
  | .ok (g, _) => .ok g { s with rd := { s.rd with rpos := BitVec.ofNat 33 (s.rd.rpos.toNat + g.size) } }
  | .error _ => .raise .invalidData s

/-- L of a length form; a 16-bit or 32-bit field below 15 is none (R118). -/
def lengthValue : LenForm → Option Nat
  | .nibble n => some n.toNat
  | .ext8 b => some (15 + b.toNat)
  | .ext16 w => if w.toNat < 15 then none else some w.toNat
  | .ext32 x => if x.toNat < 15 then none else some x.toNat

/-- One iteration of Copy (R263). -/
def copyByte (off : Nat) (s : State) : State :=
  let t := s.writeByte (s.outAddr s.cur.outPos.toNat) (s.outByte (s.cur.outPos.toNat - off))
  { t with cur := { t.cur with outPos := BitVec.ofNat 33 (s.cur.outPos.toNat + 1) } }

/-- Copy(off, n) (R263): byte by byte, so a run re-reads the bytes it has just written. -/
def copyRun (off : Nat) : Nat → State → State
  | 0, s => s
  | n + 1, s => copyRun off n (copyByte off s)

/-- CheckCopy, Skip(O) and Copy for a match whose offset and O are in `mt` and whose length is `l` + 3 (R259, R262,
R263). No output byte is written and no residual bit consumed before the capacity check has passed. -/
def finishMatch (l : Nat) (s : State) : Res Unit :=
  if s.cur.cap.toNat < s.cur.outPos.toNat + (l + 3) then .raise .insufficientBuffer s
  else
    .ok () (copyRun s.mt.off.toNat (l + 3)
      (skip s.mt.o.toNat { s with mt := { s.mt with await := false } }))

/-- The rest of a match once its length form is read (R259, R261). -/
def lengthAction (g : LenForm) (s : State) : Res Unit :=
  match lengthValue g with
  | some l => finishMatch l s
  | none => .raise .invalidData s

/-- The length form the packer writes for L (R119): none for L < 15, one byte L - 15 up to 253, else the escape 0xFF
with L in 16 bits, else the escapes 0xFF and 0x0000 with L in 32 bits. -/
def wireLength (l : Nat) : LenForm :=
  if l < 15 then .nibble (BitVec.ofNat 4 l)
  else if l - 15 ≤ 253 then .ext8 (BitVec.ofNat 8 (l - 15))
  else if l ≤ 65535 then .ext16 (BitVec.ofNat 16 l)
  else .ext32 (BitVec.ofNat 32 l)

/-- The extension bytes of L, encode side (R119, R214): each field is a WriteRaw of its own. -/
def writeExtension (l : Nat) (s : State) : Res Unit :=
  match wireLength l with
  | .nibble _ => .ok () s
  | .ext8 b => writeRaw b.toNat 1 s
  | .ext16 w => (writeRaw 255 1 s).andThen fun _ s1 => writeRaw w.toNat 2 s1
  | .ext32 x =>
    (writeRaw 255 1 s).andThen fun _ s1 => (writeRaw 0 2 s1).andThen fun _ s2 => writeRaw x.toNat 4 s2

/-- The residual bits of an offset, encode side (R214): none for O = 0. -/
def writeResidual (off : Nat) (s : State) : Res Unit :=
  if highbit off = 0 then .ok () s else writeBits (residualOf off) (highbit off) s

/-- PackMatch once its token is read (R214): the symbol, then the extension bytes, then the residual. -/
def packMatch (off l : Nat) (s : State) : Res Unit :=
  (encodeSym (symOfMatch off l) s).andThen fun _ s1 =>
    (writeExtension l s1).andThen fun _ s2 => writeResidual off s2

end Sys2Proof.Machine
end

