-- ==== Sys2Proof/Machine/Compress.lean ====
section
/-! DEFINITION. The compress datapath apart from the packing of one token (spec/41_compress.md R201 to R226): the
tokenizer, the build step, the block header, the chunk driver and the stream driver. -/

namespace Sys2Proof.Machine

/-- CheckCapacity() (R220). -/
def checkCapacity (s : State) : Res Unit :=
  if s.cur.cap.toNat < s.cur.outPos.toNat + Config.minBlock then .raise .insufficientBuffer s else .ok () s

/-- The stream driver's choice at in_pos (R225): a full chunk without EOS while at least 65536 bytes remain, else the
empty block for a zero remainder, else the final short chunk. -/
def nextChunk (s : State) : State :=
  let rest := s.cur.slen.toNat - s.cur.inPos.toNat
  if Config.chunkSize ≤ rest then
    { s with
      cur := { s.cur with chunkLen := BitVec.ofNat 17 Config.chunkSize, finalChunk := false }
      phase := .cTokenize
      chunkOpen := false }
  else if rest = 0 then { s with phase := .cEmpty }
  else
    { s with
      cur := { s.cur with chunkLen := BitVec.ofNat 17 rest, finalChunk := true }
      phase := .cTokenize
      chunkOpen := false }

/-- The chunk driver's opening (R220, R221) and the first lines of the tokenizer's run (R207). -/
def openChunk (s : State) : Res Unit :=
  (checkCapacity s).andThen fun _ t =>
    .ok () { t with
      tk := { t.tk with
        tpos := t.cur.inPos
        tend := BitVec.ofNat 33 (t.cur.inPos.toNat + t.cur.chunkLen.toNat)
        scrLen := 0
        gbit := 32 }
      cnt := zeroCounts
      chunkOpen := true }

/-- Append bytes to the intermediate stream; past SCRATCH_BYTES raises InvalidState (R208). -/
def appendScr (bs : List Byte) (s : State) : Res Unit :=
  if s.par.scratchBytes < s.tk.scrLen.toNat + bs.length then .raise .invalidState s
  else
    .ok () { s with
      scr := s.scr.putList s.tk.scrLen.toNat bs
      tk := { s.tk with scrLen := BitVec.ofNat 18 (s.tk.scrLen.toNat + bs.length) } }

/-- Reserve a group's mask slot when no group is open or the current one is full (R206). -/
def openGroup (s : State) : Res Unit :=
  if s.tk.gbit.toNat ≠ 32 then .ok () s
  else if s.par.scratchBytes < s.tk.scrLen.toNat + 4 then .raise .invalidState s
  else
    .ok () { s with
      tk := { s.tk with
        gmaskAt := s.tk.scrLen
        scrLen := BitVec.ofNat 18 (s.tk.scrLen.toNat + 4)
        gmask := 0
        gbit := 0 } }

/-- Mark the next token of the open group and keep the group's slot current (R206). -/
def markToken (isMatch : Bool) (s : State) : State :=
  let m := if isMatch then s.tk.gmask ||| (1#32 <<< s.tk.gbit.toNat) else s.tk.gmask &&& ~~~(1#32 <<< s.tk.gbit.toNat)
  { s with
    tk := { s.tk with gmask := m, gbit := BitVec.ofNat 6 (s.tk.gbit.toNat + 1) }
    scr := s.scr.putList s.tk.gmaskAt.toNat (bytesLE 4 m.toNat) }

/-- OpenToken(t) (R206). -/
def openToken (isMatch : Bool) (s : State) : Res Unit :=
  (openGroup s).andThen fun _ t => .ok () (markToken isMatch t)

/-- cnt[sym] += 1 (R50). -/
def countSym (sym : Nat) (s : State) : State := { s with cnt := s.cnt.modify sym (· + 1#17) }

/-- Advance the tokenizer's cursor. -/
def advance (n : Nat) (s : State) : State :=
  { s with tk := { s.tk with tpos := BitVec.ofNat 33 (s.tk.tpos.toNat + n) } }

/-- The match token the tokenizer writes for a raw offset and L (R122, R203). -/
def matchToken (off : Half) (l : Nat) : Instr :=
  if l ≤ 253 then .itokMatchL8 off (BitVec.ofNat 8 l)
  else if l ≤ 65534 then .itokMatchL16 off (BitVec.ofNat 16 l)
  else .itokMatchL32 off (BitVec.ofNat 32 l)

/-- TokMatch(off, n) (R203). -/
def tokMatch (off : Half) (n : Nat) (s : State) : Res Unit :=
  (openToken true s).andThen fun _ t =>
    (appendScr (encode (matchToken off (n - 3))) t).andThen fun _ u =>
      .ok () (advance n (countSym (symOfMatch off.toNat (n - 3)) u))

/-- TokEos (R204). -/
def tokEos (s : State) : Res Unit :=
  (openToken true s).andThen fun _ t =>
    (appendScr (encode .itokEos) t).andThen fun _ u => .ok () (countSym 256 u)

/-- TokLit(b) (R205). -/
def tokLit (b : Byte) (s : State) : Res Unit :=
  (openToken false s).andThen fun _ t =>
    (appendScr (encode (.itokLit b)) t).andThen fun _ u => .ok () (advance 1 (countSym b.toNat u))

/-- The match decision of R202 for the oracle's answer (mlen, moff): clamp first, then the test. -/
def tokenFor (answer : Nat × Nat) (s : State) : Res Unit :=
  let m := min answer.1 (s.tk.tend.toNat - s.tk.tpos.toNat)
  if 3 ≤ m then tokMatch (BitVec.ofNat 16 answer.2) m s else tokLit (s.inByte s.tk.tpos.toNat) s

/-- The 512 code lengths HUFF_BUILD answers for the chunk's counts (R210). -/
@[irreducible] def builtLengths (o : Config.Oracles) (cnt : List (BitVec 17)) : List (BitVec 4) :=
  (List.range Config.alphabet).map (o.huffBuild cnt)

/-- The build step (R211). -/
def buildCode (o : Config.Oracles) (s : State) : State := { s with len := builtLengths o s.cnt }

/-- The head of PackChunk (R212): the 256-byte table, then WriterInit, then the walk at index 0. -/
def packHeader (s : State) : Res Unit :=
  (writerInit (s.cur.outPos.toNat + Config.tableBytes)
    (s.writeOut s.cur.outPos.toNat (tableToBytes s.len))).andThen fun _ t =>
      .ok () { t with pk := { t.pk with ppos := 0, pbit := 32 }, phase := .cPack }

/-- The end of the tokenizer's run (R207: EOS for a final chunk), then the build step (R211) and PackChunk's head
(R212). -/
def closeTokens (o : Config.Oracles) (s : State) : Res Unit :=
  (if s.cur.finalChunk then tokEos s else .ok () s).andThen fun _ t => packHeader (buildCode o t)

/-- R201's contract of MATCH_SOURCE: whenever the answer, clamped to the r bytes remaining, is at least 3, the offset is from
1 to min(65535, p) and the m bytes at the cursor repeat those that lie `offset` before them. The model's step runs with any
answer; a statement that needs the contract has it as a premise (log entry 5). -/
def MatchSourceContract (o : Config.Oracles) : Prop :=
  ∀ (input : List Byte) (p r : Nat), 1 ≤ r → p + r ≤ input.length →
    let off := (o.matchSource input p r).2
    let m := min (o.matchSource input p r).1 r
    3 ≤ m → 1 ≤ off ∧ off ≤ min Config.window p ∧ ∀ i < m, input.getD (p - off + i) 0 = input.getD (p + i) 0

/-- R210's contract of HUFF_BUILD: the 512 lengths form a valid table (R180), and every symbol that was counted has a length
of at least 1. That each length is from 0 to 15 is its type. The model's step runs with any answer; a statement that needs
the contract has it as a premise (log entry 5). -/
def HuffBuildContract (o : Config.Oracles) : Prop :=
  ∀ cnt : List (BitVec 17), cnt.length = Config.alphabet →
    tableValid (builtLengths o cnt) = true ∧
      ∀ s < Config.alphabet, cnt.getD s 0 ≠ 0 → 1 ≤ lenOf (builtLengths o cnt) s

/-- One step of phase C_TOKENIZE (R202, R207, R221). -/
def tokenizeStep (o : Config.Oracles) (s : State) : Res Unit :=
  if s.chunkOpen = false then openChunk s
  else if s.tk.tpos.toNat < s.tk.tend.toNat then
    tokenFor (o.matchSource s.input s.tk.tpos.toNat (s.tk.tend.toNat - s.tk.tpos.toNat)) s
  else closeTokens o s

/-- The end of PackChunk and of OneChunk (R164, R212, R221), then the stream driver (R225) or, after the final chunk,
completion (R200). -/
def finishChunk (s : State) : State :=
  let t := finishWriter s
  let u := { t with
    cur := { t.cur with
      outPos := t.wr.rawpos
      inPos := BitVec.ofNat 33 (t.cur.inPos.toNat + t.cur.chunkLen.toNat) } }
  if u.cur.finalChunk then completeOk u else nextChunk u

/-- The empty block's bytes (R222): len[0x100] = 1 is the low nibble of byte 0x80. -/
def emptyBlock : List Byte := List.replicate 128 0#8 ++ 1#8 :: List.replicate 131 0#8

/-- Phase C_EMPTY (R222), then completion (R200). -/
def emptyStep (s : State) : Res Unit :=
  (checkCapacity s).andThen fun _ t =>
    let u := t.writeOut t.cur.outPos.toNat emptyBlock
    .ok () (completeOk { u with
      cur := { u.cur with outPos := BitVec.ofNat 33 (u.cur.outPos.toNat + Config.minBlock) } })

end Sys2Proof.Machine
end

