-- ==== Sys2Proof/Machine/Decompress.lean ====
section
/-! DEFINITION. The decompress datapath apart from the meaning of a symbol (spec/42_decompress.md R251 to R271):
ReadHeader, the continuation gate and the chunk end. -/

namespace Sys2Proof.Machine

/-- ReadHeader and CheckTable (R252, R253), phase D_READ_HEADER. -/
def readHeader (s : State) : Res Unit :=
  if s.cur.slen.toNat - s.cur.inPos.toNat < Config.minBlock then .raise .invalidData s
  else
    let t := { s with len := tableOfBytes (s.inBytes s.cur.inPos.toNat Config.tableBytes) }
    if tableValid t.len = false then .raise .invalidData t
    else
      let u := readerInit (t.cur.inPos.toNat + Config.tableBytes) t
      .ok () { u with
        cur := { u.cur with chunkOutStart := u.cur.outPos, eosSeen := false }
        mt := { u.mt with await := false }
        phase := .dDecode }

/-- The continuation gate (R255). -/
def gate (s : State) : Bool :=
  decide (s.cur.outPos.toNat - s.cur.chunkOutStart.toNat < Config.chunkSize) || !maskIsZero s

/-- in_pos advances by consumed = rpos - in_pos (R266, R270). -/
def chunkEnd (s : State) : State :=
  { s with
    cur := { s.cur with
      inPos := BitVec.ofNat 33 (s.cur.inPos.toNat + (s.rd.rpos.toNat - s.cur.inPos.toNat)) } }

/-- The chunk ends without EOS: the next chunk's header follows (R251, R266). -/
def chunkEndNoEos (s : State) : State := { chunkEnd s with phase := .dReadHeader }

end Sys2Proof.Machine
end

