-- ==== Sys2Proof/Machine/Commands.lean ====
section
/-! DEFINITION. The command words stored to CMD: CMD_NOP, COMPRESS, DECOMPRESS, CMD_ILLEGAL (spec/60_exceptions.md R319,
R304; spec/41_compress.md R200; spec/42_decompress.md R250). A store to CMD while BUSY = 1 is ignored (R32, R319). -/

namespace Sys2Proof.Machine

/-- The precondition of a launch (R90): neither buffer wraps past 2^32 - 1 and the two are disjoint; an empty buffer is
disjoint from any other. -/
def buffersOk (src slen dst cap : Word) : Bool :=
  decide (src.toNat + slen.toNat ≤ memBound) && decide (dst.toNat + cap.toNat ≤ memBound) &&
    (decide (src.toNat + slen.toNat ≤ dst.toNat) || decide (dst.toNat + cap.toNat ≤ src.toNat) ||
      decide (slen = 0#32) || decide (cap = 0#32))

/-- The launch precondition of the registers as the host has left them (R90). -/
def State.launchOk (s : State) : Bool := buffersOk s.win.srcAddr s.win.srcLen s.win.dstAddr s.win.dstCap

/-- What acceptance does for COMPRESS and DECOMPRESS alike (R200, R250): the results and DONE and ERR cleared, BUSY set,
every field of R46 latched or cleared, and every write the host has completed visible to the command's reads, so that it
counts as later than any engine write before it (R95; log entry 29). -/
def acceptCommand (op : Op) (s : State) : State :=
  { s with
    win := { s.win with status := statusAccepted, result := 0, error := 0, inConsumed := 0 }
    cur := {
      op := op
      src := s.win.srcAddr
      slen := s.win.srcLen
      dst := s.win.dstAddr
      cap := s.win.dstCap
      inPos := 0
      outPos := 0
      chunkOutStart := 0
      chunkLen := 0
      finalChunk := false
      eosSeen := false }
    mt := { s.mt with await := false }
    contested := [] }

/-- An illegal command completes at once (R304). -/
def illegalCommand (s : State) : State :=
  { s with
    win := { s.win with
      status := 4#3
      result := 0
      inConsumed := 0
      error := illegalCommandCode } }

/-- CMD_NOP (R319): ignored in every state. -/
def execCmdNop (s : State) : Host.Outcome State Fault Refusal := .next s

/-- COMPRESS (R200): acceptance; the stream driver picks the first phase (R225; log entry 15). -/
def execCompress (s : State) : Host.Outcome State Fault Refusal :=
  if s.busy then .next s
  else if s.launchOk then .next (nextChunk (acceptCommand .compress s))
  else .refused .badBuffers

/-- DECOMPRESS (R250): acceptance; the first phase is D_READ_HEADER (R270). -/
def execDecompress (s : State) : Host.Outcome State Fault Refusal :=
  if s.busy then .next s
  else if s.launchOk then .next { acceptCommand .decompress s with phase := .dReadHeader }
  else .refused .badBuffers

/-- CMD_ILLEGAL (R304, R319). -/
def execCmdIllegal (_v : Word) (s : State) : Host.Outcome State Fault Refusal :=
  if s.busy then .next s else .next (illegalCommand s)

end Sys2Proof.Machine
end

