-- ==== Sys2Proof/Machine/Lengths.lean ====
section
/-! DEFINITION. The meanings of a match's length form, its raw bytes already read: L, then the rest of the match whose
offset is held (spec/30_encoding.md R118; spec/42_decompress.md R259, R261 to R263; log entry 17). -/

namespace Sys2Proof.Machine

/-- LEN_NIBBLE: L = N (R118). -/
def execLenNibble (n : BitVec 4) (s : State) : Host.Outcome State Fault Refusal := settle (lengthAction (.nibble n) s)

/-- LEN_EXT8: L = 15 + b (R118). -/
def execLenExt8 (b : Byte) (s : State) : Host.Outcome State Fault Refusal := settle (lengthAction (.ext8 b) s)

/-- LEN_EXT16: L = w, InvalidData below 15 (R118). -/
def execLenExt16 (w : Half) (s : State) : Host.Outcome State Fault Refusal := settle (lengthAction (.ext16 w) s)

/-- LEN_EXT32: L = x, InvalidData below 15 (R118). -/
def execLenExt32 (x : Word) (s : State) : Host.Outcome State Fault Refusal := settle (lengthAction (.ext32 x) s)

end Sys2Proof.Machine
end

