-- ==== Sys2Proof/Machine/Symbols.lean ====
section
/-! DEFINITION. The meanings of a decoded symbol, its codeword already skipped: SYM_LIT (spec/42_decompress.md R258),
SYM_EOS (R257, R266), SYM_MATCH (R259 to R263). -/

namespace Sys2Proof.Machine

/-- A literal (R258). -/
def literal (b : Byte) (s : State) : Res Unit :=
  if s.cur.cap.toNat ≤ s.cur.outPos.toNat then .raise .insufficientBuffer s
  else
    let t := s.writeByte (s.outAddr s.cur.outPos.toNat) b
    .ok () { t with cur := { t.cur with outPos := BitVec.ofNat 33 (s.cur.outPos.toNat + 1) } }

/-- The first line of a match (R259, R260): the offset, kept with O and N until the length form is read. -/
def beginMatch (o n : BitVec 4) (s : State) : Res Unit :=
  (resolveOffset o.toNat s).andThen fun off t => .ok () { t with mt := ⟨BitVec.ofNat 16 off, o, n, true⟩ }

/-- The length form and the rest of a match (R259, R261). -/
def endMatch (s : State) : Res Unit := (fetchLength s.mt.n s).andThen lengthAction

/-- A whole match (R259): one step performs it entirely or raises (R251). -/
def matchSymbol (o n : BitVec 4) (s : State) : Res Unit := (beginMatch o n s).andThen fun _ t => endMatch t

/-- SYM_LIT (R258). -/
def execSymLit (b : Byte) (s : State) : Host.Outcome State Fault Refusal := settle (literal b s)

/-- SYM_EOS (R257): the chunk ends and with it the stream (R266, R270). -/
def execSymEos (s : State) : Host.Outcome State Fault Refusal :=
  let t := chunkEnd s
  .next { t with cur := { t.cur with eosSeen := true }, phase := .dEndOfStream }

/-- SYM_MATCH (R259). -/
def execSymMatch (o n : BitVec 4) (s : State) : Host.Outcome State Fault Refusal := settle (matchSymbol o n s)

end Sys2Proof.Machine
end

