-- ==== Sys2Proof/Machine/Tokens.lean ====
section
/-! DEFINITION. The meanings of an intermediate token in phase C_PACK, its scratch bytes already read: the group mask
(spec/41_compress.md R212), PackLit (R213) and PackMatch (R214). -/

namespace Sys2Proof.Machine

/-- ITOK_GROUP: the group's mask M is held and its first bit is next (R212). -/
def execItokGroup (m : Word) (s : State) : Host.Outcome State Fault Refusal :=
  .next { s with pk := { s.pk with pmask := m, pbit := 0 } }

/-- ITOK_LIT (R213). -/
def execItokLit (b : Byte) (s : State) : Host.Outcome State Fault Refusal := settle (encodeSym b.toNat s)

/-- ITOK_MATCH_L8 (R214). -/
def execItokMatchL8 (off : Half) (l : Byte) (s : State) : Host.Outcome State Fault Refusal :=
  settle (packMatch off.toNat l.toNat s)

/-- ITOK_MATCH_L16 (R214). -/
def execItokMatchL16 (off w : Half) (s : State) : Host.Outcome State Fault Refusal :=
  settle (packMatch off.toNat w.toNat s)

/-- ITOK_MATCH_L32 (R214). -/
def execItokMatchL32 (off : Half) (x : Word) (s : State) : Host.Outcome State Fault Refusal :=
  settle (packMatch off.toNat x.toNat s)

/-- ITOK_EOS (R214): offset 0 and L = 0 form symbol 0x100 (R115). -/
def execItokEos (s : State) : Host.Outcome State Fault Refusal := settle (packMatch 0 0 s)

end Sys2Proof.Machine
end

