-- ==== Sys2Proof/Machine/Dispatch.lean ====
section
/-! DEFINITION. One arm per constructor of Instr. -/

namespace Sys2Proof.Machine

def exec (i : Instr) (s : State) : Host.Outcome State Fault Refusal :=
  match i with
  | .cmdNop => Sys2Proof.Machine.execCmdNop s
  | .compress => Sys2Proof.Machine.execCompress s
  | .decompress => Sys2Proof.Machine.execDecompress s
  | .cmdIllegal v => Sys2Proof.Machine.execCmdIllegal v s
  | .symLit b => Sys2Proof.Machine.execSymLit b s
  | .symEos => Sys2Proof.Machine.execSymEos s
  | .symMatch o n => Sys2Proof.Machine.execSymMatch o n s
  | .lenNibble n => Sys2Proof.Machine.execLenNibble n s
  | .lenExt8 b => Sys2Proof.Machine.execLenExt8 b s
  | .lenExt16 w => Sys2Proof.Machine.execLenExt16 w s
  | .lenExt32 x => Sys2Proof.Machine.execLenExt32 x s
  | .itokGroup m => Sys2Proof.Machine.execItokGroup m s
  | .itokLit b => Sys2Proof.Machine.execItokLit b s
  | .itokMatchL8 off l => Sys2Proof.Machine.execItokMatchL8 off l s
  | .itokMatchL16 off w => Sys2Proof.Machine.execItokMatchL16 off w s
  | .itokMatchL32 off x => Sys2Proof.Machine.execItokMatchL32 off x s
  | .itokEos => Sys2Proof.Machine.execItokEos s

end Sys2Proof.Machine
end

