-- ==== Sys2Proof/Machine/HostPort.lean ====
section
/-! DEFINITION. The host's side of the interface: the register window (spec/10_state.md R32 to R41, spec/20_memory.md
R86), system memory as the host sees it (R95, R97, R351) and the platform's reset (spec/70_reset_and_hazards.md R340,
R342). -/

namespace Sys2Proof.Machine

/-- What a load of the register at window offset `off` returns (R32 to R41, R351). -/
def regRead (off : Nat) (s : State) : Word :=
  match off with
  | 0x04 => s.win.status.setWidth 32
  | 0x08 => s.win.srcAddr
  | 0x0C => s.win.srcLen
  | 0x10 => s.win.dstAddr
  | 0x14 => s.win.dstCap
  | 0x18 => s.win.result
  | 0x1C => s.win.error.setWidth 32
  | 0x20 => s.win.inConsumed
  | _ => 0

/-- A store of `v` to the register at window offset `off`, CMD apart: ignored while BUSY = 1 (R33 to R37, R350), at
read-only registers (R38 to R40) and at reserved offsets (R41). -/
def regWrite (off : Nat) (v : Word) (s : State) : State :=
  if s.busy then s
  else
    match off with
    | 0x04 => { s with win := { s.win with status := statusWrite s.win.status v } }
    | 0x08 => { s with win := { s.win with srcAddr := v } }
    | 0x0C => { s with win := { s.win with srcLen := v } }
    | 0x10 => { s with win := { s.win with dstAddr := v } }
    | 0x14 => { s with win := { s.win with dstCap := v } }
    | _ => s

/-- Where a register access falls: the offset of the register it names, or why it names none (R81, R86). -/
inductive Access where
  | reg (off : Nat)
  | bad (r : Refusal)

/-- The register an access of `width` bytes at bus address `addr` names (R81, R86; log entry 12). -/
def accessOf (addr : Word) (width : Nat) (s : State) : Access :=
  if addr.toNat < s.par.xhBase.toNat ∨ s.par.xhBase.toNat + 64 ≤ addr.toNat then .bad .outsideWindow
  else if width ≠ 4 ∨ (addr.toNat - s.par.xhBase.toNat) % 4 ≠ 0 then .bad .badRegisterAccess
  else .reg (addr.toNat - s.par.xhBase.toNat)

/-- Whether an address lies in the running command's input buffer (R88). -/
def State.inInput (s : State) (a : Word) : Bool :=
  decide (s.cur.src.toNat ≤ a.toNat) && decide (a.toNat < s.cur.src.toNat + s.cur.slen.toNat)

/-- Whether an address lies in the running command's output buffer (R88). -/
def State.inOutput (s : State) (a : Word) : Bool :=
  decide (s.cur.dst.toNat ≤ a.toNat) && decide (a.toNat < s.cur.dst.toNat + s.cur.cap.toNat)

/-- A value a load of the host's returned. -/
def logRead (v : Word) (s : State) : State := { s with reads := v :: s.reads }

/-- Whether an address lies in what a command wrote that has ended since the host last read STATUS with BUSY = 0 (R95; log
entry 28). -/
def State.isUnseen (s : State) (a : Word) : Bool :=
  s.unseen.any fun r => decide (r.1 ≤ a.toNat) && decide (a.toNat < r.1 + r.2)

/-- The host has read STATUS with BUSY = 0, the one synchronisation point (R95, R96): every engine write so far is visible
to its later reads. -/
def State.synchronise (s : State) : State := { s with unseen := [] }

/-- The host loads the register at window offset `off` (R32 to R41); a load of STATUS that returns BUSY = 0 synchronises
(R95, R96). -/
def hostRegLoad (off : Nat) (s : State) : State :=
  { logRead (regRead off s) s with unseen := if off = 0x04 ∧ s.busy = false then [] else s.unseen }

/-- The host's byte is in system memory, where the next command reads it (R95). Over an engine write the host has yet to
synchronise with the byte is contested from now on, elsewhere it is not (log entry 29). -/
def hostWrite (a : Word) (v : Byte) (s : State) : State :=
  let others := s.contested.filter (· != a.toNat)
  { s.writeByte a v with contested := if s.isUnseen a then a.toNat :: others else others }

/-- The host writes a byte of system memory (R95). A byte of a running command's buffer is a race (R97, R352). -/
def hostStore (a : Word) (v : Byte) (s : State) : Host.Outcome State Fault Refusal :=
  if s.busy && (s.inInput a || s.inOutput a) then .fault .bufferRace else .next (hostWrite a v s)

/-- Whether R95 leaves open what the host reads at an address: an output byte while BUSY = 1 (R91, R351; log entry 9), a byte
a command wrote and the host has yet to synchronise with (R346; log entry 28), a contested byte (log entry 29). -/
def State.hostViewOpen (s : State) (a : Word) : Bool :=
  (s.busy && s.inOutput a) || s.isUnseen a || s.contested.contains a.toNat

/-- What the host reads at a byte of system memory: the byte, or a free value where R95 leaves it open. -/
def hostLoad (a : Word) (s : State) : Byte :=
  if s.hostViewOpen a then Config.freeBusyRead s.reads.length else s.readByte a

/-- Reset (R340 to R342): the window and the phase as R340 says, the datapath as State.reset has it (log entry 13); a
running command is abandoned and its output buffer's bytes become unspecified. Reset is no STATUS read and no CMD
store, so what R95 leaves open for the host stays so (log entries 28 and 29). -/
def hostReset (s : State) : State :=
  let t := if s.busy then s.loseOutput else s
  { State.reset with
    par := t.par, host := t.host, reads := t.reads, mem := t.mem, lost := t.lost, unseen := t.unseen
    contested := t.contested }

end Sys2Proof.Machine
end

