-- ==== Sys2Proof/Machine/Fetch.lean ====
section
/-! DEFINITION. Where the next instruction comes from (there is no program counter: spec/10_state.md R45): a host store
to CMD (spec/60_exceptions.md R319), the codeword at the head of the bit buffer (spec/42_decompress.md R256), the raw
bytes of a length form (R261), the scratch bytes of a token (spec/41_compress.md R212 to R214). A step that runs no
instruction (a register access, a tokenizer step, a header, a chunk end, a completion) is answered whole. -/

namespace Sys2Proof.Machine

/-- What a step finds: an instruction and the state past its words, or the whole outcome of a step that runs none. -/
inductive Fetched where
  | instr (i : Instr) (s : State)
  | act (r : Host.Outcome State Fault Refusal)

/-- An operation that reads the next instruction: it, or the completion with the error raised on the way. -/
def fetchedOf (r : Res Instr) : Fetched :=
  match r with
  | .ok i s => .instr i s
  | .raise e s => .act (.next (completeErr e s))

/-- D_DECODE (R251, R255, R256): the length form of a match left half assembled (log entry 17), else the next symbol
while the gate is true, else the chunk end. -/
def fetchDecode (s : State) : Fetched :=
  if s.mt.await then fetchedOf ((fetchLength s.mt.n s).andThen fun g t => .ok g.instr t)
  else if gate s then
    fetchedOf ((decodeNext s).andThen fun sym t => .ok (decodeSym (BitVec.ofNat 9 sym) (maskIsZero t)) t)
  else .act (.next (chunkEndNoEos s))

/-- Read an instruction of format `f` in `bs`, the rest of the intermediate stream (R212 to R214, R216): the packer's
index moves past its bytes, and the group's bit number by `bits`. -/
def fetchToken (f : Format) (bits : Nat) (bs : List Byte) (s : State) : Fetched :=
  match decode f bs with
  | .ok (i, _) =>
    .instr i { s with
      pk := { s.pk with
        ppos := BitVec.ofNat 18 (s.pk.ppos.toNat + (encode i).length)
        pbit := BitVec.ofNat 6 (s.pk.pbit.toNat + bits) } }
  | .error _ => .act (.next (completeErr .invalidState s))

/-- The unread intermediate bytes a token may take: at most 9, none at or beyond scr_len (R212). -/
def tokenBytes (s : State) : List Byte :=
  s.scrBytes s.pk.ppos.toNat (min 9 (s.tk.scrLen.toNat - s.pk.ppos.toNat))

/-- C_PACK (R212): the end of the walk, the mask of the next group, or the group's next token. -/
def fetchPack (s : State) : Fetched :=
  if s.tk.scrLen.toNat ≤ s.pk.ppos.toNat then .act (.next (finishChunk s))
  else if 32 ≤ s.pk.pbit.toNat then fetchToken .group 0 (tokenBytes s) s
  else if s.pk.pmask.getLsbD s.pk.pbit.toNat then fetchToken .mat 1 (tokenBytes s) s
  else fetchToken .lit 1 (tokenBytes s) s

/-- The engine's next move, by phase (R45). In IDLE nothing changes (R325). -/
def fetchEngine (o : Config.Oracles) (s : State) : Fetched :=
  match s.phase with
  | .idle => .act (.next s)
  | .cTokenize => .act (settle (tokenizeStep o s))
  | .cPack => fetchPack s
  | .cEmpty => .act (settle (emptyStep s))
  | .dReadHeader => .act (settle (readHeader s))
  | .dDecode => fetchDecode s
  | .dEndOfStream => .act (.next (completeOk s))

/-- A register store by the host: to CMD it is an instruction (R319), elsewhere a register write. -/
def fetchRegStore (addr : Word) (width : Nat) (v : Word) (s : State) : Fetched :=
  match accessOf addr width s with
  | .bad r => .act (.refused r)
  | .reg off => if off = 0 then .instr (decodeCmd v) s else .act (.next (regWrite off v s))

/-- A register load by the host (R32 to R41, R95). -/
def fetchRegLoad (addr : Word) (width : Nat) (s : State) : Fetched :=
  match accessOf addr width s with
  | .bad r => .act (.refused r)
  | .reg off => .act (.next (hostRegLoad off s))

/-- The next move: the host's next access, or the engine's where the host gives way (log entry 1). -/
def fetchWith (o : Config.Oracles) (s : State) : Fetched :=
  match s.host with
  | [] => fetchEngine o s
  | .tick :: rest => fetchEngine o { s with host := rest }
  | .poll :: rest => if s.busy then fetchEngine o s else .act (.next (State.synchronise { s with host := rest }))
  | .regStore addr width v :: rest => fetchRegStore addr width v { s with host := rest }
  | .regLoad addr width :: rest => fetchRegLoad addr width { s with host := rest }
  | .memStore a v :: rest => .act (hostStore a v { s with host := rest })
  | .memLoad a :: rest =>
    .act (.next (logRead ((hostLoad a s).setWidth 32) { s with host := rest }))
  | .reset :: rest => .act (.next (hostReset { s with host := rest }))

/-- A length table in which `sym` alone has a codeword, `0`. -/
def oneCode (sym : Nat) : List (BitVec 4) := (List.range Config.alphabet).map fun i => if i = sym then 1#4 else 0#4

/-- `s` with the bytes `bs` of format `f` where the next step fetches (log entry 2): a store to CMD as the host's next
access; a symbol as the next codeword of a running D_DECODE, every later buffered bit 0; a length form as the raw bytes
of a match whose offset is held; a token as the next one of a running C_PACK. -/
def placeInstr (f : Format) (bs : List Byte) (s : State) : State :=
  match f with
  | .cmd => { s with host := .regStore s.par.xhBase 4 (BitVec.ofNat 32 (ofBytesLE bs)) :: s.host }
  | .sym _ =>
    { s with
      host := .tick :: s.host
      phase := .dDecode
      win := { s.win with status := statusAccepted }
      cur := { s.cur with chunkOutStart := s.cur.outPos }
      len := oneCode (ofBytesLE bs)
      rd := { s.rd with buf := 0, nbits := 32 }
      mt := { s.mt with await := false } }
  | .len n =>
    { s.writeBytes s.cur.src bs with
      host := .tick :: s.host
      phase := .dDecode
      win := { s.win with status := statusAccepted }
      cur := { s.cur with slen := BitVec.ofNat 32 bs.length }
      rd := { s.rd with rpos := 0 }
      mt := { s.mt with n := n, await := true } }
  | .group | .lit | .mat =>
    { s with
      host := .tick :: s.host
      phase := .cPack
      win := { s.win with status := statusAccepted }
      scr := s.scr.putList 0 bs
      tk := { s.tk with scrLen := BitVec.ofNat 18 bs.length }
      pk := { ppos := 0, pmask := if f = .lit then 0 else 1, pbit := if f = .group then 32 else 0 } }

end Sys2Proof.Machine
end

