-- ==== Sys2Proof/Machine/Step.lean ====
section
/-! DEFINITION. One step of the machine (spec/00_scope.md R7): what it finds is an instruction, which exec runs, or a
move answered whole. -/

namespace Sys2Proof.Machine

/-- The outcome of a move: exec runs an instruction, any other move is its own outcome. -/
def perform (f : Fetched) : Host.Outcome State Fault Refusal :=
  match f with
  | .instr i t => exec i t
  | .act r => r

/-- One step under the oracles `o`: the model quantifies over them (R20, R21). -/
def stepWith (o : Config.Oracles) (s : State) : Host.Outcome State Fault Refusal := perform (fetchWith o s)

/-- The engine's own move, where the host gives way (R45; log entry 1). -/
def engineStep (o : Config.Oracles) (s : State) : Host.Outcome State Fault Refusal := perform (fetchEngine o s)

/-- One step of this engine. -/
def step (s : State) : Host.Outcome State Fault Refusal := stepWith Config.oracles s

/-- `s` with the opcode table's instruction of `nbits` bits `w` where step fetches (log entries 2 and 22). -/
def State.withFetchWord (s : State) (nbits w : Nat) : State :=
  placeInstr (tableBytes nbits w).1 (tableBytes nbits w).2 s

end Sys2Proof.Machine
end

