-- ==== Sys2Proof/Safety.lean ====
section
/-! DEFINITION. What counts as a safe state and a whole move, in the terms the statements use: the invariants of the
window, the memories, the cursors and the scratch memory, the measure that bounds a command, and the effects of the
bit writer, of a packed token and of a copied match as relations between two states. -/

namespace Sys2Proof.Machine

/-- The window (R33, R45, R320, R351): BUSY is 1 exactly outside IDLE; STATUS is one of its four reachable values; while
BUSY the results read 0 and the operand registers hold the latched values; a settled DONE goes with ERROR = 0, a settled
ERR with a code from 1 to 4 and zero results. -/
def WindowInv (s : State) : Prop :=
  (s.busy = true ↔ s.phase ≠ .idle) ∧
    (s.win.status = 0 ∨ s.win.status = 1 ∨ s.win.status = 2 ∨ s.win.status = 4) ∧
    s.win.error.toNat ≤ 4 ∧
    (s.win.status = 1 → s.win.result = 0 ∧ s.win.error = 0 ∧ s.win.inConsumed = 0 ∧ s.win.srcAddr = s.cur.src ∧
      s.win.srcLen = s.cur.slen ∧ s.win.dstAddr = s.cur.dst ∧ s.win.dstCap = s.cur.cap) ∧
    (s.win.status = 2 → s.win.error = 0) ∧
    (s.win.status = 4 → s.win.result = 0 ∧ s.win.inConsumed = 0 ∧ s.win.error ≠ 0)

/-- The memories and tables: both memories in canonical form, no scratch byte at or beyond SCRATCH_BYTES (R59), the mask
slot of an open group inside it (R206), 512 counters and 512 lengths (R50, R51). -/
def MemoryInv (s : State) : Prop :=
  s.mem.wf memBound ∧ s.scr.wf s.par.scratchBytes ∧
    (s.tk.gbit = 32 ∨ s.tk.gmaskAt.toNat + 4 ≤ s.par.scratchBytes) ∧
    s.cnt.length = 512 ∧ s.len.length = 512

/-- The reader's registers in D_DECODE (R176): nbits at most 32, the low 32 - nbits bits of buf 0, the payload's first
four bytes fetched, nothing at or beyond slen. -/
def ReaderInv (s : State) : Prop :=
  s.rd.nbits.toNat ≤ 32 ∧ s.rd.buf.toNat % 2 ^ (32 - s.rd.nbits.toNat) = 0 ∧
    s.cur.inPos.toNat + 260 ≤ s.rd.rpos.toNat ∧ s.rd.rpos.toNat ≤ s.cur.slen.toNat

/-- The writer's registers in C_PACK: at most 16 pending bits, the two reserved slots one after the other before the raw
position, which lies inside the capacity (R161 to R163). -/
def WriterInv (s : State) : Prop :=
  s.wr.nacc.toNat ≤ 16 ∧ s.wr.slot0.toNat + 2 ≤ s.wr.slot1.toNat ∧
    s.wr.slot1.toNat + 2 ≤ s.wr.rawpos.toNat ∧ s.wr.rawpos.toNat ≤ s.cur.cap.toNat

/-- The cursors of a running command, phase by phase (R46, R88, R90, R207, R220, R225, R252), and no match half assembled
between two steps (R251). -/
def CursorInv (s : State) : Prop :=
  s.mt.await = false ∧
    (s.phase ≠ .idle → buffersOk s.cur.src s.cur.slen s.cur.dst s.cur.cap = true ∧
      s.cur.outPos.toNat ≤ s.cur.cap.toNat ∧ s.cur.inPos.toNat ≤ s.cur.slen.toNat) ∧
    (s.phase = .cTokenize ∨ s.phase = .cPack ∨ s.phase = .cEmpty → s.cur.op = .compress) ∧
    (s.phase = .dReadHeader ∨ s.phase = .dDecode ∨ s.phase = .dEndOfStream → s.cur.op = .decompress) ∧
    (s.phase = .cTokenize ∨ s.phase = .cPack → 1 ≤ s.cur.chunkLen.toNat ∧ s.cur.chunkLen.toNat ≤ Config.chunkSize ∧
      (s.cur.finalChunk = true → s.cur.chunkLen.toNat < Config.chunkSize) ∧
      s.cur.inPos.toNat + s.cur.chunkLen.toNat ≤ s.cur.slen.toNat) ∧
    (s.phase = .cTokenize → s.chunkOpen = true →
      s.cur.outPos.toNat + Config.minBlock ≤ s.cur.cap.toNat ∧
      s.cur.inPos.toNat ≤ s.tk.tpos.toNat ∧ s.tk.tpos.toNat ≤ s.tk.tend.toNat ∧
      s.tk.tend.toNat = s.cur.inPos.toNat + s.cur.chunkLen.toNat) ∧
    (s.phase = .cPack → WriterInv s) ∧
    (s.phase = .cEmpty → s.cur.inPos.toNat = s.cur.slen.toNat) ∧
    (s.phase = .dDecode → ReaderInv s ∧ s.cur.chunkOutStart.toNat ≤ s.cur.outPos.toNat)

/-- The intermediate stream while a chunk is tokenized (R209): with c bytes consumed and g groups opened, at most c + 4g
bytes, and at most c tokens in the groups. -/
def ScratchInv (s : State) : Prop :=
  s.phase = .cTokenize → s.chunkOpen = true →
    s.tk.gbit.toNat ≤ 32 ∧
      ∃ g : Nat, s.tk.scrLen.toNat ≤ s.tk.tpos.toNat - s.cur.inPos.toNat + 4 * g ∧
        32 * g + s.tk.gbit.toNat ≤ s.tk.tpos.toNat - s.cur.inPos.toNat + 32

/-- How much of the running command is left (R361): 0 in IDLE, and every engine step makes it smaller. -/
def remaining (s : State) : Nat :=
  let rest := s.cur.slen.toNat - s.cur.inPos.toNat
  match s.phase with
  | .idle => 0
  | .cEmpty => 1
  | .dEndOfStream => 1
  | .cTokenize =>
    if s.chunkOpen then rest * 1048576 + 524288 + (s.tk.tend.toNat - s.tk.tpos.toNat)
    else rest * 1048576 + 1048575
  | .cPack => rest * 1048576 + 1 + (s.tk.scrLen.toNat - s.pk.ppos.toNat)
  | .dReadHeader => rest * (s.cur.cap.toNat + 4) + 2
  | .dDecode => (rest - 1) * (s.cur.cap.toNat + 4) + (s.cur.cap.toNat - s.cur.outPos.toNat) + 3

/-- Whether a byte address lies in the output buffer [dst, dst + cap) of the latched command (R88). -/
def InOutput (s : State) (a : Word) : Prop :=
  s.cur.dst.toNat ≤ a.toNat ∧ a.toNat < s.cur.dst.toNat + s.cur.cap.toNat

/-- Whether a byte address lies in what a command wrote that has ended since the host last read STATUS with BUSY = 0 (R95;
log entry 28). -/
def Unseen (s : State) (a : Word) : Prop := ∃ r ∈ s.unseen, r.1 ≤ a.toNat ∧ a.toNat < r.1 + r.2

/-- Whether R95 leaves open what the host reads at a byte: an output byte of the running command, a byte to synchronise with,
or a contested one (log entries 9, 28 and 29). -/
def HostViewOpen (s : State) (a : Word) : Prop :=
  (s.busy = true ∧ InOutput s a) ∨ Unseen s a ∨ a.toNat ∈ s.contested

/-- Whether a byte address lies in the input buffer [src, src + slen) of the latched command (R88). -/
def InInput (s : State) (a : Word) : Prop :=
  s.cur.src.toNat ≤ a.toNat ∧ a.toNat < s.cur.src.toNat + s.cur.slen.toNat

/-- The word a flush completes: ((acc << k) | (v >> (n - k)))[15:0] with k = 16 - nacc (R162). -/
def flushedWord (s : State) (v n : Nat) : Nat :=
  (s.wr.acc.toNat <<< (16 - s.wr.nacc.toNat) ||| v >>> (n - (16 - s.wr.nacc.toNat))) % 65536

/-- The effect of WriteBits(v, n) on a writer with room (R162). -/
def WroteBits (s : State) (v n : Nat) (t : State) : Prop :=
  if s.wr.nacc.toNat + n ≤ 16 then
    t = { s with
      wr := { s.wr with
        acc := BitVec.ofNat 16 (s.wr.acc.toNat <<< n ||| v)
        nacc := BitVec.ofNat 5 (s.wr.nacc.toNat + n) } }
  else
    t = { s with
      mem := t.mem
      wr := {
        acc := BitVec.ofNat 16 (v % 2 ^ (n - (16 - s.wr.nacc.toNat)))
        nacc := BitVec.ofNat 5 (n - (16 - s.wr.nacc.toNat))
        slot0 := s.wr.slot1
        slot1 := s.wr.rawpos
        rawpos := BitVec.ofNat 33 (s.wr.rawpos.toNat + 2) } } ∧
      t.outByte s.wr.slot0.toNat = BitVec.ofNat 8 (flushedWord s v n) ∧
      t.outByte (s.wr.slot0.toNat + 1) = BitVec.ofNat 8 (flushedWord s v n / 256) ∧
      ∀ a, a ≠ s.outAddr s.wr.slot0.toNat → a ≠ s.outAddr (s.wr.slot0.toNat + 1) → t.readByte a = s.readByte a

/-- The effect of the packer's extension bytes for L = `l` on a writer with room (R119, R163, R214). -/
def WroteExtension (s : State) (l : Nat) (t : State) : Prop :=
  let bs := encode (wireLength l).instr
  t = { s with
    mem := t.mem
    wr := { s.wr with rawpos := BitVec.ofNat 33 (s.wr.rawpos.toNat + bs.length) } } ∧
    (∀ j < bs.length, t.outByte (s.wr.rawpos.toNat + j) = bs.getD j 0) ∧
    ∀ a, (∀ j < bs.length, a ≠ s.outAddr (s.wr.rawpos.toNat + j)) → t.readByte a = s.readByte a

/-- The effect of packing a match of raw offset `off` and L = `l` on a writer with room (R214): codeword, extension
bytes, residual bits, in that order. -/
def PackedMatch (s : State) (off l : Nat) (t : State) : Prop :=
  ∃ s1 s2, WroteBits s (codeOf s.len (symOfMatch off l)) (lenOf s.len (symOfMatch off l)) s1 ∧
    WroteExtension s1 l s2 ∧
    if highbit off = 0 then t = s2 else WroteBits s2 (off - 2 ^ highbit off) (highbit off) t

/-- The effect of appending a token's bytes `bs` to the intermediate stream of `t`, in which OpenToken has marked it, of
counting symbol `sym` and of advancing the cursor by `n` (R203 to R205). -/
def AppendedToken (t : State) (bs : List Byte) (sym n : Nat) (u : State) : Prop :=
  u = { t with
    scr := u.scr
    cnt := u.cnt
    tk := { t.tk with
      scrLen := BitVec.ofNat 18 (t.tk.scrLen.toNat + bs.length)
      tpos := BitVec.ofNat 33 (t.tk.tpos.toNat + n) } } ∧
    (∀ j < bs.length, u.scrByte (t.tk.scrLen.toNat + j) = bs.getD j 0) ∧
    (∀ i, i < t.tk.scrLen.toNat ∨ t.tk.scrLen.toNat + bs.length ≤ i → u.scrByte i = t.scrByte i) ∧
    ∀ k, u.cnt.getD k 0 = if k = sym ∧ k < t.cnt.length then t.cnt.getD k 0 + 1 else t.cnt.getD k 0

/-- How many bytes past rawpos WriteBits(·, n) needs when `nacc` bits are pending (R162). -/
def bitsNeed (nacc n : Nat) : Nat := if nacc + n ≤ 16 then 0 else 2

/-- The pending bits after WriteBits(·, n) with `nacc` pending (R162). -/
def naccAfter (nacc n : Nat) : Nat := if nacc + n ≤ 16 then nacc + n else n - (16 - nacc)

/-- How many bytes past rawpos packing a match needs (R162, R163, R214). -/
def packNeed (s : State) (off l : Nat) : Nat :=
  let n := lenOf s.len (symOfMatch off l)
  bitsNeed s.wr.nacc.toNat n + (wireLength l).size + bitsNeed (naccAfter s.wr.nacc.toNat n) (highbit off)

/-- The effect of a match of `len` bytes at distance `off` once its length form is read, with O = `o` (R259, R263): the
residual is skipped, each output byte equals the one `off` before it, and no other byte changes. -/
def CopiedMatch (s : State) (off len o : Nat) (t : State) : Prop :=
  t = { s with
    mem := t.mem
    cur := { s.cur with outPos := BitVec.ofNat 33 (s.cur.outPos.toNat + len) }
    rd := skipped o s
    mt := t.mt } ∧
    t.mt.await = false ∧
    (∀ i < len, t.outByte (s.cur.outPos.toNat + i) = t.outByte (s.cur.outPos.toNat + i - off)) ∧
    ∀ a, (∀ i < len, a ≠ s.outAddr (s.cur.outPos.toNat + i)) → t.readByte a = s.readByte a

/-- The raw offset and L of a match token; the EOS token reads as offset 0 and L = 0 (R122, R123). -/
def matchFields : Instr → Option (Nat × Nat)
  | .itokMatchL8 off l => some (off.toNat, l.toNat)
  | .itokMatchL16 off w => some (off.toNat, w.toNat)
  | .itokMatchL32 off x => some (off.toNat, x.toNat)
  | .itokEos => some (0, 0)
  | .cmdNop => none
  | .compress => none
  | .decompress => none
  | .cmdIllegal _ => none
  | .symLit _ => none
  | .symEos => none
  | .symMatch _ _ => none
  | .lenNibble _ => none
  | .lenExt8 _ => none
  | .lenExt16 _ => none
  | .lenExt32 _ => none
  | .itokGroup _ => none
  | .itokLit _ => none

/-- What an error leaves (R99, R310): the window and the phase as completion says, no match half assembled, the host's
side and the parameters as they were but for the output buffer to synchronise with (R95; log entry 28), and every byte
outside the output buffer as it was; the datapath's registers may hold anything. -/
def FailedWith (code : BitVec 4) (s t : State) : Prop :=
  t.phase = .idle ∧ t.mt.await = false ∧ t.par = s.par ∧ t.host = s.host ∧ t.reads = s.reads ∧
    t.unseen = (s.cur.dst.toNat, s.cur.cap.toNat) :: s.unseen ∧ t.contested = s.contested ∧
    t.win = { s.win with result := 0, inConsumed := 0, error := code, status := statusErr s.win.status } ∧
    ∀ a, ¬InOutput s a → t.readByte a = s.readByte a

end Sys2Proof.Machine
end

