-- ==== Sys2Proof/Certificates/Slice0/Obligations.lean ====
section
/-! DEFINITION. The statements for the provers, each formalising the rules of spec/ its docstring names. -/

open Sys2Proof Sys2Proof.Machine

/-! ### Encodings -/

/-- Decoding the bytes of a well-formed instruction gives it back with every operand, and leaves the bytes after it
(30_encoding R114, R118, R120 to R124). -/
def Obligations.DecodeOfEncodeGivesInstruction : Prop :=
  ∀ (i : Instr) (rest : List Byte), i.wellFormed = true → decode i.format (encode i ++ rest) = .ok (i, rest)

/-- Whatever the decoder answers is well-formed, and the bytes it took are that instruction's encoding: each bit of an
accepted word has one meaning (30_encoding R114, R118, R120 to R124). -/
def Obligations.DecodedBytesAreItsEncoding : Prop :=
  ∀ (f : Format) (bs : List Byte) (i : Instr) (rest : List Byte),
    decode f bs = .ok (i, rest) → i.wellFormed = true ∧ bs = encode i ++ rest

/-- A few words written out from the spec's encodings, one per format. -/
def Obligations.SampleWordsDecode : Prop :=
  decode .cmd [0x01#8, 0x00#8, 0x00#8, 0x00#8] = .ok (.compress, []) ∧
    decode (.sym false) [0x13#8, 0x01#8] = .ok (.symMatch 1#4 3#4, []) ∧
    decode (.len 15#4) [0xFF#8, 0x0D#8, 0x01#8] = .ok (.lenExt16 269#16, []) ∧
    decode .mat [0x03#8, 0x00#8, 0x03#8] = .ok (.itokMatchL8 3#16 3#8, [])

/-- A symbol names its class (R114): below 0x100 a literal of that byte; from 0x100 on a match with O = s[7:4] and
N = s[3:0]; 0x100 with a zero buffer is the end of stream, and nothing else is (R116, R256, R257). -/
def Obligations.SymbolFieldsAreRead : Prop :=
  ∀ (s : Sym) (z : Bool),
    (decodeSym s z = .symEos ↔ s = 0x100#9 ∧ z = true) ∧
      (s.toNat < 256 → decodeSym s z = .symLit (s.extractLsb' 0 8)) ∧
      (256 ≤ s.toNat → ¬(s = 0x100#9 ∧ z = true) →
        decodeSym s z = .symMatch (s.extractLsb' 4 4) (s.extractLsb' 0 4))

/-- The symbol of a match carries O = highbit(off) and N = min(15, L), and the offset is 2^O plus a residual of O bits
(R115, R117). -/
def Obligations.MatchSymbolCarriesItsClass : Prop :=
  ∀ off l : Nat, 1 ≤ off → off ≤ 65535 →
    decodeSym (BitVec.ofNat 9 (symOfMatch off l)) false =
        .symMatch (BitVec.ofNat 4 (highbit off)) (BitVec.ofNat 4 (min 15 l)) ∧
      highbit off ≤ 15 ∧ off = 2 ^ highbit off + residualOf off ∧ residualOf off < 2 ^ highbit off

/-- The length field of the wire (R119): no byte below 15, one byte L - 15 up to 253, then 0xFF and L in 16 bits, then
0xFF, 0x0000 and L in 32 bits; and in every tier the decoder reads back the L the packer wrote (R118). -/
def Obligations.WireLengthReadsBack : Prop :=
  ∀ (l : Nat) (rest : List Byte), l < 4294967296 →
    (l < 15 → encode (wireLength l).instr = []) ∧
      (15 ≤ l → l ≤ 268 → encode (wireLength l).instr = [BitVec.ofNat 8 (l - 15)]) ∧
      (269 ≤ l → l ≤ 65535 →
        encode (wireLength l).instr = [0xFF#8, BitVec.ofNat 8 l, BitVec.ofNat 8 (l / 256)]) ∧
      (65536 ≤ l →
        encode (wireLength l).instr = [0xFF#8, 0#8, 0#8, BitVec.ofNat 8 l, BitVec.ofNat 8 (l / 256),
          BitVec.ofNat 8 (l / 65536), BitVec.ofNat 8 (l / 16777216)]) ∧
      decodeLength (BitVec.ofNat 4 (min 15 l)) (encode (wireLength l).instr ++ rest) = .ok (wireLength l, rest) ∧
      lengthValue (wireLength l) = some l

/-- The code-length table (R113): byte i holds len[2i] in its low nibble and len[2i+1] in its high one, read and
written alike. -/
def Obligations.LengthTableNibbles : Prop :=
  ∀ bs : List Byte,
    (tableOfBytes bs).length = 2 * bs.length ∧
      (∀ i, i < bs.length → (tableOfBytes bs).getD (2 * i) 0 = (bs.getD i 0).extractLsb' 0 4 ∧
        (tableOfBytes bs).getD (2 * i + 1) 0 = (bs.getD i 0).extractLsb' 4 4) ∧
      tableToBytes (tableOfBytes bs) = bs

/-! ### The canonical code -/

/-- In a valid table every codeword fits in its length, and no codeword is a prefix of another symbol's (R180, R181). -/
def Obligations.CanonicalCodeIsPrefixFree : Prop :=
  ∀ len : List (BitVec 4), tableValid len = true →
    ∀ s, lenOf len s ≠ 0 → codeOf len s < 2 ^ lenOf len s ∧
      ∀ r, r ≠ s → lenOf len r ≠ 0 → lenOf len s ≤ lenOf len r →
        codeOf len r / 2 ^ (lenOf len r - lenOf len s) ≠ codeOf len s

/-- Codewords are assigned by increasing length, then by increasing symbol value (R181): the first codeword of length 1 is
0, the first of each further length is twice the number after the last of the length before, and within one length a
symbol's codeword is the first one plus the number of smaller symbols of that length. -/
def Obligations.CodewordsAscendWithinALength : Prop :=
  ∀ len : List (BitVec 4), tableValid len = true →
    firstCode len 1 = 0 ∧
      (∀ b, 1 ≤ b → firstCode len (b + 1) = (firstCode len b + len.countP (fun l => l.toNat == b)) * 2) ∧
      ∀ s, lenOf len s ≠ 0 →
        codeOf len s = firstCode len (lenOf len s) + (len.take s).countP (fun l => l.toNat == lenOf len s)

/-- Decode() answers exactly the symbol whose codeword heads the buffered bits, and skips that codeword; it fails with
InvalidData where no codeword does (R183). With a valid table a symbol whose codeword heads them is always found. -/
def Obligations.DecodeFindsExactlyTheCodeword : Prop :=
  ∀ s : State,
    (∀ sym, tableValid s.len = true → lenOf s.len sym ≠ 0 → lenOf s.len sym ≤ s.rd.nbits.toNat →
      peek (lenOf s.len sym) s = codeOf s.len sym → decodeNext s = .ok sym (skip (lenOf s.len sym) s)) ∧
      (∀ sym t, decodeNext s = .ok sym t →
        1 ≤ lenOf s.len sym ∧ lenOf s.len sym ≤ s.rd.nbits.toNat ∧ peek (lenOf s.len sym) s = codeOf s.len sym ∧
          t = skip (lenOf s.len sym) s) ∧
      (∀ e t, decodeNext s = .raise e t → e = .invalidData ∧ t = s ∧
        ∀ sym, 1 ≤ lenOf s.len sym → lenOf s.len sym ≤ s.rd.nbits.toNat →
          peek (lenOf s.len sym) s ≠ codeOf s.len sym)

/-! ### The bit coder -/

/-- WriteBits(v, n) (R162): the bits are appended; a word is flushed to slot0 only when a bit beyond its 16th arrives,
after a capacity check that raises InsufficientBuffer with nothing written. -/
def Obligations.WriteBitsFlushesBeyondSixteen : Prop :=
  ∀ (v n : Nat) (s : State),
    (16 < s.wr.nacc.toNat + n → s.cur.cap.toNat < s.wr.rawpos.toNat + 2 →
      writeBits v n s = .raise .insufficientBuffer s) ∧
      (s.wr.nacc.toNat + n ≤ 16 ∨ s.wr.rawpos.toNat + 2 ≤ s.cur.cap.toNat →
        ∃ t, writeBits v n s = .ok () t ∧ WroteBits s v n t)

/-- WriteRaw(v, m) (R163): m little-endian bytes at rawpos, after a capacity check that raises InsufficientBuffer with
nothing written; acc, nacc and the slots are not touched. -/
def Obligations.WriteRawPlacesBytesAtRawpos : Prop :=
  ∀ (v m : Nat) (s : State), m = 1 ∨ m = 2 ∨ m = 4 →
    (s.cur.cap.toNat < s.wr.rawpos.toNat + m → writeRaw v m s = .raise .insufficientBuffer s) ∧
      (s.wr.rawpos.toNat + m ≤ s.cur.cap.toNat →
        ∃ t, writeRaw v m s = .ok () t ∧
          t = { s with
            mem := t.mem, wr := { s.wr with rawpos := BitVec.ofNat 33 (s.wr.rawpos.toNat + m) } } ∧
          (∀ j < m, t.outByte (s.wr.rawpos.toNat + j) = BitVec.ofNat 8 (v / 256 ^ j)) ∧
          ∀ a, (∀ j < m, a ≠ s.outAddr (s.wr.rawpos.toNat + j)) → t.readByte a = s.readByte a)

/-- Skip(n) (R173): the bits shift out; one little-endian word is fetched from rpos and placed under the remaining bits
exactly when fewer than 16 remain and 2 input bytes do. -/
def Obligations.SkipRefillsBelowSixteen : Prop :=
  ∀ (n : Nat) (s : State), n ≤ 16 → n ≤ s.rd.nbits.toNat →
    (s.rd.nbits.toNat - n < 16 → s.rd.rpos.toNat + 2 ≤ s.cur.slen.toNat →
      skip n s = { s with
        rd := {
          buf := s.rd.buf <<< n ||| BitVec.ofNat 32
            (((s.inByte s.rd.rpos.toNat).toNat + 256 * (s.inByte (s.rd.rpos.toNat + 1)).toNat) <<<
              (16 - (s.rd.nbits.toNat - n)))
          nbits := BitVec.ofNat 6 (s.rd.nbits.toNat - n + 16)
          rpos := BitVec.ofNat 33 (s.rd.rpos.toNat + 2) } }) ∧
      (16 ≤ s.rd.nbits.toNat - n ∨ s.cur.slen.toNat < s.rd.rpos.toNat + 2 →
        skip n s = { s with rd := { s.rd with buf := s.rd.buf <<< n, nbits := BitVec.ofNat 6 (s.rd.nbits.toNat - n) } })

/-- Finish() (R164): the pending bits, left-aligned, go to slot0 and zero to slot1; nothing else is written and no
register changes, so rawpos is the end offset. The premise is an invariant of C_PACK (StepKeepsCursors). -/
def Obligations.FinishFillsBothSlots : Prop :=
  ∀ s : State, WriterInv s →
    finishWriter s = { s with mem := (finishWriter s).mem } ∧
      (finishWriter s).outByte s.wr.slot0.toNat = BitVec.ofNat 8 (s.wr.acc.toNat <<< (16 - s.wr.nacc.toNat)) ∧
      (finishWriter s).outByte (s.wr.slot0.toNat + 1) =
        BitVec.ofNat 8 ((s.wr.acc.toNat <<< (16 - s.wr.nacc.toNat)) / 256) ∧
      (finishWriter s).outByte s.wr.slot1.toNat = 0 ∧
      (finishWriter s).outByte (s.wr.slot1.toNat + 1) = 0 ∧
      ∀ a, a ≠ s.outAddr s.wr.slot0.toNat → a ≠ s.outAddr (s.wr.slot0.toNat + 1) → a ≠ s.outAddr s.wr.slot1.toNat →
        a ≠ s.outAddr (s.wr.slot1.toNat + 1) → (finishWriter s).readByte a = s.readByte a

/-! ### Commands -/

/-- A store of v to CMD, by the value and BUSY (R319): ignored while BUSY and for 0; 1 and 2 start their command; any
other value is the illegal command. -/
def Obligations.CommandStoreDispatches : Prop :=
  ∀ (o : Config.Oracles) (s : State) (v : Word) (rest : List HostOp),
    s.host = .regStore s.par.xhBase 4 v :: rest →
    stepWith o s =
      if s.busy then .next { s with host := rest }
      else if v = 0#32 then .next { s with host := rest }
      else if v = 1#32 then exec .compress { s with host := rest }
      else if v = 2#32 then exec .decompress { s with host := rest }
      else exec (.cmdIllegal v) { s with host := rest }

/-- The stores to CMD that change nothing (R319, R32): CMD_NOP in every state, and any command word while BUSY = 1. -/
def Obligations.IgnoredCommandsChangeNothing : Prop :=
  ∀ s : State, exec .cmdNop s = .next s ∧
    (s.busy = true → exec .compress s = .next s ∧ exec .decompress s = .next s ∧
      ∀ v : Word, exec (.cmdIllegal v) s = .next s)

/-- COMPRESS with BUSY = 0 and buffers that neither wrap nor overlap is accepted in the step of the store (R200's accept
lines, R319, R46, R90): the four operands are latched, every other cursor and the results cleared, DONE and ERR cleared
and BUSY set, and every host write so far is visible to the command, so none is contested any more (R95; the list
`contested` is the model's, log entry 29). R225's first choice falls in the same step, so that the phase leaves IDLE as BUSY is set (R45): that is the model's
reading (log entry 15), R200 lists the choice under run. The empty input goes to C_EMPTY, any other to C_TOKENIZE with a
chunk of at most 65536 bytes, final exactly when it is shorter, its capacity check still to come (`chunkOpen`, log entry
16). -/
def Obligations.CompressIsAccepted : Prop :=
  ∀ s : State, s.busy = false → s.launchOk = true →
    ∃ t, exec .compress s = .next t ∧
      t = { s with
        win := { s.win with status := 1, result := 0, error := 0, inConsumed := 0 }
        cur := { s.cur with
          op := .compress, src := s.win.srcAddr, slen := s.win.srcLen, dst := s.win.dstAddr, cap := s.win.dstCap,
          inPos := 0, outPos := 0, chunkOutStart := 0, chunkLen := t.cur.chunkLen, finalChunk := t.cur.finalChunk,
          eosSeen := false }
        phase := t.phase
        chunkOpen := t.chunkOpen
        mt := { s.mt with await := false }
        contested := [] } ∧
      (s.win.srcLen = 0 → t.phase = .cEmpty ∧ t.cur.chunkLen = 0 ∧ t.cur.finalChunk = false) ∧
      (s.win.srcLen ≠ 0 → t.phase = .cTokenize ∧ t.chunkOpen = false ∧
        t.cur.chunkLen.toNat = min 65536 s.win.srcLen.toNat ∧
        (t.cur.finalChunk = true ↔ s.win.srcLen.toNat < 65536))

/-- DECOMPRESS with BUSY = 0 and buffers that neither wrap nor overlap is accepted in the step of the store (R250's accept
lines, R319, R46, R90): as COMPRESS. That the same step already enters D_READ_HEADER, so that the phase leaves IDLE as BUSY
is set (R45), is the model's reading (log entry 15): R250 and R270 list it under run. The list `contested` is the model's
(R95; log entry 29). -/
def Obligations.DecompressIsAccepted : Prop :=
  ∀ s : State, s.busy = false → s.launchOk = true →
    exec .decompress s = .next { s with
      win := { s.win with status := 1, result := 0, error := 0, inConsumed := 0 }
      cur := { s.cur with
        op := .decompress, src := s.win.srcAddr, slen := s.win.srcLen, dst := s.win.dstAddr, cap := s.win.dstCap,
        inPos := 0, outPos := 0, chunkOutStart := 0, chunkLen := 0, finalChunk := false, eosSeen := false }
      phase := .dReadHeader
      mt := { s.mt with await := false }
      contested := [] }

/-- An illegal command with BUSY = 0 completes at once (R304): ERR and ILLEGAL_COMMAND, zero results, BUSY 0 throughout,
the operand registers and memory unchanged. -/
def Obligations.IllegalCommandCompletesAtOnce : Prop :=
  ∀ (s : State) (v : Word), s.busy = false →
    exec (.cmdIllegal v) s =
      .next { s with win := { s.win with status := 4, result := 0, inConsumed := 0, error := 4 } }

/-- A launch is refused exactly when a buffer wraps past 2^32 - 1 or the two share a byte (R90, R353). -/
def Obligations.BadBuffersAreRefused : Prop :=
  ∀ s : State, s.busy = false →
    ((4294967296 < s.win.srcAddr.toNat + s.win.srcLen.toNat ∨
        4294967296 < s.win.dstAddr.toNat + s.win.dstCap.toNat ∨
        ∃ a : Nat, s.win.srcAddr.toNat ≤ a ∧ a < s.win.srcAddr.toNat + s.win.srcLen.toNat ∧
          s.win.dstAddr.toNat ≤ a ∧ a < s.win.dstAddr.toNat + s.win.dstCap.toNat) →
      exec .compress s = .refused .badBuffers ∧ exec .decompress s = .refused .badBuffers) ∧
      (¬(4294967296 < s.win.srcAddr.toNat + s.win.srcLen.toNat ∨
        4294967296 < s.win.dstAddr.toNat + s.win.dstCap.toNat ∨
        ∃ a : Nat, s.win.srcAddr.toNat ≤ a ∧ a < s.win.srcAddr.toNat + s.win.srcLen.toNat ∧
          s.win.dstAddr.toNat ≤ a ∧ a < s.win.dstAddr.toNat + s.win.dstCap.toNat) →
        (∃ t, exec .compress s = .next t) ∧ ∃ t, exec .decompress s = .next t)

/-! ### The register window -/

/-- What a load of each window offset returns, and that a load changes nothing else (R32 to R41, R351), but that a load of
STATUS with BUSY = 0 synchronises the host with every engine write so far (R95; the list `unseen` is the model's, log entry
28). -/
def Obligations.RegisterLoadsReadTheWindow : Prop :=
  ∀ (o : Config.Oracles) (s : State) (addr : Word) (off : Nat) (rest : List HostOp),
    addr.toNat = s.par.xhBase.toNat + off → off < 64 → off % 4 = 0 → s.host = .regLoad addr 4 :: rest →
    stepWith o s = .next { s with
      host := rest
      reads :=
        (if off = 0x04 then s.win.status.setWidth 32
          else if off = 0x08 then s.win.srcAddr
          else if off = 0x0C then s.win.srcLen
          else if off = 0x10 then s.win.dstAddr
          else if off = 0x14 then s.win.dstCap
          else if off = 0x18 then s.win.result
          else if off = 0x1C then s.win.error.setWidth 32
          else if off = 0x20 then s.win.inConsumed
          else 0) :: s.reads
      unseen := if off = 0x04 ∧ s.busy = false then [] else s.unseen }

/-- Register stores while BUSY = 1 are ignored, CMD's too, whatever the register and the value (R350). -/
def Obligations.RegisterStoresWhileBusyAreIgnored : Prop :=
  ∀ (o : Config.Oracles) (s : State) (addr : Word) (off : Nat) (v : Word) (rest : List HostOp),
    s.busy = true → addr.toNat = s.par.xhBase.toNat + off → off < 64 → off % 4 = 0 →
    s.host = .regStore addr 4 v :: rest → stepWith o s = .next { s with host := rest }

/-- The operand registers take all 32 bits of a store with BUSY = 0, and nothing else changes (R34 to R37). -/
def Obligations.OperandRegistersAreWritten : Prop :=
  ∀ (o : Config.Oracles) (s : State) (addr : Word) (off : Nat) (v : Word) (rest : List HostOp),
    s.busy = false → addr.toNat = s.par.xhBase.toNat + off → s.host = .regStore addr 4 v :: rest →
    (off = 0x08 → stepWith o s = .next { s with host := rest, win := { s.win with srcAddr := v } }) ∧
      (off = 0x0C → stepWith o s = .next { s with host := rest, win := { s.win with srcLen := v } }) ∧
      (off = 0x10 → stepWith o s = .next { s with host := rest, win := { s.win with dstAddr := v } }) ∧
      (off = 0x14 → stepWith o s = .next { s with host := rest, win := { s.win with dstCap := v } })

/-- A store to STATUS with BUSY = 0 clears DONE and ERR where it has a 1, keeps them where it has a 0, and keeps BUSY
(R33). -/
def Obligations.StatusStoreClearsDoneAndErr : Prop :=
  ∀ (o : Config.Oracles) (s : State) (addr v : Word) (rest : List HostOp),
    s.busy = false → addr.toNat = s.par.xhBase.toNat + 4 → s.host = .regStore addr 4 v :: rest →
    ∃ t, stepWith o s = .next t ∧
      t = { s with host := rest, win := { s.win with status := t.win.status } } ∧
      t.busy = false ∧ t.done = (s.done && !v.getLsbD 1) ∧ t.err = (s.err && !v.getLsbD 2)

/-- The reserved offsets 0x24 to 0x3C read 0 and ignore stores (R41); RESULT, ERROR and IN_CONSUMED ignore stores (R38 to
R40), at any time. -/
def Obligations.ReadOnlyAndReservedStoresAreIgnored : Prop :=
  ∀ (o : Config.Oracles) (s : State) (addr : Word) (off : Nat) (v : Word) (rest : List HostOp),
    addr.toNat = s.par.xhBase.toNat + off → 0x18 ≤ off → off ≤ 0x3C → off % 4 = 0 →
    (s.host = .regStore addr 4 v :: rest → stepWith o s = .next { s with host := rest }) ∧
      (s.host = .regLoad addr 4 :: rest → 0x24 ≤ off →
        stepWith o s = .next { s with host := rest, reads := 0 :: s.reads })

/-- A register access inside the window that is not an aligned 32-bit one is refused, load and store alike (R86). -/
def Obligations.MisshapenRegisterAccessIsRefused : Prop :=
  ∀ (o : Config.Oracles) (s : State) (addr : Word) (off width : Nat) (v : Word) (rest : List HostOp),
    addr.toNat = s.par.xhBase.toNat + off → off < 64 → width ≠ 4 ∨ off % 4 ≠ 0 →
    (s.host = .regLoad addr width :: rest → stepWith o s = .refused .badRegisterAccess) ∧
      (s.host = .regStore addr width v :: rest → stepWith o s = .refused .badRegisterAccess)

/-! ### Completion, reset and the host's memory accesses -/

/-- Completion (R310): on success RESULT, IN_CONSUMED, ERROR = 0 and DONE; on an error zero results, the code and ERR;
phase IDLE and BUSY = 0 either way. Stated for a running command, whose STATUS is BUSY alone. Phase D_END_OF_STREAM is
that success (R271). That the latched command registers and the rest of the state keep their values on success is the
model's choice (log entry 27): R310 makes those registers don't-care. The host has yet to synchronise with [dst, dst +
out_pos) on success and with the whole buffer on an error (R95; the list `unseen` is the model's, log entry 28). -/
def Obligations.CompletionSetsTheWindow : Prop :=
  ∀ (o : Config.Oracles) (s : State), s.win.status = 1 →
    completeOk s = { s with
      win := { s.win with
        result := s.cur.outPos.setWidth 32
        inConsumed := if s.cur.op = .compress then s.cur.slen else s.cur.inPos.setWidth 32
        error := 0
        status := 2 }
      phase := .idle
      unseen := (s.cur.dst.toNat, s.cur.outPos.toNat) :: s.unseen } ∧
      (s.phase = .dEndOfStream → engineStep o s = .next (completeOk s)) ∧
      ∀ e : Err, (completeErr e s).phase = .idle ∧
        (completeErr e s).unseen = (s.cur.dst.toNat, s.cur.cap.toNat) :: s.unseen ∧
        (completeErr e s).win = { s.win with
          result := 0
          inConsumed := 0
          error := match e with
            | .insufficientBuffer => 1
            | .invalidData => 2
            | .invalidState => 3
          status := 4 }

/-- After an error no byte of [dst, dst + cap) has a value a claim may rely on, and every byte outside that range is as it
was (R99). That such a byte is a fresh free value, one that the byte has not had before, is the model's form of it (log
entry 7). -/
def Obligations.ErrorLeavesOutputUnspecified : Prop :=
  ∀ (e : Err) (s : State) (a : Word),
    (InOutput s a → (completeErr e s).mem.find a.toNat = none ∧
      lostCount (completeErr e s).lost a.toNat = lostCount s.lost a.toNat + 1) ∧
      (¬InOutput s a → (completeErr e s).readByte a = s.readByte a)

/-- Reset (R340, R342): every register of the window 0 and the phase IDLE, from any state; no byte of system memory
changes when BUSY = 0; when BUSY = 1 each byte of the output buffer becomes a fresh free value (the model's form of
unspecified, log entry 7) and no other byte changes. Reset is no STATUS read and no CMD store: what the host has
yet to synchronise with stays, the abandoned command's output buffer added (R95; log entries 28 and 29). -/
def Obligations.ResetClearsTheWindow : Prop :=
  ∀ (o : Config.Oracles) (s : State) (rest : List HostOp), s.host = .reset :: rest →
    ∃ t, stepWith o s = .next t ∧ t.phase = .idle ∧ t.win = ⟨0, 0, 0, 0, 0, 0, 0, 0⟩ ∧
      t.host = rest ∧ t.reads = s.reads ∧ t.par = s.par ∧
      t.unseen = (if s.busy then (s.cur.dst.toNat, s.cur.cap.toNat) :: s.unseen else s.unseen) ∧
      t.contested = s.contested ∧
      (∀ a, s.busy = true → InOutput s a → t.mem.find a.toNat = none ∧
        lostCount t.lost a.toNat = lostCount s.lost a.toNat + 1) ∧
      ∀ a, s.busy = false ∨ ¬InOutput s a → t.readByte a = s.readByte a

/-- The host's accesses to system memory. A write to a byte of a running command's input or output buffer is the fault
bufferRace (R97, R352: its effect is not defined; the stop is the model's choice, log entry 10). Any other write puts its
value into that byte, where the next command reads it, and changes no other byte (R95); it is contested exactly where it goes
over an engine write that no STATUS read with BUSY = 0 has synchronised yet (the model's list, log entry 29). A read returns
the byte, or a free value where R95 orders nothing: an output byte while BUSY = 1 (R351; log entry 9), a byte to synchronise
with (R346; log entry 28), a contested byte (log entry 29). -/
def Obligations.HostMemoryAccessesMeetTheEngine : Prop :=
  ∀ (o : Config.Oracles) (s : State) (a : Word) (v : Byte) (rest : List HostOp),
    (s.host = .memStore a v :: rest →
      (s.busy = true → InInput s a ∨ InOutput s a → stepWith o s = .fault .bufferRace) ∧
        (s.busy = false ∨ ¬(InInput s a ∨ InOutput s a) →
          ∃ t, stepWith o s = .next t ∧
            t = { s with host := rest, mem := t.mem, contested := t.contested } ∧ t.readByte a = v ∧
            (∀ x, x ≠ a → t.readByte x = s.readByte x) ∧
            (a.toNat ∈ t.contested ↔ Unseen s a) ∧
            ∀ k, k ≠ a.toNat → (k ∈ t.contested ↔ k ∈ s.contested))) ∧
      (s.host = .memLoad a :: rest →
        (¬HostViewOpen s a →
          stepWith o s = .next { s with host := rest, reads := (s.readByte a).setWidth 32 :: s.reads }) ∧
        (HostViewOpen s a →
          stepWith o s = .next { s with
            host := rest, reads := (Config.freeBusyRead s.reads.length).setWidth 32 :: s.reads }))

/-- Who moves (R30, R45, R346; the queue is the model's, log entry 1): the engine where the host has nothing to do or
gives way; a POLL gives way while BUSY = 1 and ends once BUSY = 0, having read STATUS, which synchronises (R95; log entry
28); IDLE is left alone (R325). -/
def Obligations.HostScheduleDrivesEngine : Prop :=
  ∀ (o : Config.Oracles) (s : State) (rest : List HostOp),
    (s.host = [] → stepWith o s = engineStep o s) ∧
      (s.host = .tick :: rest → stepWith o s = engineStep o { s with host := rest }) ∧
      (s.host = .poll :: rest → s.busy = true → stepWith o s = engineStep o s) ∧
      (s.host = .poll :: rest → s.busy = false → stepWith o s = .next { s with host := rest, unseen := [] }) ∧
      (s.phase = .idle → engineStep o s = .next s)

/-! ### A step runs the decoded instruction -/

/-- The step runs exec of the instruction it finds, in each place an instruction stands: a word stored to CMD (R319); the
next symbol of D_DECODE, its codeword skipped (R256); the length form of a match whose offset is held (R261; log entry
17); the group mask, match token or literal token of C_PACK, the packer's index and bit number past it (R212 to R214). That
a group's mask is read in a step of its own (R7 names a step for tokens only) and that the mask and the bit number are held
in registers between steps are the model's choices (log entries 16 and 18). -/
def Obligations.StepRunsTheDecodedInstruction : Prop :=
  ∀ (o : Config.Oracles) (s : State),
    (∀ v rest, s.host = .regStore s.par.xhBase 4 v :: rest → stepWith o s = exec (decodeCmd v) { s with host := rest }) ∧
      (∀ sym t, s.phase = .dDecode → s.mt.await = false → gate s = true → decodeNext s = .ok sym t →
        engineStep o s = exec (decodeSym (BitVec.ofNat 9 sym) (maskIsZero t)) t) ∧
      (∀ g t, s.phase = .dDecode → s.mt.await = true → fetchLength s.mt.n s = .ok g t →
        engineStep o s = exec g.instr t) ∧
      (∀ i r f, s.phase = .cPack → s.pk.ppos.toNat < s.tk.scrLen.toNat →
        f = (if 32 ≤ s.pk.pbit.toNat then .group
          else if s.pk.pmask.getLsbD s.pk.pbit.toNat then .mat else .lit) →
        decode f (tokenBytes s) = .ok (i, r) →
        engineStep o s = exec i { s with
          pk := { s.pk with
            ppos := BitVec.ofNat 18 (s.pk.ppos.toNat + (encode i).length)
            pbit := if 32 ≤ s.pk.pbit.toNat then s.pk.pbit else s.pk.pbit + 1 } })

/-! ### Symbols and length forms -/

/-- A literal (R258): with the output full it raises InsufficientBuffer; otherwise its byte is written at out_pos, which
advances by one, and nothing else changes. -/
def Obligations.LiteralWritesOneByte : Prop :=
  ∀ (b : Byte) (s : State),
    (s.cur.cap.toNat ≤ s.cur.outPos.toNat → ∃ t, exec (.symLit b) s = .next t ∧ FailedWith 1 s t) ∧
      (s.cur.outPos.toNat < s.cur.cap.toNat →
        ∃ t, exec (.symLit b) s = .next t ∧
          t = { s with
            mem := t.mem, cur := { s.cur with outPos := BitVec.ofNat 33 (s.cur.outPos.toNat + 1) } } ∧
          t.outByte s.cur.outPos.toNat = b ∧
          ∀ a, a ≠ s.outAddr s.cur.outPos.toNat → t.readByte a = s.readByte a)

/-- End of stream (R257, R266, R270): eos is set, the engine goes to D_END_OF_STREAM, in_pos advances to the reader's
position, and nothing else changes; no byte is written. -/
def Obligations.EndOfStreamEndsTheChunk : Prop :=
  ∀ s : State, s.cur.inPos.toNat ≤ s.rd.rpos.toNat →
    exec .symEos s = .next { s with cur := { s.cur with inPos := s.rd.rpos, eosSeen := true }, phase := .dEndOfStream }

/-- A match (R259 to R263) whose residual is buffered, whose offset 2^O + residual lies in the output, whose length form
is there with a legal L and whose L + 3 bytes fit: it copies them and nothing else changes. -/
def Obligations.MatchCopiesItsLength : Prop :=
  ∀ (o n : BitVec 4) (s : State) (g : LenForm) (r : List Byte) (l : Nat),
    o.toNat ≤ s.rd.nbits.toNat → 2 ^ o.toNat + peek o.toNat s ≤ s.cur.outPos.toNat →
    decodeLength n (lengthBytes s) = .ok (g, r) → lengthValue g = some l →
    s.cur.outPos.toNat + (l + 3) ≤ s.cur.cap.toNat →
    ∃ t, exec (.symMatch o n) s = .next t ∧
      CopiedMatch { s with rd := { s.rd with rpos := BitVec.ofNat 33 (s.rd.rpos.toNat + g.size) } }
        (2 ^ o.toNat + peek o.toNat s) (l + 3) o.toNat t

/-- The check order of a match (R264, R306): residual bits, then the lower bound, then the extension field, then the
capacity; the first that fails decides between InvalidData and InsufficientBuffer. -/
def Obligations.MatchFailsInCheckOrder : Prop :=
  ∀ (o n : BitVec 4) (s : State),
    (s.rd.nbits.toNat < o.toNat → ∃ t, exec (.symMatch o n) s = .next t ∧ FailedWith 2 s t) ∧
      (o.toNat ≤ s.rd.nbits.toNat → s.cur.outPos.toNat < 2 ^ o.toNat + peek o.toNat s →
        ∃ t, exec (.symMatch o n) s = .next t ∧ FailedWith 2 s t) ∧
      (o.toNat ≤ s.rd.nbits.toNat → 2 ^ o.toNat + peek o.toNat s ≤ s.cur.outPos.toNat →
        (∀ g r, decodeLength n (lengthBytes s) = .ok (g, r) → lengthValue g = none) →
        ∃ t, exec (.symMatch o n) s = .next t ∧ FailedWith 2 s t) ∧
      ∀ g r l, o.toNat ≤ s.rd.nbits.toNat → 2 ^ o.toNat + peek o.toNat s ≤ s.cur.outPos.toNat →
        decodeLength n (lengthBytes s) = .ok (g, r) → lengthValue g = some l →
        s.cur.cap.toNat < s.cur.outPos.toNat + (l + 3) →
        ∃ t, exec (.symMatch o n) s = .next t ∧ FailedWith 1 s t

/-- The length forms (R118, R261): with the offset held and room for the copy, LEN_NIBBLE copies N + 3 bytes, LEN_EXT8
15 + b + 3, LEN_EXT16 w + 3 and LEN_EXT32 x + 3, the last two for fields of at least 15. That a length form has a meaning of
its own, on an offset held in `mt`, is the model's choice (log entry 17): R251 performs a match in one step. -/
def Obligations.LengthFormsFinishTheMatch : Prop :=
  ∀ s : State, 1 ≤ s.mt.off.toNat → s.mt.off.toNat ≤ s.cur.outPos.toNat →
    (∀ n : BitVec 4, s.cur.outPos.toNat + (n.toNat + 3) ≤ s.cur.cap.toNat →
      ∃ t, exec (.lenNibble n) s = .next t ∧ CopiedMatch s s.mt.off.toNat (n.toNat + 3) s.mt.o.toNat t) ∧
      (∀ b : Byte, s.cur.outPos.toNat + (15 + b.toNat + 3) ≤ s.cur.cap.toNat →
        ∃ t, exec (.lenExt8 b) s = .next t ∧ CopiedMatch s s.mt.off.toNat (15 + b.toNat + 3) s.mt.o.toNat t) ∧
      (∀ w : Half, 15 ≤ w.toNat → s.cur.outPos.toNat + (w.toNat + 3) ≤ s.cur.cap.toNat →
        ∃ t, exec (.lenExt16 w) s = .next t ∧ CopiedMatch s s.mt.off.toNat (w.toNat + 3) s.mt.o.toNat t) ∧
      (∀ x : Word, 15 ≤ x.toNat → s.cur.outPos.toNat + (x.toNat + 3) ≤ s.cur.cap.toNat →
        ∃ t, exec (.lenExt32 x) s = .next t ∧ CopiedMatch s s.mt.off.toNat (x.toNat + 3) s.mt.o.toNat t)

/-- A 16-bit or 32-bit length field below 15 is InvalidData (R118, R125 (c)); a legal length that passes the capacity is
InsufficientBuffer in each of the four forms, compared without truncation (R262). That a length form has a meaning of its
own, on a match held in `mt`, is the model's choice (log entry 17). -/
def Obligations.BadLengthsAreRejected : Prop :=
  ∀ s : State,
    (∀ w : Half, w.toNat < 15 → ∃ t, exec (.lenExt16 w) s = .next t ∧ FailedWith 2 s t) ∧
      (∀ x : Word, x.toNat < 15 → ∃ t, exec (.lenExt32 x) s = .next t ∧ FailedWith 2 s t) ∧
      (∀ n : BitVec 4, s.cur.cap.toNat < s.cur.outPos.toNat + (n.toNat + 3) →
        ∃ t, exec (.lenNibble n) s = .next t ∧ FailedWith 1 s t) ∧
      (∀ b : Byte, s.cur.cap.toNat < s.cur.outPos.toNat + (15 + b.toNat + 3) →
        ∃ t, exec (.lenExt8 b) s = .next t ∧ FailedWith 1 s t) ∧
      (∀ w : Half, 15 ≤ w.toNat → s.cur.cap.toNat < s.cur.outPos.toNat + (w.toNat + 3) →
        ∃ t, exec (.lenExt16 w) s = .next t ∧ FailedWith 1 s t) ∧
      (∀ x : Word, 15 ≤ x.toNat → s.cur.cap.toNat < s.cur.outPos.toNat + (x.toNat + 3) →
        ∃ t, exec (.lenExt32 x) s = .next t ∧ FailedWith 1 s t)

/-! ### Headers and chunk ends -/

/-- ReadHeader (R252, R253): fewer than 260 remaining bytes, or an oversubscribed table, is InvalidData; otherwise the
512 lengths are the table's nibbles, the reader holds the payload's first two words, and D_DECODE begins. -/
def Obligations.HeaderLoadsTableAndReader : Prop :=
  ∀ (o : Config.Oracles) (s : State), s.phase = .dReadHeader → s.cur.inPos.toNat ≤ s.cur.slen.toNat →
    (s.cur.slen.toNat < s.cur.inPos.toNat + 260 → ∃ t, engineStep o s = .next t ∧ FailedWith 2 s t) ∧
      (s.cur.inPos.toNat + 260 ≤ s.cur.slen.toNat →
        2 ^ 15 < kraftSum (tableOfBytes (s.inBytes s.cur.inPos.toNat 256)) →
        ∃ t, engineStep o s = .next t ∧ FailedWith 2 s t) ∧
      (s.cur.inPos.toNat + 260 ≤ s.cur.slen.toNat →
        kraftSum (tableOfBytes (s.inBytes s.cur.inPos.toNat 256)) ≤ 2 ^ 15 →
        engineStep o s = .next { s with
          len := tableOfBytes (s.inBytes s.cur.inPos.toNat 256)
          rd := {
            buf := BitVec.ofNat 32
              (ofBytesLE (s.inBytes (s.cur.inPos.toNat + 256) 2) * 65536 +
                ofBytesLE (s.inBytes (s.cur.inPos.toNat + 258) 2))
            nbits := 32
            rpos := BitVec.ofNat 33 (s.cur.inPos.toNat + 260) }
          cur := { s.cur with chunkOutStart := s.cur.outPos, eosSeen := false }
          mt := { s.mt with await := false }
          phase := .dDecode })

/-- The gate (R255, R266): once 65536 bytes of the chunk are out and the buffer is zero, the step ends the chunk without
EOS and the next header is read from the reader's position; a symbol that cannot be decoded while the gate is true is
InvalidData (R256). -/
def Obligations.GateEndsTheChunk : Prop :=
  ∀ (o : Config.Oracles) (s : State), s.phase = .dDecode → s.mt.await = false →
    (65536 ≤ s.cur.outPos.toNat - s.cur.chunkOutStart.toNat → s.rd.buf = 0 → s.cur.inPos.toNat ≤ s.rd.rpos.toNat →
      engineStep o s = .next { s with cur := { s.cur with inPos := s.rd.rpos }, phase := .dReadHeader }) ∧
      (∀ e t, s.cur.outPos.toNat - s.cur.chunkOutStart.toNat < 65536 ∨ s.rd.buf ≠ 0 → decodeNext s = .raise e t →
        ∃ u, engineStep o s = .next u ∧ FailedWith 2 s u)

/-! ### The tokenizer and the chunk driver -/

/-- OpenToken(t) (R206): a full or missing group reserves a four-byte slot and starts with mask 0; the token's bit is set
for a match and clear for a literal; the slot holds the current mask; no other scratch byte changes. A slot past SCRATCH_BYTES raises InvalidState (R208). -/
def Obligations.OpenTokenMarksTheGroup : Prop :=
  ∀ (m : Bool) (s : State),
    (s.tk.gbit = 32 → s.tk.scrLen.toNat + 4 ≤ s.par.scratchBytes → s.tk.scrLen.toNat + 4 < 262144 →
      ∃ t, openToken m s = .ok () t ∧
        t.tk = { s.tk with
          gmaskAt := s.tk.scrLen
          scrLen := BitVec.ofNat 18 (s.tk.scrLen.toNat + 4)
          gmask := if m then 1 else 0
          gbit := 1 } ∧
        (∀ j < 4, t.scrByte (s.tk.scrLen.toNat + j) = if j = 0 ∧ m = true then 1 else 0) ∧
        (∀ i, i < s.tk.scrLen.toNat ∨ s.tk.scrLen.toNat + 4 ≤ i → t.scrByte i = s.scrByte i) ∧
        t = { s with tk := t.tk, scr := t.scr }) ∧
      (s.tk.gbit = 32 → s.par.scratchBytes < s.tk.scrLen.toNat + 4 → openToken m s = .raise .invalidState s) ∧
      (s.tk.gbit.toNat < 32 →
        ∃ t, openToken m s = .ok () t ∧
          t.tk = { s.tk with gmask := t.tk.gmask, gbit := s.tk.gbit + 1 } ∧
          (∀ k < 32, t.tk.gmask.getLsbD k = if k = s.tk.gbit.toNat then m else s.tk.gmask.getLsbD k) ∧
          (∀ j < 4, t.scrByte (s.tk.gmaskAt.toNat + j) = BitVec.ofNat 8 (t.tk.gmask.toNat / 256 ^ j)) ∧
          (∀ i, i < s.tk.gmaskAt.toNat ∨ s.tk.gmaskAt.toNat + 4 ≤ i → t.scrByte i = s.scrByte i) ∧
          t = { s with tk := t.tk, scr := t.scr })

/-- The match decision (R202): the answer is clamped to the chunk first; from 3 bytes on it is a match token, below
that the cursor's byte is a literal token. That an offset of a match source that breaks R201 is cut to its low 16 bits
is the model's choice (log entry 23): U14 claims no result for it. Of a match source that meets R201's contract a
match token's offset is from 1 to min(65535, tpos), is stored whole, and its bytes are those at the cursor; the
chunk's end inside the input is an invariant (StepKeepsCursors). -/
def Obligations.TokenizerClampsThenDecides : Prop :=
  ∀ (o : Config.Oracles) (s : State), s.phase = .cTokenize → s.chunkOpen = true →
    s.tk.tpos.toNat < s.tk.tend.toNat →
    let answer := o.matchSource s.input s.tk.tpos.toNat (s.tk.tend.toNat - s.tk.tpos.toNat)
    let m := min answer.1 (s.tk.tend.toNat - s.tk.tpos.toNat)
    (3 ≤ m → engineStep o s = settle (tokMatch (BitVec.ofNat 16 answer.2) m s)) ∧
      (3 ≤ m → MatchSourceContract o → s.tk.tend.toNat ≤ s.cur.slen.toNat →
        1 ≤ answer.2 ∧ answer.2 ≤ 65535 ∧ answer.2 ≤ s.tk.tpos.toNat ∧ (BitVec.ofNat 16 answer.2).toNat = answer.2 ∧
          ∀ i < m, s.inByte (s.tk.tpos.toNat - answer.2 + i) = s.inByte (s.tk.tpos.toNat + i)) ∧
      (m < 3 → engineStep o s = settle (tokLit (s.inByte s.tk.tpos.toNat) s))

/-- What the tokenizer appends once OpenToken has marked the token (R203 to R205, R122, R123): a literal is its byte,
counted under it; a match is its offset and L in the escalating form, counted under its match-class symbol; the EOS
token is three zero bytes, counted under 0x100. An append past SCRATCH_BYTES raises InvalidState (R208). -/
def Obligations.TokensAreAppended : Prop :=
  ∀ s t : State,
    (∀ b : Byte, openToken false s = .ok () t →
      (t.tk.scrLen.toNat + 1 ≤ t.par.scratchBytes →
        ∃ u, tokLit b s = .ok () u ∧ AppendedToken t [b] b.toNat 1 u) ∧
      (t.par.scratchBytes < t.tk.scrLen.toNat + 1 → tokLit b s = .raise .invalidState t)) ∧
      (∀ (off : Half) (n l : Nat) (bs : List Byte), openToken true s = .ok () t → 3 ≤ n → n ≤ 65536 → l = n - 3 →
        bs = (if l ≤ 253 then [BitVec.ofNat 8 off.toNat, BitVec.ofNat 8 (off.toNat / 256), BitVec.ofNat 8 l]
          else [BitVec.ofNat 8 off.toNat, BitVec.ofNat 8 (off.toNat / 256), 0xFF, BitVec.ofNat 8 l,
            BitVec.ofNat 8 (l / 256)]) →
        (t.tk.scrLen.toNat + bs.length ≤ t.par.scratchBytes →
          ∃ u, tokMatch off n s = .ok () u ∧ AppendedToken t bs (symOfMatch off.toNat l) n u) ∧
        (t.par.scratchBytes < t.tk.scrLen.toNat + bs.length → tokMatch off n s = .raise .invalidState t)) ∧
      (openToken true s = .ok () t →
        (t.tk.scrLen.toNat + 3 ≤ t.par.scratchBytes →
          ∃ u, tokEos s = .ok () u ∧ AppendedToken t [0, 0, 0] 0x100 0 u) ∧
        (t.par.scratchBytes < t.tk.scrLen.toNat + 3 → tokEos s = .raise .invalidState t))

/-- The end of a chunk's tokenizing (R207, R211, R212): after the EOS token of a final chunk, the code lengths are
HUFF_BUILD's answer for the chunk's counts, the 256 table bytes go to out_pos, the writer starts at the payload, and the
packer's walk at scratch index 0. Of a code builder that meets R210's contract the table is valid (R180) and every counted
symbol has a codeword. That all of this is one step of the engine is the model's choice (log entry 16): R7 gives a token a
step, and R207, R211 and R212 name none. -/
def Obligations.BlockHeaderIsWritten : Prop :=
  ∀ (o : Config.Oracles) (s u : State), s.phase = .cTokenize → s.chunkOpen = true →
    s.tk.tend.toNat ≤ s.tk.tpos.toNat → (if s.cur.finalChunk then tokEos s = .ok () u else u = s) →
    u.cur.outPos.toNat + 260 ≤ u.cur.cap.toNat →
    ∃ t, engineStep o s = .next t ∧
      t = { u with
        len := t.len
        mem := t.mem
        wr := ⟨0, 0, BitVec.ofNat 33 (u.cur.outPos.toNat + 256), BitVec.ofNat 33 (u.cur.outPos.toNat + 258),
          BitVec.ofNat 33 (u.cur.outPos.toNat + 260)⟩
        pk := { u.pk with ppos := 0, pbit := 32 }
        phase := .cPack } ∧
      t.len.length = 512 ∧ (∀ k < 512, t.len.getD k 0 = o.huffBuild u.cnt k) ∧
      (HuffBuildContract o → u.cnt.length = 512 →
        kraftSum t.len ≤ 2 ^ 15 ∧ ∀ k < 512, u.cnt.getD k 0 ≠ 0 → 1 ≤ lenOf t.len k) ∧
      (∀ i < 256, t.outByte (u.cur.outPos.toNat + i) =
        BitVec.ofNat 8 (lenOf t.len (2 * i) + 16 * lenOf t.len (2 * i + 1))) ∧
      ∀ a, (∀ i < 256, a ≠ u.outAddr (u.cur.outPos.toNat + i)) → t.readByte a = u.readByte a

/-- The capacity pre-check (R220) and the tokenizer's start (R207): with fewer than 260 bytes of capacity left a chunk
about to be tokenized raises InsufficientBuffer, and no byte outside the output buffer changes; otherwise the cursor and
its end are set, the intermediate stream is empty with no group open, and the 512 counts are 0. That the check falls inside
C_TOKENIZE, marked by `chunkOpen`, and in one step with the tokenizer's start, is the model's choice (log entry 16): R221
checks before phase <- C_TOKENIZE. -/
def Obligations.CapacityIsCheckedBeforeAChunk : Prop :=
  ∀ (o : Config.Oracles) (s : State), s.phase = .cTokenize → s.chunkOpen = false →
    (s.cur.cap.toNat < s.cur.outPos.toNat + 260 → ∃ t, engineStep o s = .next t ∧ FailedWith 1 s t) ∧
      (s.cur.outPos.toNat + 260 ≤ s.cur.cap.toNat →
        engineStep o s = .next { s with
          tk := { s.tk with
            tpos := s.cur.inPos
            tend := BitVec.ofNat 33 (s.cur.inPos.toNat + s.cur.chunkLen.toNat)
            scrLen := 0
            gbit := 32 }
          cnt := List.replicate 512 0
          chunkOpen := true })

/-- The empty block (R222): with fewer than 260 bytes of capacity left InsufficientBuffer; otherwise 260 bytes, all 0 but
byte 0x80, which is 1, then success with RESULT = out_pos + 260 (R220, R310), its bytes among those the host has yet
to synchronise with (R95; log entry 28). That the block and the completion are one step is the model's choice (log
entry 16), and so is that the latched command registers, which R310 makes don't-care, keep their values (log entry
27). -/
def Obligations.EmptyBlockIsWritten : Prop :=
  ∀ (o : Config.Oracles) (s : State), s.phase = .cEmpty → s.cur.op = .compress → s.win.status = 1 →
    (s.cur.cap.toNat < s.cur.outPos.toNat + 260 → ∃ t, engineStep o s = .next t ∧ FailedWith 1 s t) ∧
    (s.cur.outPos.toNat + 260 ≤ s.cur.cap.toNat →
    ∃ t, engineStep o s = .next t ∧
      (∀ i < 260, t.outByte (s.cur.outPos.toNat + i) = if i = 0x80 then 1 else 0) ∧
      (∀ a, (∀ i < 260, a ≠ s.outAddr (s.cur.outPos.toNat + i)) → t.readByte a = s.readByte a) ∧
      t = { s with
        mem := t.mem
        cur := { s.cur with outPos := BitVec.ofNat 33 (s.cur.outPos.toNat + 260) }
        win := { s.win with
          result := BitVec.ofNat 32 (s.cur.outPos.toNat + 260), inConsumed := s.cur.slen, error := 0, status := 2 }
        phase := .idle
        unseen := (s.cur.dst.toNat, s.cur.outPos.toNat + 260) :: s.unseen })

/-- The stream driver (R225, R221): a chunk whose intermediate stream is packed is finished, out_pos becomes the payload's
end and in_pos advances by the chunk; a final chunk then completes the command, and after any other the driver chooses
again: a full chunk without EOS while at least 65536 bytes remain, the empty block for a zero remainder, else a final
chunk of what remains. That Finish, the cursors' advance and the driver's next choice or the completion are one step is the
model's choice (log entry 16), and so is that completion keeps the latched command registers (log entry 27). -/
def Obligations.StreamDriverSplitsTheInput : Prop :=
  ∀ s : State,
    (∀ o : Config.Oracles, s.phase = .cPack → s.tk.scrLen.toNat ≤ s.pk.ppos.toNat →
      ∃ t, t = { finishWriter s with
          cur := { s.cur with
            outPos := s.wr.rawpos, inPos := BitVec.ofNat 33 (s.cur.inPos.toNat + s.cur.chunkLen.toNat) } } ∧
        engineStep o s = .next (if s.cur.finalChunk then completeOk t else nextChunk t)) ∧
    (s.cur.inPos.toNat ≤ s.cur.slen.toNat →
    (65536 ≤ s.cur.slen.toNat - s.cur.inPos.toNat →
      nextChunk s = { s with
        cur := { s.cur with chunkLen := 65536, finalChunk := false }, phase := .cTokenize, chunkOpen := false }) ∧
      (s.cur.inPos.toNat = s.cur.slen.toNat → nextChunk s = { s with phase := .cEmpty }) ∧
      (0 < s.cur.slen.toNat - s.cur.inPos.toNat → s.cur.slen.toNat - s.cur.inPos.toNat < 65536 →
        ∃ t, nextChunk s = t ∧ t.cur.chunkLen.toNat = s.cur.slen.toNat - s.cur.inPos.toNat ∧
          t = { s with
            cur := { s.cur with chunkLen := t.cur.chunkLen, finalChunk := true }, phase := .cTokenize,
            chunkOpen := false }))

/-! ### Packing tokens -/

/-- A group mask is held and its bit 0 is next; nothing else changes (R120, R212). The registers `pmask` and `pbit`,
which hold R212's local M and k, are the model's own (log entry 18), and so is that the mask is read in a step of its
own (log entry 16). -/
def Obligations.GroupMaskIsHeld : Prop :=
  ∀ (m : Word) (s : State), exec (.itokGroup m) s = .next { s with pk := { s.pk with pmask := m, pbit := 0 } }

/-- PackLit (R213): with a codeword for the byte and room for a flush where one is due, the codeword is written and
nothing else changes; without a codeword it raises InvalidState (R182). -/
def Obligations.LiteralTokenPacksItsCodeword : Prop :=
  ∀ (b : Byte) (s : State),
    (lenOf s.len b.toNat = 0 → ∃ t, exec (.itokLit b) s = .next t ∧ FailedWith 3 s t) ∧
      (lenOf s.len b.toNat ≠ 0 →
        s.wr.nacc.toNat + lenOf s.len b.toNat ≤ 16 ∨ s.wr.rawpos.toNat + 2 ≤ s.cur.cap.toNat →
        ∃ t, exec (.itokLit b) s = .next t ∧ WroteBits s (codeOf s.len b.toNat) (lenOf s.len b.toNat) t) ∧
      (lenOf s.len b.toNat ≠ 0 → 16 < s.wr.nacc.toNat + lenOf s.len b.toNat →
        s.cur.cap.toNat < s.wr.rawpos.toNat + 2 → ∃ t, exec (.itokLit b) s = .next t ∧ FailedWith 1 s t)

/-- PackMatch (R214) of the three match tokens and of the EOS token, which is offset 0 and L = 0: with a codeword for the
symbol and room for every word and raw field, the codeword, the extension bytes and the residual are written, in that
order, and nothing else changes. -/
def Obligations.MatchTokensPackSymbolExtensionResidual : Prop :=
  ∀ s : State,
    (∀ (off : Half) (l : Byte), lenOf s.len (symOfMatch off.toNat l.toNat) ≠ 0 →
      s.wr.rawpos.toNat + packNeed s off.toNat l.toNat ≤ s.cur.cap.toNat →
      ∃ t, exec (.itokMatchL8 off l) s = .next t ∧ PackedMatch s off.toNat l.toNat t) ∧
      (∀ off w : Half, lenOf s.len (symOfMatch off.toNat w.toNat) ≠ 0 →
        s.wr.rawpos.toNat + packNeed s off.toNat w.toNat ≤ s.cur.cap.toNat →
        ∃ t, exec (.itokMatchL16 off w) s = .next t ∧ PackedMatch s off.toNat w.toNat t) ∧
      (∀ (off : Half) (x : Word), lenOf s.len (symOfMatch off.toNat x.toNat) ≠ 0 →
        s.wr.rawpos.toNat + packNeed s off.toNat x.toNat ≤ s.cur.cap.toNat →
        ∃ t, exec (.itokMatchL32 off x) s = .next t ∧ PackedMatch s off.toNat x.toNat t) ∧
      (lenOf s.len 256 ≠ 0 → s.wr.rawpos.toNat + packNeed s 0 0 ≤ s.cur.cap.toNat →
        ∃ t, exec .itokEos s = .next t ∧ PackedMatch s 0 0 t)

/-- A match token or the EOS token fails (R182, R214, R216): a symbol without a codeword is InvalidState; where the bits
or raw fields pass the capacity it is InsufficientBuffer, and no byte outside the output buffer changes. A group mask or a
token of any kind that runs past scr_len is InvalidState (R212, R216): it does not decode from the bytes below scr_len. -/
def Obligations.TokensFailByName : Prop :=
  (∀ (i : Instr) (off l : Nat) (s : State), matchFields i = some (off, l) →
    (lenOf s.len (symOfMatch off l) = 0 → ∃ t, exec i s = .next t ∧ FailedWith 3 s t) ∧
      (lenOf s.len (symOfMatch off l) ≠ 0 → s.cur.cap.toNat < s.wr.rawpos.toNat + packNeed s off l →
        WriterInv s → buffersOk s.cur.src s.cur.slen s.cur.dst s.cur.cap = true →
        ∃ t, exec i s = .next t ∧ FailedWith 1 s t)) ∧
    ∀ (o : Config.Oracles) (s : State) (f : Format) (e : DecodeError), s.phase = .cPack →
      s.pk.ppos.toNat < s.tk.scrLen.toNat →
      f = (if 32 ≤ s.pk.pbit.toNat then .group
        else if s.pk.pmask.getLsbD s.pk.pbit.toNat then .mat else .lit) →
      decode f (tokenBytes s) = .error e → ∃ t, engineStep o s = .next t ∧ FailedWith 3 s t

/-! ### Invariants of every step -/

/-- Reset leaves the values R340 gives, and a state that meets every invariant. The values of the fields R341 leaves open
are the model's (log entry 13); the statement rests on none of them beyond the invariants. -/
def Obligations.ResetMeetsEveryInvariant : Prop :=
  State.reset.phase = .idle ∧ State.reset.win = ⟨0, 0, 0, 0, 0, 0, 0, 0⟩ ∧ WindowInv State.reset ∧
    MemoryInv State.reset ∧ CursorInv State.reset ∧ ScratchInv State.reset

/-- Every step keeps the window's invariant (R33, R45, R320, R351): BUSY = 1 exactly outside IDLE, STATUS is 0, 1, 2 or 4,
zero results while BUSY and after an error. -/
def Obligations.StepKeepsWindow : Prop :=
  ∀ (o : Config.Oracles) (s t : State), WindowInv s → stepWith o s = .next t → WindowInv t

/-- Every step keeps both memories in canonical form, the scratch bytes below SCRATCH_BYTES and the tables at 512 entries
(R50, R51, R59, R206, R208), for every oracle. -/
def Obligations.StepKeepsMemories : Prop :=
  ∀ (o : Config.Oracles) (s t : State), MemoryInv s → stepWith o s = .next t → MemoryInv t

/-- Every step keeps the cursors inside their buffers, phase by phase, for every oracle (R46, R88, R176, R207, R225). -/
def Obligations.StepKeepsCursors : Prop :=
  ∀ (o : Config.Oracles) (s t : State), CursorInv s → stepWith o s = .next t → CursorInv t

/-- Every step keeps the bound of the intermediate stream, for every oracle, given a scratch memory of the required size
(R19, R209). -/
def Obligations.StepKeepsScratchBound : Prop :=
  ∀ (o : Config.Oracles) (s t : State), 73730 ≤ s.par.scratchBytes → CursorInv s → ScratchInv s →
    stepWith o s = .next t → ScratchInv t

/-- The tokenizer never overflows the scratch memory (R208, R209): from a state that meets the bounds, a tokenizer step
leaves the engine running, or fails for want of output capacity; it never raises InvalidState. -/
def Obligations.TokenizerNeverOverflowsScratch : Prop :=
  ∀ (o : Config.Oracles) (s : State), 73730 ≤ s.par.scratchBytes → CursorInv s → ScratchInv s →
    s.phase = .cTokenize →
    ∃ t, engineStep o s = .next t ∧ (t.phase = .cTokenize ∨ t.phase = .cPack ∨ t.win.error = 1)

/-- The engine never writes outside [dst, dst + cap) (R89, R276): a step in which the host writes no memory leaves every
byte outside the latched output buffer as it was. -/
def Obligations.OnlyTheOutputBufferChanges : Prop :=
  ∀ (o : Config.Oracles) (s t : State), CursorInv s →
    (∀ a v rest, s.host ≠ .memStore a v :: rest) → stepWith o s = .next t →
    ∀ a, ¬InOutput s a → t.readByte a = s.readByte a

/-- Every command completes (R361): an engine step outside IDLE answers a next state and makes what remains strictly
smaller, so a command takes at most `remaining` steps. -/
def Obligations.EngineStepsMakeProgress : Prop :=
  ∀ (o : Config.Oracles) (s : State), CursorInv s → s.phase ≠ .idle →
    ∃ t, engineStep o s = .next t ∧ remaining t < remaining s

/-- Only a command leaves IDLE (R319, R325): a step from IDLE to another phase is the host's store of 1 or 2 to CMD. -/
def Obligations.OnlyACommandLeavesIdle : Prop :=
  ∀ (o : Config.Oracles) (s t : State), s.phase = .idle → stepWith o s = .next t → t.phase ≠ .idle →
    ∃ (v : Word) (rest : List HostOp), s.host = .regStore s.par.xhBase 4 v :: rest ∧ (v = 1 ∨ v = 2)
end

