-- ==== Sys2Proof/Laws/Bytes.lean ====
section
/-! SUPPORT. Little-endian fields: their length, their bytes and the round trip (spec/20_memory.md R83), and how many bytes
a length form takes. -/

namespace Sys2Proof

@[simp] theorem length_bytesLE (m v : Nat) : (bytesLE m v).length = m := by
  induction m generalizing v with
  | zero => rfl
  | succ m ih => simp [bytesLE, ih]

theorem ofBytesLE_bytesLE (m v : Nat) : ofBytesLE (bytesLE m v) = v % 256 ^ m := by
  induction m generalizing v with
  | zero => simp [bytesLE, ofBytesLE, Nat.mod_one]
  | succ m ih =>
    simp only [bytesLE, ofBytesLE, ih, BitVec.toNat_ofNat]
    show v % 256 + 256 * (v / 256 % 256 ^ m) = _
    rw [pow_succ, mul_comm (256 ^ m), Nat.mod_mul]

theorem ofNat_mod {n : Nat} (v : BitVec n) (m : Nat) (h : m = 2 ^ n) : BitVec.ofNat n (v.toNat % m) = v := by
  subst h; exact BitVec.eq_of_toNat_eq (by simp)

theorem ofBytesLE_lt (bs : List Byte) : ofBytesLE bs < 256 ^ bs.length := by
  induction bs with
  | nil => simp [ofBytesLE]
  | cons b bs ih =>
    have := b.isLt
    simp only [ofBytesLE, List.length_cons, pow_succ]
    omega

theorem bytesLE_ofBytesLE (bs : List Byte) : bytesLE bs.length (ofBytesLE bs) = bs := by
  induction bs with
  | nil => rfl
  | cons b bs ih =>
    have hb := b.isLt
    have h1 : (b.toNat + 256 * ofBytesLE bs) / 256 = ofBytesLE bs := by omega
    have h2 : BitVec.ofNat 8 (b.toNat + 256 * ofBytesLE bs) = b := by
      apply BitVec.eq_of_toNat_eq
      simp only [BitVec.toNat_ofNat]; omega
    simp only [List.length_cons, bytesLE, ofBytesLE, h1, h2, ih]

theorem bytesLE_getElem (m v j : Nat) (h : j < m) (h' : j < (bytesLE m v).length) : (bytesLE m v)[j] = BitVec.ofNat 8 (v / 256 ^ j) := by
  induction m generalizing v j with
  | zero => omega
  | succ m ih =>
    cases j with
    | zero => simp [bytesLE]
    | succ j =>
      simp only [bytesLE, List.getElem_cons_succ]
      rw [ih _ _ (by omega), Nat.div_div_eq_div_mul, pow_succ, mul_comm]

theorem ofNat_ofBytesLE_inj {m : Nat} (v : BitVec m) (bs : List Byte) (hl : m = 8 * bs.length)
   (h : BitVec.ofNat m (ofBytesLE bs) = v) : bytesLE bs.length v.toNat = bs := by
  have := ofBytesLE_lt bs
  rw [← h, BitVec.toNat_ofNat, Nat.mod_eq_of_lt, bytesLE_ofBytesLE]
  rw [hl, pow_mul]; exact this

/-- A length form takes as many bytes as R110 and R126 say, all of them from the bytes given. -/
theorem decodeLength_size {n : BitVec 4} {bs : List Byte} {g : LenForm} {r : List Byte}
    (h : decodeLength n bs = .ok (g, r)) : g.size + r.length = bs.length := by
  unfold decodeLength at h
  repeat' split at h
  all_goals cases h
  all_goals simp [LenForm.size]; try omega

/-- An instruction takes its encoding's length of bytes from the bytes given (R110). -/
theorem decode_size {f : Format} {bs : List Byte} {i : Instr} {r : List Byte} (h : decode f bs = .ok (i, r)) :
    (encode i).length + r.length = bs.length := by
  have hcmd : ∀ v, (encode (decodeCmd v)).length = 4 := by
    intro v; unfold decodeCmd; repeat' split
    all_goals simp [encode]
  have hsym : ∀ v z, (encode (decodeSym v z)).length = 2 := by
    intro v z; unfold decodeSym; repeat' split
    all_goals simp [encode]
  have hlen : ∀ g : LenForm, (encode g.instr).length = g.size := by
    intro g; cases g <;> simp [encode, LenForm.instr, LenForm.size]
  cases f with
  | cmd => simp only [decode] at h; split at h <;> cases h; simp [hcmd]; omega
  | sym z =>
    simp only [decode] at h
    repeat' split at h
    all_goals cases h
    simp [hsym]; omega
  | len n =>
    simp only [decode] at h; split at h <;> cases h
    rename_i g r hg
    rw [hlen]; exact decodeLength_size hg
  | group => simp only [decode] at h; split at h <;> cases h; simp [encode]; omega
  | lit => simp only [decode] at h; split at h <;> cases h; simp [encode]; omega
  | mat =>
    simp only [decode, decodeMatchToken] at h
    repeat' split at h
    all_goals cases h
    all_goals simp [encode]; omega

end Sys2Proof
end

