-- ==== Sys2Proof/Laws/Huffman.lean ====
section
/-! SUPPORT. The canonical code (spec/40_bitcoder.md R180, R181): the Kraft sum by length, the bound it puts on the first
codewords, what the walk over the symbols assigns, and what a lookup finds. -/

namespace Sys2Proof.Machine

theorem tableValid_iff (len : List (BitVec 4)) : tableValid len = true ↔ kraftSum len ≤ 2 ^ 15 := by
  unfold tableValid; exact decide_eq_true_iff

/-- The part of the Kraft sum that lengths of at least `b` contribute. -/
def tailSum (len : List (BitVec 4)) (b : Nat) : Nat :=
  (len.map fun l => if b ≤ l.toNat then 2 ^ (15 - l.toNat) else 0).sum

theorem tailSum_one (len : List (BitVec 4)) : tailSum len 1 = kraftSum len := by
  unfold tailSum kraftSum
  congr 2
  funext l
  by_cases h : l = 0#4
  · subst h; rfl
  · have : l.toNat ≠ 0 := fun e => h (BitVec.eq_of_toNat_eq e)
    simp [h]; omega

theorem tailSum_succ (len : List (BitVec 4)) (b : Nat) :
    tailSum len b = lengthCount len b * 2 ^ (15 - b) + tailSum len (b + 1) := by
  unfold tailSum lengthCount
  induction len with
  | nil => simp
  | cons l ls ih =>
    simp only [List.map_cons, List.sum_cons, List.countP_cons, ih]
    by_cases h : l.toNat = b
    · simp [h]; ring
    · by_cases h2 : b ≤ l.toNat
      · have : b + 1 ≤ l.toNat := by omega
        simp [h, h2, this]; ring
      · have : ¬ b + 1 ≤ l.toNat := by omega
        simp [h, h2, this]

theorem firstCode_tail (len : List (BitVec 4)) {b : Nat} (h1 : 1 ≤ b) (h : b ≤ 15) :
    firstCode len b * 2 ^ (15 - b) + tailSum len b = kraftSum len := by
  induction b with
  | zero => omega
  | succ b ih =>
    by_cases hb : b = 0
    · subst hb; simp [firstCode, tailSum_one]
    · have := ih (by omega) (by omega)
      rw [tailSum_succ] at this
      simp only [firstCode, hb, if_false]
      have e : 15 - b = (15 - (b + 1)) + 1 := by omega
      rw [e, pow_succ] at this
      rw [← this]; ring

/-- In a valid table the codewords of length `b` fit in `b` bits (R180, R181). -/
theorem firstCode_bound {len : List (BitVec 4)} (hv : tableValid len = true) {b : Nat} (h1 : 1 ≤ b) (h : b ≤ 15) :
    firstCode len b + lengthCount len b ≤ 2 ^ b := by
  have hk : kraftSum len ≤ 2 ^ 15 := by simpa [tableValid] using hv
  have e := firstCode_tail len h1 h
  rw [tailSum_succ] at e
  have hp : 2 ^ 15 = 2 ^ b * 2 ^ (15 - b) := by rw [← pow_add]; congr 1; omega
  have : (firstCode len b + lengthCount len b) * 2 ^ (15 - b) ≤ 2 ^ b * 2 ^ (15 - b) := by
    rw [add_mul, ← hp]; omega
  exact Nat.le_of_mul_le_mul_right this (by positivity)

/-- Codewords of a longer length start past every codeword of a shorter one, extended (R181). -/
theorem firstCode_past (len : List (BitVec 4)) {b : Nat} (d : Nat) (h1 : 1 ≤ b) :
    (firstCode len b + lengthCount len b) * 2 ^ (d + 1) ≤ firstCode len (b + (d + 1)) := by
  induction d with
  | zero => simp [firstCode, show b ≠ 0 by omega]
  | succ d ih =>
    have : firstCode len (b + (d + 1 + 1)) = (firstCode len (b + (d + 1)) + lengthCount len (b + (d + 1))) * 2 := by
      rw [← add_assoc]; simp [firstCode]
    rw [this, pow_succ]; nlinarith

theorem assignCodes_length (next : List Nat) (ls : List (BitVec 4)) : (assignCodes next ls).length = ls.length := by
  induction ls generalizing next with
  | nil => rfl
  | cons l ls ih => unfold assignCodes; split <;> simp [ih]

@[simp] theorem codeTable_length (len : List (BitVec 4)) : (codeTable len).length = len.length := assignCodes_length _ _

/-- What the walk of R181 assigns: the next codeword of the symbol's length, counted from the ones before it. -/
theorem assignCodes_getD (next : List Nat) (hn : next.length = 16) (ls : List (BitVec 4)) (s : Nat) (h : lenOf ls s ≠ 0) :
    (assignCodes next ls).getD s 0#15 =
      BitVec.ofNat 15 (next.getD (lenOf ls s) 0 + (ls.take s).countP fun l => l.toNat == lenOf ls s) := by
  induction ls generalizing next s with
  | nil => simp [lenOf] at h
  | cons l ls ih =>
    cases s with
    | zero =>
      have hl : l ≠ 0#4 := by rintro rfl; simp [lenOf] at h
      simp [assignCodes, hl, lenOf]
    | succ s =>
      have hs : lenOf (l :: ls) (s + 1) = lenOf ls s := by simp [lenOf]
      rw [hs] at h ⊢
      have hlt := l.isLt
      by_cases hl : l = 0#4
      · subst hl
        simp only [assignCodes, if_true, List.getD_cons_succ, List.take_succ_cons, List.countP_cons]
        rw [ih next hn s h]
        simp [show ¬ (0 = lenOf ls s) by omega]
      · simp only [assignCodes, if_neg hl, List.getD_cons_succ, List.take_succ_cons, List.countP_cons]
        rw [ih _ (by simpa using hn) s h]
        congr 1
        by_cases he : l.toNat = lenOf ls s
        · rw [he]
          have : lenOf ls s < next.length := by omega
          simp [List.getD_eq_getElem?_getD, this]; omega
        · simp [List.getD_eq_getElem?_getD, he]

theorem lenOf_le (len : List (BitVec 4)) (s : Nat) : lenOf len s ≤ 15 := by
  have := (len.getD s 0#4).isLt; unfold lenOf; omega

theorem lenOf_lt_length {len : List (BitVec 4)} {s : Nat} (h : lenOf len s ≠ 0) : s < len.length := by
  by_contra hn
  exact h (by simp [lenOf, List.getD_eq_getElem?_getD, List.getElem?_eq_none (Nat.le_of_not_lt hn)])

theorem countP_take_lt {len : List (BitVec 4)} {s r b : Nat} (hs : s < r) (hl : lenOf len s = b) (h0 : b ≠ 0) :
    (len.take s).countP (fun l => l.toNat == b) < (len.take r).countP (fun l => l.toNat == b) := by
  have hsl := lenOf_lt_length (hl ▸ h0 : lenOf len s ≠ 0)
  have h1 : (len.take (s + 1)).countP (fun l => l.toNat == b) = (len.take s).countP (fun l => l.toNat == b) + 1 := by
    rw [List.take_succ_eq_append_getElem hsl, List.countP_append]
    have : len[s].toNat = b := by simpa [lenOf, List.getD_eq_getElem?_getD, List.getElem?_eq_getElem hsl] using hl
    simp [this]
  have h2 : (len.take (s + 1)).countP (fun l => l.toNat == b) ≤ (len.take r).countP (fun l => l.toNat == b) :=
    (List.take_sublist_take_left (show s + 1 ≤ r by omega)).countP_le
  omega

theorem findCode_some {len : List (BitVec 4)} {b v s : Nat} (h : findCode len b v = some s) :
    lenOf len s = b ∧ codeOf len s = v := by
  unfold findCode at h
  rw [List.findIdx?_eq_some_iff_getElem] at h
  obtain ⟨hlt, hp, -⟩ := h
  have h1 : s < len.length := by simp at hlt; omega
  simp at hp
  simpa [lenOf, codeOf, List.getD_eq_getElem?_getD, h1] using hp

theorem findCode_none {len : List (BitVec 4)} {b v s : Nat} (h : findCode len b v = none) (hb : b ≠ 0)
    (hl : lenOf len s = b) : codeOf len s ≠ v := by
  intro hc
  unfold findCode at h
  rw [List.findIdx?_eq_none_iff] at h
  have h1 := lenOf_lt_length (hl ▸ hb : lenOf len s ≠ 0)
  have := h ((len.zip (codeTable len))[s]'(by simp; omega)) (List.getElem_mem _)
  simp at this
  apply this
  · simpa [lenOf, List.getD_eq_getElem?_getD, h1] using hl
  · simpa [codeOf, List.getD_eq_getElem?_getD, h1] using hc

@[simp] theorem tableOfBytes_length (bs : List Byte) : (tableOfBytes bs).length = 2 * bs.length := by
  induction bs with
  | nil => rfl
  | cons b bs ih => simp [tableOfBytes, ih]; omega

/-- A table of `2 n` lengths packs into `n` bytes (R113). -/
theorem tableToBytes_length (n : Nat) (len : List (BitVec 4)) (h : len.length = 2 * n) :
    (tableToBytes len).length = n := by
  induction n generalizing len with
  | zero => simp [List.length_eq_zero_iff.1 h, tableToBytes]
  | succ n ih =>
    match len, h with
    | a :: b :: r, h => simp [tableToBytes, ih r (by simp at h; omega)]

end Sys2Proof.Machine
end

