-- ==== Sys2Proof/Laws/State.lean ====
section
/-! SUPPORT. One lemma per field of State for each operation that is one record update: what it leaves alone, and what
it sets where that is one expression. -/

namespace Sys2Proof.Machine

@[simp] theorem State.writeByte_par (s : State) (a : Word) (v : Byte) : (s.writeByte a v).par = s.par := rfl
@[simp] theorem State.writeByte_host (s : State) (a : Word) (v : Byte) : (s.writeByte a v).host = s.host := rfl
@[simp] theorem State.writeByte_reads (s : State) (a : Word) (v : Byte) : (s.writeByte a v).reads = s.reads := rfl
@[simp] theorem State.writeByte_win (s : State) (a : Word) (v : Byte) : (s.writeByte a v).win = s.win := rfl
@[simp] theorem State.writeByte_phase (s : State) (a : Word) (v : Byte) : (s.writeByte a v).phase = s.phase := rfl
@[simp] theorem State.writeByte_cur (s : State) (a : Word) (v : Byte) : (s.writeByte a v).cur = s.cur := rfl
@[simp] theorem State.writeByte_chunkOpen (s : State) (a : Word) (v : Byte) : (s.writeByte a v).chunkOpen = s.chunkOpen := rfl
@[simp] theorem State.writeByte_cnt (s : State) (a : Word) (v : Byte) : (s.writeByte a v).cnt = s.cnt := rfl
@[simp] theorem State.writeByte_len (s : State) (a : Word) (v : Byte) : (s.writeByte a v).len = s.len := rfl
@[simp] theorem State.writeByte_rd (s : State) (a : Word) (v : Byte) : (s.writeByte a v).rd = s.rd := rfl
@[simp] theorem State.writeByte_wr (s : State) (a : Word) (v : Byte) : (s.writeByte a v).wr = s.wr := rfl
@[simp] theorem State.writeByte_tk (s : State) (a : Word) (v : Byte) : (s.writeByte a v).tk = s.tk := rfl
@[simp] theorem State.writeByte_pk (s : State) (a : Word) (v : Byte) : (s.writeByte a v).pk = s.pk := rfl
@[simp] theorem State.writeByte_mt (s : State) (a : Word) (v : Byte) : (s.writeByte a v).mt = s.mt := rfl
@[simp] theorem State.writeByte_mem (s : State) (a : Word) (v : Byte) : (s.writeByte a v).mem = s.mem.put a.toNat v := rfl
@[simp] theorem State.writeByte_lost (s : State) (a : Word) (v : Byte) : (s.writeByte a v).lost = s.lost := rfl
@[simp] theorem State.writeByte_unseen (s : State) (a : Word) (v : Byte) : (s.writeByte a v).unseen = s.unseen := rfl
@[simp] theorem State.writeByte_contested (s : State) (a : Word) (v : Byte) : (s.writeByte a v).contested = s.contested := rfl
@[simp] theorem State.writeByte_scr (s : State) (a : Word) (v : Byte) : (s.writeByte a v).scr = s.scr := rfl

@[simp] theorem State.writeBytes_par (s : State) (a : Word) (bs : List Byte) : (s.writeBytes a bs).par = s.par := rfl
@[simp] theorem State.writeBytes_host (s : State) (a : Word) (bs : List Byte) : (s.writeBytes a bs).host = s.host := rfl
@[simp] theorem State.writeBytes_reads (s : State) (a : Word) (bs : List Byte) : (s.writeBytes a bs).reads = s.reads := rfl
@[simp] theorem State.writeBytes_win (s : State) (a : Word) (bs : List Byte) : (s.writeBytes a bs).win = s.win := rfl
@[simp] theorem State.writeBytes_phase (s : State) (a : Word) (bs : List Byte) : (s.writeBytes a bs).phase = s.phase := rfl
@[simp] theorem State.writeBytes_cur (s : State) (a : Word) (bs : List Byte) : (s.writeBytes a bs).cur = s.cur := rfl
@[simp] theorem State.writeBytes_chunkOpen (s : State) (a : Word) (bs : List Byte) : (s.writeBytes a bs).chunkOpen = s.chunkOpen := rfl
@[simp] theorem State.writeBytes_cnt (s : State) (a : Word) (bs : List Byte) : (s.writeBytes a bs).cnt = s.cnt := rfl
@[simp] theorem State.writeBytes_len (s : State) (a : Word) (bs : List Byte) : (s.writeBytes a bs).len = s.len := rfl
@[simp] theorem State.writeBytes_rd (s : State) (a : Word) (bs : List Byte) : (s.writeBytes a bs).rd = s.rd := rfl
@[simp] theorem State.writeBytes_wr (s : State) (a : Word) (bs : List Byte) : (s.writeBytes a bs).wr = s.wr := rfl
@[simp] theorem State.writeBytes_tk (s : State) (a : Word) (bs : List Byte) : (s.writeBytes a bs).tk = s.tk := rfl
@[simp] theorem State.writeBytes_pk (s : State) (a : Word) (bs : List Byte) : (s.writeBytes a bs).pk = s.pk := rfl
@[simp] theorem State.writeBytes_mt (s : State) (a : Word) (bs : List Byte) : (s.writeBytes a bs).mt = s.mt := rfl
@[simp] theorem State.writeBytes_mem (s : State) (a : Word) (bs : List Byte) : (s.writeBytes a bs).mem = s.mem.putBytes a bs := rfl
@[simp] theorem State.writeBytes_lost (s : State) (a : Word) (bs : List Byte) : (s.writeBytes a bs).lost = s.lost := rfl
@[simp] theorem State.writeBytes_unseen (s : State) (a : Word) (bs : List Byte) : (s.writeBytes a bs).unseen = s.unseen := rfl
@[simp] theorem State.writeBytes_contested (s : State) (a : Word) (bs : List Byte) : (s.writeBytes a bs).contested = s.contested := rfl
@[simp] theorem State.writeBytes_scr (s : State) (a : Word) (bs : List Byte) : (s.writeBytes a bs).scr = s.scr := rfl

@[simp] theorem State.writeOut_par (s : State) (off : Nat) (bs : List Byte) : (s.writeOut off bs).par = s.par := rfl
@[simp] theorem State.writeOut_host (s : State) (off : Nat) (bs : List Byte) : (s.writeOut off bs).host = s.host := rfl
@[simp] theorem State.writeOut_reads (s : State) (off : Nat) (bs : List Byte) : (s.writeOut off bs).reads = s.reads := rfl
@[simp] theorem State.writeOut_win (s : State) (off : Nat) (bs : List Byte) : (s.writeOut off bs).win = s.win := rfl
@[simp] theorem State.writeOut_phase (s : State) (off : Nat) (bs : List Byte) : (s.writeOut off bs).phase = s.phase := rfl
@[simp] theorem State.writeOut_cur (s : State) (off : Nat) (bs : List Byte) : (s.writeOut off bs).cur = s.cur := rfl
@[simp] theorem State.writeOut_chunkOpen (s : State) (off : Nat) (bs : List Byte) : (s.writeOut off bs).chunkOpen = s.chunkOpen := rfl
@[simp] theorem State.writeOut_cnt (s : State) (off : Nat) (bs : List Byte) : (s.writeOut off bs).cnt = s.cnt := rfl
@[simp] theorem State.writeOut_len (s : State) (off : Nat) (bs : List Byte) : (s.writeOut off bs).len = s.len := rfl
@[simp] theorem State.writeOut_rd (s : State) (off : Nat) (bs : List Byte) : (s.writeOut off bs).rd = s.rd := rfl
@[simp] theorem State.writeOut_wr (s : State) (off : Nat) (bs : List Byte) : (s.writeOut off bs).wr = s.wr := rfl
@[simp] theorem State.writeOut_tk (s : State) (off : Nat) (bs : List Byte) : (s.writeOut off bs).tk = s.tk := rfl
@[simp] theorem State.writeOut_pk (s : State) (off : Nat) (bs : List Byte) : (s.writeOut off bs).pk = s.pk := rfl
@[simp] theorem State.writeOut_mt (s : State) (off : Nat) (bs : List Byte) : (s.writeOut off bs).mt = s.mt := rfl
@[simp] theorem State.writeOut_mem (s : State) (off : Nat) (bs : List Byte) : (s.writeOut off bs).mem = s.mem.putBytes (s.outAddr off) bs := rfl
@[simp] theorem State.writeOut_lost (s : State) (off : Nat) (bs : List Byte) : (s.writeOut off bs).lost = s.lost := rfl
@[simp] theorem State.writeOut_unseen (s : State) (off : Nat) (bs : List Byte) : (s.writeOut off bs).unseen = s.unseen := rfl
@[simp] theorem State.writeOut_contested (s : State) (off : Nat) (bs : List Byte) : (s.writeOut off bs).contested = s.contested := rfl
@[simp] theorem State.writeOut_scr (s : State) (off : Nat) (bs : List Byte) : (s.writeOut off bs).scr = s.scr := rfl

@[simp] theorem State.lose_par (lo n : Nat) (s : State) : (s.lose lo n).par = s.par := rfl
@[simp] theorem State.lose_host (lo n : Nat) (s : State) : (s.lose lo n).host = s.host := rfl
@[simp] theorem State.lose_reads (lo n : Nat) (s : State) : (s.lose lo n).reads = s.reads := rfl
@[simp] theorem State.lose_win (lo n : Nat) (s : State) : (s.lose lo n).win = s.win := rfl
@[simp] theorem State.lose_phase (lo n : Nat) (s : State) : (s.lose lo n).phase = s.phase := rfl
@[simp] theorem State.lose_cur (lo n : Nat) (s : State) : (s.lose lo n).cur = s.cur := rfl
@[simp] theorem State.lose_chunkOpen (lo n : Nat) (s : State) : (s.lose lo n).chunkOpen = s.chunkOpen := rfl
@[simp] theorem State.lose_cnt (lo n : Nat) (s : State) : (s.lose lo n).cnt = s.cnt := rfl
@[simp] theorem State.lose_len (lo n : Nat) (s : State) : (s.lose lo n).len = s.len := rfl
@[simp] theorem State.lose_rd (lo n : Nat) (s : State) : (s.lose lo n).rd = s.rd := rfl
@[simp] theorem State.lose_wr (lo n : Nat) (s : State) : (s.lose lo n).wr = s.wr := rfl
@[simp] theorem State.lose_tk (lo n : Nat) (s : State) : (s.lose lo n).tk = s.tk := rfl
@[simp] theorem State.lose_pk (lo n : Nat) (s : State) : (s.lose lo n).pk = s.pk := rfl
@[simp] theorem State.lose_mt (lo n : Nat) (s : State) : (s.lose lo n).mt = s.mt := rfl
@[simp] theorem State.lose_mem (lo n : Nat) (s : State) : (s.lose lo n).mem = s.mem.forget lo n := rfl
@[simp] theorem State.lose_lost (lo n : Nat) (s : State) : (s.lose lo n).lost = (lo, n) :: s.lost := rfl
@[simp] theorem State.lose_unseen (lo n : Nat) (s : State) : (s.lose lo n).unseen = s.unseen := rfl
@[simp] theorem State.lose_contested (lo n : Nat) (s : State) : (s.lose lo n).contested = s.contested := rfl
@[simp] theorem State.lose_scr (lo n : Nat) (s : State) : (s.lose lo n).scr = s.scr := rfl

@[simp] theorem State.loseOutput_par (s : State) : (s.loseOutput).par = s.par := rfl
@[simp] theorem State.loseOutput_host (s : State) : (s.loseOutput).host = s.host := rfl
@[simp] theorem State.loseOutput_reads (s : State) : (s.loseOutput).reads = s.reads := rfl
@[simp] theorem State.loseOutput_win (s : State) : (s.loseOutput).win = s.win := rfl
@[simp] theorem State.loseOutput_phase (s : State) : (s.loseOutput).phase = s.phase := rfl
@[simp] theorem State.loseOutput_cur (s : State) : (s.loseOutput).cur = s.cur := rfl
@[simp] theorem State.loseOutput_chunkOpen (s : State) : (s.loseOutput).chunkOpen = s.chunkOpen := rfl
@[simp] theorem State.loseOutput_cnt (s : State) : (s.loseOutput).cnt = s.cnt := rfl
@[simp] theorem State.loseOutput_len (s : State) : (s.loseOutput).len = s.len := rfl
@[simp] theorem State.loseOutput_rd (s : State) : (s.loseOutput).rd = s.rd := rfl
@[simp] theorem State.loseOutput_wr (s : State) : (s.loseOutput).wr = s.wr := rfl
@[simp] theorem State.loseOutput_tk (s : State) : (s.loseOutput).tk = s.tk := rfl
@[simp] theorem State.loseOutput_pk (s : State) : (s.loseOutput).pk = s.pk := rfl
@[simp] theorem State.loseOutput_mt (s : State) : (s.loseOutput).mt = s.mt := rfl
@[simp] theorem State.loseOutput_unseen (s : State) : (s.loseOutput).unseen =
    (s.cur.dst.toNat, s.cur.cap.toNat) :: s.unseen := rfl
@[simp] theorem State.loseOutput_contested (s : State) : (s.loseOutput).contested = s.contested := rfl
@[simp] theorem State.loseOutput_scr (s : State) : (s.loseOutput).scr = s.scr := rfl

@[simp] theorem completeOk_par (s : State) : (completeOk s).par = s.par := rfl
@[simp] theorem completeOk_host (s : State) : (completeOk s).host = s.host := rfl
@[simp] theorem completeOk_reads (s : State) : (completeOk s).reads = s.reads := rfl
@[simp] theorem completeOk_cur (s : State) : (completeOk s).cur = s.cur := rfl
@[simp] theorem completeOk_chunkOpen (s : State) : (completeOk s).chunkOpen = s.chunkOpen := rfl
@[simp] theorem completeOk_cnt (s : State) : (completeOk s).cnt = s.cnt := rfl
@[simp] theorem completeOk_len (s : State) : (completeOk s).len = s.len := rfl
@[simp] theorem completeOk_rd (s : State) : (completeOk s).rd = s.rd := rfl
@[simp] theorem completeOk_wr (s : State) : (completeOk s).wr = s.wr := rfl
@[simp] theorem completeOk_tk (s : State) : (completeOk s).tk = s.tk := rfl
@[simp] theorem completeOk_pk (s : State) : (completeOk s).pk = s.pk := rfl
@[simp] theorem completeOk_mt (s : State) : (completeOk s).mt = s.mt := rfl
@[simp] theorem completeOk_mem (s : State) : (completeOk s).mem = s.mem := rfl
@[simp] theorem completeOk_lost (s : State) : (completeOk s).lost = s.lost := rfl
@[simp] theorem completeOk_unseen (s : State) : (completeOk s).unseen =
    (s.cur.dst.toNat, s.cur.outPos.toNat) :: s.unseen := rfl
@[simp] theorem completeOk_contested (s : State) : (completeOk s).contested = s.contested := rfl
@[simp] theorem completeOk_scr (s : State) : (completeOk s).scr = s.scr := rfl

@[simp] theorem completeErr_par (e : Err) (s : State) : (completeErr e s).par = s.par := rfl
@[simp] theorem completeErr_host (e : Err) (s : State) : (completeErr e s).host = s.host := rfl
@[simp] theorem completeErr_reads (e : Err) (s : State) : (completeErr e s).reads = s.reads := rfl
@[simp] theorem completeErr_cur (e : Err) (s : State) : (completeErr e s).cur = s.cur := rfl
@[simp] theorem completeErr_chunkOpen (e : Err) (s : State) : (completeErr e s).chunkOpen = s.chunkOpen := rfl
@[simp] theorem completeErr_cnt (e : Err) (s : State) : (completeErr e s).cnt = s.cnt := rfl
@[simp] theorem completeErr_len (e : Err) (s : State) : (completeErr e s).len = s.len := rfl
@[simp] theorem completeErr_rd (e : Err) (s : State) : (completeErr e s).rd = s.rd := rfl
@[simp] theorem completeErr_wr (e : Err) (s : State) : (completeErr e s).wr = s.wr := rfl
@[simp] theorem completeErr_tk (e : Err) (s : State) : (completeErr e s).tk = s.tk := rfl
@[simp] theorem completeErr_pk (e : Err) (s : State) : (completeErr e s).pk = s.pk := rfl
@[simp] theorem completeErr_unseen (e : Err) (s : State) : (completeErr e s).unseen =
    (s.cur.dst.toNat, s.cur.cap.toNat) :: s.unseen := rfl
@[simp] theorem completeErr_contested (e : Err) (s : State) : (completeErr e s).contested = s.contested := rfl
@[simp] theorem completeErr_scr (e : Err) (s : State) : (completeErr e s).scr = s.scr := rfl

@[simp] theorem skip_par (n : Nat) (s : State) : (skip n s).par = s.par := rfl
@[simp] theorem skip_host (n : Nat) (s : State) : (skip n s).host = s.host := rfl
@[simp] theorem skip_reads (n : Nat) (s : State) : (skip n s).reads = s.reads := rfl
@[simp] theorem skip_win (n : Nat) (s : State) : (skip n s).win = s.win := rfl
@[simp] theorem skip_phase (n : Nat) (s : State) : (skip n s).phase = s.phase := rfl
@[simp] theorem skip_cur (n : Nat) (s : State) : (skip n s).cur = s.cur := rfl
@[simp] theorem skip_chunkOpen (n : Nat) (s : State) : (skip n s).chunkOpen = s.chunkOpen := rfl
@[simp] theorem skip_cnt (n : Nat) (s : State) : (skip n s).cnt = s.cnt := rfl
@[simp] theorem skip_len (n : Nat) (s : State) : (skip n s).len = s.len := rfl
@[simp] theorem skip_rd (n : Nat) (s : State) : (skip n s).rd = skipped n s := rfl
@[simp] theorem skip_wr (n : Nat) (s : State) : (skip n s).wr = s.wr := rfl
@[simp] theorem skip_tk (n : Nat) (s : State) : (skip n s).tk = s.tk := rfl
@[simp] theorem skip_pk (n : Nat) (s : State) : (skip n s).pk = s.pk := rfl
@[simp] theorem skip_mt (n : Nat) (s : State) : (skip n s).mt = s.mt := rfl
@[simp] theorem skip_mem (n : Nat) (s : State) : (skip n s).mem = s.mem := rfl
@[simp] theorem skip_lost (n : Nat) (s : State) : (skip n s).lost = s.lost := rfl
@[simp] theorem skip_unseen (n : Nat) (s : State) : (skip n s).unseen = s.unseen := rfl
@[simp] theorem skip_contested (n : Nat) (s : State) : (skip n s).contested = s.contested := rfl
@[simp] theorem skip_scr (n : Nat) (s : State) : (skip n s).scr = s.scr := rfl

@[simp] theorem readerInit_par (q : Nat) (s : State) : (readerInit q s).par = s.par := rfl
@[simp] theorem readerInit_host (q : Nat) (s : State) : (readerInit q s).host = s.host := rfl
@[simp] theorem readerInit_reads (q : Nat) (s : State) : (readerInit q s).reads = s.reads := rfl
@[simp] theorem readerInit_win (q : Nat) (s : State) : (readerInit q s).win = s.win := rfl
@[simp] theorem readerInit_phase (q : Nat) (s : State) : (readerInit q s).phase = s.phase := rfl
@[simp] theorem readerInit_cur (q : Nat) (s : State) : (readerInit q s).cur = s.cur := rfl
@[simp] theorem readerInit_chunkOpen (q : Nat) (s : State) : (readerInit q s).chunkOpen = s.chunkOpen := rfl
@[simp] theorem readerInit_cnt (q : Nat) (s : State) : (readerInit q s).cnt = s.cnt := rfl
@[simp] theorem readerInit_len (q : Nat) (s : State) : (readerInit q s).len = s.len := rfl
@[simp] theorem readerInit_wr (q : Nat) (s : State) : (readerInit q s).wr = s.wr := rfl
@[simp] theorem readerInit_tk (q : Nat) (s : State) : (readerInit q s).tk = s.tk := rfl
@[simp] theorem readerInit_pk (q : Nat) (s : State) : (readerInit q s).pk = s.pk := rfl
@[simp] theorem readerInit_mt (q : Nat) (s : State) : (readerInit q s).mt = s.mt := rfl
@[simp] theorem readerInit_mem (q : Nat) (s : State) : (readerInit q s).mem = s.mem := rfl
@[simp] theorem readerInit_lost (q : Nat) (s : State) : (readerInit q s).lost = s.lost := rfl
@[simp] theorem readerInit_unseen (q : Nat) (s : State) : (readerInit q s).unseen = s.unseen := rfl
@[simp] theorem readerInit_contested (q : Nat) (s : State) : (readerInit q s).contested = s.contested := rfl
@[simp] theorem readerInit_scr (q : Nat) (s : State) : (readerInit q s).scr = s.scr := rfl

@[simp] theorem finishWriter_par (s : State) : (finishWriter s).par = s.par := rfl
@[simp] theorem finishWriter_host (s : State) : (finishWriter s).host = s.host := rfl
@[simp] theorem finishWriter_reads (s : State) : (finishWriter s).reads = s.reads := rfl
@[simp] theorem finishWriter_win (s : State) : (finishWriter s).win = s.win := rfl
@[simp] theorem finishWriter_phase (s : State) : (finishWriter s).phase = s.phase := rfl
@[simp] theorem finishWriter_cur (s : State) : (finishWriter s).cur = s.cur := rfl
@[simp] theorem finishWriter_chunkOpen (s : State) : (finishWriter s).chunkOpen = s.chunkOpen := rfl
@[simp] theorem finishWriter_cnt (s : State) : (finishWriter s).cnt = s.cnt := rfl
@[simp] theorem finishWriter_len (s : State) : (finishWriter s).len = s.len := rfl
@[simp] theorem finishWriter_rd (s : State) : (finishWriter s).rd = s.rd := rfl
@[simp] theorem finishWriter_wr (s : State) : (finishWriter s).wr = s.wr := rfl
@[simp] theorem finishWriter_tk (s : State) : (finishWriter s).tk = s.tk := rfl
@[simp] theorem finishWriter_pk (s : State) : (finishWriter s).pk = s.pk := rfl
@[simp] theorem finishWriter_mt (s : State) : (finishWriter s).mt = s.mt := rfl
@[simp] theorem finishWriter_lost (s : State) : (finishWriter s).lost = s.lost := rfl
@[simp] theorem finishWriter_unseen (s : State) : (finishWriter s).unseen = s.unseen := rfl
@[simp] theorem finishWriter_contested (s : State) : (finishWriter s).contested = s.contested := rfl
@[simp] theorem finishWriter_scr (s : State) : (finishWriter s).scr = s.scr := rfl

@[simp] theorem chunkEnd_par (s : State) : (chunkEnd s).par = s.par := rfl
@[simp] theorem chunkEnd_host (s : State) : (chunkEnd s).host = s.host := rfl
@[simp] theorem chunkEnd_reads (s : State) : (chunkEnd s).reads = s.reads := rfl
@[simp] theorem chunkEnd_win (s : State) : (chunkEnd s).win = s.win := rfl
@[simp] theorem chunkEnd_phase (s : State) : (chunkEnd s).phase = s.phase := rfl
@[simp] theorem chunkEnd_chunkOpen (s : State) : (chunkEnd s).chunkOpen = s.chunkOpen := rfl
@[simp] theorem chunkEnd_cnt (s : State) : (chunkEnd s).cnt = s.cnt := rfl
@[simp] theorem chunkEnd_len (s : State) : (chunkEnd s).len = s.len := rfl
@[simp] theorem chunkEnd_rd (s : State) : (chunkEnd s).rd = s.rd := rfl
@[simp] theorem chunkEnd_wr (s : State) : (chunkEnd s).wr = s.wr := rfl
@[simp] theorem chunkEnd_tk (s : State) : (chunkEnd s).tk = s.tk := rfl
@[simp] theorem chunkEnd_pk (s : State) : (chunkEnd s).pk = s.pk := rfl
@[simp] theorem chunkEnd_mt (s : State) : (chunkEnd s).mt = s.mt := rfl
@[simp] theorem chunkEnd_mem (s : State) : (chunkEnd s).mem = s.mem := rfl
@[simp] theorem chunkEnd_lost (s : State) : (chunkEnd s).lost = s.lost := rfl
@[simp] theorem chunkEnd_unseen (s : State) : (chunkEnd s).unseen = s.unseen := rfl
@[simp] theorem chunkEnd_contested (s : State) : (chunkEnd s).contested = s.contested := rfl
@[simp] theorem chunkEnd_scr (s : State) : (chunkEnd s).scr = s.scr := rfl

@[simp] theorem countSym_par (sym : Nat) (s : State) : (countSym sym s).par = s.par := rfl
@[simp] theorem countSym_host (sym : Nat) (s : State) : (countSym sym s).host = s.host := rfl
@[simp] theorem countSym_reads (sym : Nat) (s : State) : (countSym sym s).reads = s.reads := rfl
@[simp] theorem countSym_win (sym : Nat) (s : State) : (countSym sym s).win = s.win := rfl
@[simp] theorem countSym_phase (sym : Nat) (s : State) : (countSym sym s).phase = s.phase := rfl
@[simp] theorem countSym_cur (sym : Nat) (s : State) : (countSym sym s).cur = s.cur := rfl
@[simp] theorem countSym_chunkOpen (sym : Nat) (s : State) : (countSym sym s).chunkOpen = s.chunkOpen := rfl
@[simp] theorem countSym_cnt (sym : Nat) (s : State) : (countSym sym s).cnt = s.cnt.modify sym (· + 1#17) := rfl
@[simp] theorem countSym_len (sym : Nat) (s : State) : (countSym sym s).len = s.len := rfl
@[simp] theorem countSym_rd (sym : Nat) (s : State) : (countSym sym s).rd = s.rd := rfl
@[simp] theorem countSym_wr (sym : Nat) (s : State) : (countSym sym s).wr = s.wr := rfl
@[simp] theorem countSym_tk (sym : Nat) (s : State) : (countSym sym s).tk = s.tk := rfl
@[simp] theorem countSym_pk (sym : Nat) (s : State) : (countSym sym s).pk = s.pk := rfl
@[simp] theorem countSym_mt (sym : Nat) (s : State) : (countSym sym s).mt = s.mt := rfl
@[simp] theorem countSym_mem (sym : Nat) (s : State) : (countSym sym s).mem = s.mem := rfl
@[simp] theorem countSym_lost (sym : Nat) (s : State) : (countSym sym s).lost = s.lost := rfl
@[simp] theorem countSym_unseen (sym : Nat) (s : State) : (countSym sym s).unseen = s.unseen := rfl
@[simp] theorem countSym_contested (sym : Nat) (s : State) : (countSym sym s).contested = s.contested := rfl
@[simp] theorem countSym_scr (sym : Nat) (s : State) : (countSym sym s).scr = s.scr := rfl

@[simp] theorem advance_par (n : Nat) (s : State) : (advance n s).par = s.par := rfl
@[simp] theorem advance_host (n : Nat) (s : State) : (advance n s).host = s.host := rfl
@[simp] theorem advance_reads (n : Nat) (s : State) : (advance n s).reads = s.reads := rfl
@[simp] theorem advance_win (n : Nat) (s : State) : (advance n s).win = s.win := rfl
@[simp] theorem advance_phase (n : Nat) (s : State) : (advance n s).phase = s.phase := rfl
@[simp] theorem advance_cur (n : Nat) (s : State) : (advance n s).cur = s.cur := rfl
@[simp] theorem advance_chunkOpen (n : Nat) (s : State) : (advance n s).chunkOpen = s.chunkOpen := rfl
@[simp] theorem advance_cnt (n : Nat) (s : State) : (advance n s).cnt = s.cnt := rfl
@[simp] theorem advance_len (n : Nat) (s : State) : (advance n s).len = s.len := rfl
@[simp] theorem advance_rd (n : Nat) (s : State) : (advance n s).rd = s.rd := rfl
@[simp] theorem advance_wr (n : Nat) (s : State) : (advance n s).wr = s.wr := rfl
@[simp] theorem advance_pk (n : Nat) (s : State) : (advance n s).pk = s.pk := rfl
@[simp] theorem advance_mt (n : Nat) (s : State) : (advance n s).mt = s.mt := rfl
@[simp] theorem advance_mem (n : Nat) (s : State) : (advance n s).mem = s.mem := rfl
@[simp] theorem advance_lost (n : Nat) (s : State) : (advance n s).lost = s.lost := rfl
@[simp] theorem advance_unseen (n : Nat) (s : State) : (advance n s).unseen = s.unseen := rfl
@[simp] theorem advance_contested (n : Nat) (s : State) : (advance n s).contested = s.contested := rfl
@[simp] theorem advance_scr (n : Nat) (s : State) : (advance n s).scr = s.scr := rfl

@[simp] theorem markToken_par (b : Bool) (s : State) : (markToken b s).par = s.par := rfl
@[simp] theorem markToken_host (b : Bool) (s : State) : (markToken b s).host = s.host := rfl
@[simp] theorem markToken_reads (b : Bool) (s : State) : (markToken b s).reads = s.reads := rfl
@[simp] theorem markToken_win (b : Bool) (s : State) : (markToken b s).win = s.win := rfl
@[simp] theorem markToken_phase (b : Bool) (s : State) : (markToken b s).phase = s.phase := rfl
@[simp] theorem markToken_cur (b : Bool) (s : State) : (markToken b s).cur = s.cur := rfl
@[simp] theorem markToken_chunkOpen (b : Bool) (s : State) : (markToken b s).chunkOpen = s.chunkOpen := rfl
@[simp] theorem markToken_cnt (b : Bool) (s : State) : (markToken b s).cnt = s.cnt := rfl
@[simp] theorem markToken_len (b : Bool) (s : State) : (markToken b s).len = s.len := rfl
@[simp] theorem markToken_rd (b : Bool) (s : State) : (markToken b s).rd = s.rd := rfl
@[simp] theorem markToken_wr (b : Bool) (s : State) : (markToken b s).wr = s.wr := rfl
@[simp] theorem markToken_pk (b : Bool) (s : State) : (markToken b s).pk = s.pk := rfl
@[simp] theorem markToken_mt (b : Bool) (s : State) : (markToken b s).mt = s.mt := rfl
@[simp] theorem markToken_mem (b : Bool) (s : State) : (markToken b s).mem = s.mem := rfl
@[simp] theorem markToken_lost (b : Bool) (s : State) : (markToken b s).lost = s.lost := rfl

@[simp] theorem buildCode_par (o : Config.Oracles) (s : State) : (buildCode o s).par = s.par := rfl
@[simp] theorem buildCode_host (o : Config.Oracles) (s : State) : (buildCode o s).host = s.host := rfl
@[simp] theorem buildCode_reads (o : Config.Oracles) (s : State) : (buildCode o s).reads = s.reads := rfl
@[simp] theorem buildCode_win (o : Config.Oracles) (s : State) : (buildCode o s).win = s.win := rfl
@[simp] theorem buildCode_phase (o : Config.Oracles) (s : State) : (buildCode o s).phase = s.phase := rfl
@[simp] theorem buildCode_cur (o : Config.Oracles) (s : State) : (buildCode o s).cur = s.cur := rfl
@[simp] theorem buildCode_chunkOpen (o : Config.Oracles) (s : State) : (buildCode o s).chunkOpen = s.chunkOpen := rfl
@[simp] theorem buildCode_cnt (o : Config.Oracles) (s : State) : (buildCode o s).cnt = s.cnt := rfl
@[simp] theorem buildCode_rd (o : Config.Oracles) (s : State) : (buildCode o s).rd = s.rd := rfl
@[simp] theorem buildCode_wr (o : Config.Oracles) (s : State) : (buildCode o s).wr = s.wr := rfl
@[simp] theorem buildCode_tk (o : Config.Oracles) (s : State) : (buildCode o s).tk = s.tk := rfl
@[simp] theorem buildCode_pk (o : Config.Oracles) (s : State) : (buildCode o s).pk = s.pk := rfl
@[simp] theorem buildCode_mt (o : Config.Oracles) (s : State) : (buildCode o s).mt = s.mt := rfl
@[simp] theorem buildCode_mem (o : Config.Oracles) (s : State) : (buildCode o s).mem = s.mem := rfl
@[simp] theorem buildCode_lost (o : Config.Oracles) (s : State) : (buildCode o s).lost = s.lost := rfl
@[simp] theorem buildCode_unseen (o : Config.Oracles) (s : State) : (buildCode o s).unseen = s.unseen := rfl
@[simp] theorem buildCode_contested (o : Config.Oracles) (s : State) : (buildCode o s).contested = s.contested := rfl
@[simp] theorem buildCode_scr (o : Config.Oracles) (s : State) : (buildCode o s).scr = s.scr := rfl

@[simp] theorem acceptCommand_par (op : Op) (s : State) : (acceptCommand op s).par = s.par := rfl
@[simp] theorem acceptCommand_host (op : Op) (s : State) : (acceptCommand op s).host = s.host := rfl
@[simp] theorem acceptCommand_reads (op : Op) (s : State) : (acceptCommand op s).reads = s.reads := rfl
@[simp] theorem acceptCommand_phase (op : Op) (s : State) : (acceptCommand op s).phase = s.phase := rfl
@[simp] theorem acceptCommand_chunkOpen (op : Op) (s : State) : (acceptCommand op s).chunkOpen = s.chunkOpen := rfl
@[simp] theorem acceptCommand_cnt (op : Op) (s : State) : (acceptCommand op s).cnt = s.cnt := rfl
@[simp] theorem acceptCommand_len (op : Op) (s : State) : (acceptCommand op s).len = s.len := rfl
@[simp] theorem acceptCommand_rd (op : Op) (s : State) : (acceptCommand op s).rd = s.rd := rfl
@[simp] theorem acceptCommand_wr (op : Op) (s : State) : (acceptCommand op s).wr = s.wr := rfl
@[simp] theorem acceptCommand_tk (op : Op) (s : State) : (acceptCommand op s).tk = s.tk := rfl
@[simp] theorem acceptCommand_pk (op : Op) (s : State) : (acceptCommand op s).pk = s.pk := rfl
@[simp] theorem acceptCommand_mem (op : Op) (s : State) : (acceptCommand op s).mem = s.mem := rfl
@[simp] theorem acceptCommand_lost (op : Op) (s : State) : (acceptCommand op s).lost = s.lost := rfl
@[simp] theorem acceptCommand_unseen (op : Op) (s : State) : (acceptCommand op s).unseen = s.unseen := rfl
@[simp] theorem acceptCommand_contested (op : Op) (s : State) : (acceptCommand op s).contested = [] := rfl
@[simp] theorem acceptCommand_scr (op : Op) (s : State) : (acceptCommand op s).scr = s.scr := rfl

@[simp] theorem illegalCommand_par (s : State) : (illegalCommand s).par = s.par := rfl
@[simp] theorem illegalCommand_host (s : State) : (illegalCommand s).host = s.host := rfl
@[simp] theorem illegalCommand_reads (s : State) : (illegalCommand s).reads = s.reads := rfl
@[simp] theorem illegalCommand_phase (s : State) : (illegalCommand s).phase = s.phase := rfl
@[simp] theorem illegalCommand_cur (s : State) : (illegalCommand s).cur = s.cur := rfl
@[simp] theorem illegalCommand_chunkOpen (s : State) : (illegalCommand s).chunkOpen = s.chunkOpen := rfl
@[simp] theorem illegalCommand_cnt (s : State) : (illegalCommand s).cnt = s.cnt := rfl
@[simp] theorem illegalCommand_len (s : State) : (illegalCommand s).len = s.len := rfl
@[simp] theorem illegalCommand_rd (s : State) : (illegalCommand s).rd = s.rd := rfl
@[simp] theorem illegalCommand_wr (s : State) : (illegalCommand s).wr = s.wr := rfl
@[simp] theorem illegalCommand_tk (s : State) : (illegalCommand s).tk = s.tk := rfl
@[simp] theorem illegalCommand_pk (s : State) : (illegalCommand s).pk = s.pk := rfl
@[simp] theorem illegalCommand_mt (s : State) : (illegalCommand s).mt = s.mt := rfl
@[simp] theorem illegalCommand_mem (s : State) : (illegalCommand s).mem = s.mem := rfl
@[simp] theorem illegalCommand_lost (s : State) : (illegalCommand s).lost = s.lost := rfl
@[simp] theorem illegalCommand_unseen (s : State) : (illegalCommand s).unseen = s.unseen := rfl
@[simp] theorem illegalCommand_contested (s : State) : (illegalCommand s).contested = s.contested := rfl
@[simp] theorem illegalCommand_scr (s : State) : (illegalCommand s).scr = s.scr := rfl

@[simp] theorem logRead_par (v : Word) (s : State) : (logRead v s).par = s.par := rfl
@[simp] theorem logRead_host (v : Word) (s : State) : (logRead v s).host = s.host := rfl
@[simp] theorem logRead_reads (v : Word) (s : State) : (logRead v s).reads = v :: s.reads := rfl
@[simp] theorem logRead_win (v : Word) (s : State) : (logRead v s).win = s.win := rfl
@[simp] theorem logRead_phase (v : Word) (s : State) : (logRead v s).phase = s.phase := rfl
@[simp] theorem logRead_cur (v : Word) (s : State) : (logRead v s).cur = s.cur := rfl
@[simp] theorem logRead_chunkOpen (v : Word) (s : State) : (logRead v s).chunkOpen = s.chunkOpen := rfl
@[simp] theorem logRead_cnt (v : Word) (s : State) : (logRead v s).cnt = s.cnt := rfl
@[simp] theorem logRead_len (v : Word) (s : State) : (logRead v s).len = s.len := rfl
@[simp] theorem logRead_rd (v : Word) (s : State) : (logRead v s).rd = s.rd := rfl
@[simp] theorem logRead_wr (v : Word) (s : State) : (logRead v s).wr = s.wr := rfl
@[simp] theorem logRead_tk (v : Word) (s : State) : (logRead v s).tk = s.tk := rfl
@[simp] theorem logRead_pk (v : Word) (s : State) : (logRead v s).pk = s.pk := rfl
@[simp] theorem logRead_mt (v : Word) (s : State) : (logRead v s).mt = s.mt := rfl
@[simp] theorem logRead_mem (v : Word) (s : State) : (logRead v s).mem = s.mem := rfl
@[simp] theorem logRead_lost (v : Word) (s : State) : (logRead v s).lost = s.lost := rfl
@[simp] theorem logRead_unseen (v : Word) (s : State) : (logRead v s).unseen = s.unseen := rfl
@[simp] theorem logRead_contested (v : Word) (s : State) : (logRead v s).contested = s.contested := rfl
@[simp] theorem logRead_scr (v : Word) (s : State) : (logRead v s).scr = s.scr := rfl

@[simp] theorem State.synchronise_par (s : State) : s.synchronise.par = s.par := rfl
@[simp] theorem State.synchronise_host (s : State) : s.synchronise.host = s.host := rfl
@[simp] theorem State.synchronise_reads (s : State) : s.synchronise.reads = s.reads := rfl
@[simp] theorem State.synchronise_win (s : State) : s.synchronise.win = s.win := rfl
@[simp] theorem State.synchronise_phase (s : State) : s.synchronise.phase = s.phase := rfl
@[simp] theorem State.synchronise_cur (s : State) : s.synchronise.cur = s.cur := rfl
@[simp] theorem State.synchronise_chunkOpen (s : State) : s.synchronise.chunkOpen = s.chunkOpen := rfl
@[simp] theorem State.synchronise_cnt (s : State) : s.synchronise.cnt = s.cnt := rfl
@[simp] theorem State.synchronise_len (s : State) : s.synchronise.len = s.len := rfl
@[simp] theorem State.synchronise_rd (s : State) : s.synchronise.rd = s.rd := rfl
@[simp] theorem State.synchronise_wr (s : State) : s.synchronise.wr = s.wr := rfl
@[simp] theorem State.synchronise_tk (s : State) : s.synchronise.tk = s.tk := rfl
@[simp] theorem State.synchronise_pk (s : State) : s.synchronise.pk = s.pk := rfl
@[simp] theorem State.synchronise_mt (s : State) : s.synchronise.mt = s.mt := rfl
@[simp] theorem State.synchronise_mem (s : State) : s.synchronise.mem = s.mem := rfl
@[simp] theorem State.synchronise_lost (s : State) : s.synchronise.lost = s.lost := rfl
@[simp] theorem State.synchronise_unseen (s : State) : s.synchronise.unseen = [] := rfl
@[simp] theorem State.synchronise_contested (s : State) : s.synchronise.contested = s.contested := rfl
@[simp] theorem State.synchronise_scr (s : State) : s.synchronise.scr = s.scr := rfl

@[simp] theorem hostRegLoad_par (off : Nat) (s : State) : (hostRegLoad off s).par = s.par := rfl
@[simp] theorem hostRegLoad_host (off : Nat) (s : State) : (hostRegLoad off s).host = s.host := rfl
@[simp] theorem hostRegLoad_reads (off : Nat) (s : State) : (hostRegLoad off s).reads = regRead off s :: s.reads := rfl
@[simp] theorem hostRegLoad_win (off : Nat) (s : State) : (hostRegLoad off s).win = s.win := rfl
@[simp] theorem hostRegLoad_phase (off : Nat) (s : State) : (hostRegLoad off s).phase = s.phase := rfl
@[simp] theorem hostRegLoad_cur (off : Nat) (s : State) : (hostRegLoad off s).cur = s.cur := rfl
@[simp] theorem hostRegLoad_chunkOpen (off : Nat) (s : State) : (hostRegLoad off s).chunkOpen = s.chunkOpen := rfl
@[simp] theorem hostRegLoad_cnt (off : Nat) (s : State) : (hostRegLoad off s).cnt = s.cnt := rfl
@[simp] theorem hostRegLoad_len (off : Nat) (s : State) : (hostRegLoad off s).len = s.len := rfl
@[simp] theorem hostRegLoad_rd (off : Nat) (s : State) : (hostRegLoad off s).rd = s.rd := rfl
@[simp] theorem hostRegLoad_wr (off : Nat) (s : State) : (hostRegLoad off s).wr = s.wr := rfl
@[simp] theorem hostRegLoad_tk (off : Nat) (s : State) : (hostRegLoad off s).tk = s.tk := rfl
@[simp] theorem hostRegLoad_pk (off : Nat) (s : State) : (hostRegLoad off s).pk = s.pk := rfl
@[simp] theorem hostRegLoad_mt (off : Nat) (s : State) : (hostRegLoad off s).mt = s.mt := rfl
@[simp] theorem hostRegLoad_mem (off : Nat) (s : State) : (hostRegLoad off s).mem = s.mem := rfl
@[simp] theorem hostRegLoad_lost (off : Nat) (s : State) : (hostRegLoad off s).lost = s.lost := rfl
@[simp] theorem hostRegLoad_unseen (off : Nat) (s : State) :
    (hostRegLoad off s).unseen = if off = 0x04 ∧ s.busy = false then [] else s.unseen := rfl
@[simp] theorem hostRegLoad_contested (off : Nat) (s : State) : (hostRegLoad off s).contested = s.contested := rfl
@[simp] theorem hostRegLoad_scr (off : Nat) (s : State) : (hostRegLoad off s).scr = s.scr := rfl

@[simp] theorem hostWrite_par (a : Word) (v : Byte) (s : State) : (hostWrite a v s).par = s.par := rfl
@[simp] theorem hostWrite_host (a : Word) (v : Byte) (s : State) : (hostWrite a v s).host = s.host := rfl
@[simp] theorem hostWrite_reads (a : Word) (v : Byte) (s : State) : (hostWrite a v s).reads = s.reads := rfl
@[simp] theorem hostWrite_win (a : Word) (v : Byte) (s : State) : (hostWrite a v s).win = s.win := rfl
@[simp] theorem hostWrite_phase (a : Word) (v : Byte) (s : State) : (hostWrite a v s).phase = s.phase := rfl
@[simp] theorem hostWrite_cur (a : Word) (v : Byte) (s : State) : (hostWrite a v s).cur = s.cur := rfl
@[simp] theorem hostWrite_chunkOpen (a : Word) (v : Byte) (s : State) : (hostWrite a v s).chunkOpen = s.chunkOpen := rfl
@[simp] theorem hostWrite_cnt (a : Word) (v : Byte) (s : State) : (hostWrite a v s).cnt = s.cnt := rfl
@[simp] theorem hostWrite_len (a : Word) (v : Byte) (s : State) : (hostWrite a v s).len = s.len := rfl
@[simp] theorem hostWrite_rd (a : Word) (v : Byte) (s : State) : (hostWrite a v s).rd = s.rd := rfl
@[simp] theorem hostWrite_wr (a : Word) (v : Byte) (s : State) : (hostWrite a v s).wr = s.wr := rfl
@[simp] theorem hostWrite_tk (a : Word) (v : Byte) (s : State) : (hostWrite a v s).tk = s.tk := rfl
@[simp] theorem hostWrite_pk (a : Word) (v : Byte) (s : State) : (hostWrite a v s).pk = s.pk := rfl
@[simp] theorem hostWrite_mt (a : Word) (v : Byte) (s : State) : (hostWrite a v s).mt = s.mt := rfl
@[simp] theorem hostWrite_mem (a : Word) (v : Byte) (s : State) : (hostWrite a v s).mem = s.mem.put a.toNat v := rfl
@[simp] theorem hostWrite_lost (a : Word) (v : Byte) (s : State) : (hostWrite a v s).lost = s.lost := rfl
@[simp] theorem hostWrite_unseen (a : Word) (v : Byte) (s : State) : (hostWrite a v s).unseen = s.unseen := rfl
@[simp] theorem hostWrite_contested (a : Word) (v : Byte) (s : State) :
    (hostWrite a v s).contested =
      if s.isUnseen a then a.toNat :: s.contested.filter (· != a.toNat) else s.contested.filter (· != a.toNat) := rfl
@[simp] theorem hostWrite_scr (a : Word) (v : Byte) (s : State) : (hostWrite a v s).scr = s.scr := rfl

@[simp] theorem completeOk_phase (s : State) : (completeOk s).phase = .idle := rfl

@[simp] theorem completeErr_phase (e : Err) (s : State) : (completeErr e s).phase = .idle := rfl

@[simp] theorem completeErr_await (e : Err) (s : State) : (completeErr e s).mt.await = false := rfl

@[simp] theorem completeErr_mem (e : Err) (s : State) :
    (completeErr e s).mem = s.mem.forget s.cur.dst.toNat s.cur.cap.toNat := rfl

@[simp] theorem completeErr_lost (e : Err) (s : State) :
    (completeErr e s).lost = (s.cur.dst.toNat, s.cur.cap.toNat) :: s.lost := rfl

/-- The cleared counters written out; used from right to left, so that `simp` meets the name only. -/
theorem zeroCounts_eq : zeroCounts = List.replicate 512 0 := rfl

@[simp] theorem zeroCounts_length : zeroCounts.length = 512 := List.length_replicate

@[simp] theorem zeroLengths_length : zeroLengths.length = 512 := List.length_replicate

@[simp] theorem State.reset_par : State.reset.par = ⟨0x40000000#32, 73730⟩ := rfl
@[simp] theorem State.reset_host : State.reset.host = [] := rfl
@[simp] theorem State.reset_reads : State.reset.reads = [] := rfl
@[simp] theorem State.reset_win : State.reset.win = ⟨0, 0, 0, 0, 0, 0, 0, 0⟩ := rfl
@[simp] theorem State.reset_phase : State.reset.phase = .idle := rfl
@[simp] theorem State.reset_cur : State.reset.cur = ⟨.compress, 0, 0, 0, 0, 0, 0, 0, 0, false, false⟩ := rfl
@[simp] theorem State.reset_chunkOpen : State.reset.chunkOpen = false := rfl
@[simp] theorem State.reset_cnt : State.reset.cnt = zeroCounts := rfl
@[simp] theorem State.reset_len : State.reset.len = zeroLengths := rfl
@[simp] theorem State.reset_rd : State.reset.rd = ⟨0, 0, 0⟩ := rfl
@[simp] theorem State.reset_wr : State.reset.wr = ⟨0, 0, 0, 0, 0⟩ := rfl
@[simp] theorem State.reset_tk : State.reset.tk = ⟨0, 0, 0, 32, 0, 0⟩ := rfl
@[simp] theorem State.reset_pk : State.reset.pk = ⟨0, 0, 32⟩ := rfl
@[simp] theorem State.reset_mt : State.reset.mt = ⟨0, 0, 0, false⟩ := rfl
@[simp] theorem State.reset_mem : State.reset.mem = [] := rfl
@[simp] theorem State.reset_lost : State.reset.lost = [] := rfl
@[simp] theorem State.reset_unseen : State.reset.unseen = [] := rfl
@[simp] theorem State.reset_contested : State.reset.contested = [] := rfl
@[simp] theorem State.reset_scr : State.reset.scr = [] := rfl

@[simp] theorem hostReset_par (s : State) : (hostReset s).par = s.par := by simp only [hostReset]; split <;> rfl
@[simp] theorem hostReset_host (s : State) : (hostReset s).host = s.host := by simp only [hostReset]; split <;> rfl
@[simp] theorem hostReset_reads (s : State) : (hostReset s).reads = s.reads := by simp only [hostReset]; split <;> rfl
@[simp] theorem hostReset_win (s : State) : (hostReset s).win = State.reset.win := rfl
@[simp] theorem hostReset_phase (s : State) : (hostReset s).phase = State.reset.phase := rfl
@[simp] theorem hostReset_cur (s : State) : (hostReset s).cur = State.reset.cur := rfl
@[simp] theorem hostReset_chunkOpen (s : State) : (hostReset s).chunkOpen = State.reset.chunkOpen := rfl
@[simp] theorem hostReset_cnt (s : State) : (hostReset s).cnt = State.reset.cnt := rfl
@[simp] theorem hostReset_len (s : State) : (hostReset s).len = State.reset.len := rfl
@[simp] theorem hostReset_rd (s : State) : (hostReset s).rd = State.reset.rd := rfl
@[simp] theorem hostReset_wr (s : State) : (hostReset s).wr = State.reset.wr := rfl
@[simp] theorem hostReset_tk (s : State) : (hostReset s).tk = State.reset.tk := rfl
@[simp] theorem hostReset_pk (s : State) : (hostReset s).pk = State.reset.pk := rfl
@[simp] theorem hostReset_mt (s : State) : (hostReset s).mt = State.reset.mt := rfl
@[simp] theorem hostReset_mem (s : State) : (hostReset s).mem = (if s.busy then s.loseOutput else s).mem := rfl
@[simp] theorem hostReset_lost (s : State) : (hostReset s).lost = (if s.busy then s.loseOutput else s).lost := rfl
@[simp] theorem hostReset_unseen (s : State) : (hostReset s).unseen = (if s.busy then s.loseOutput else s).unseen := rfl
@[simp] theorem hostReset_contested (s : State) : (hostReset s).contested = s.contested := by simp only [hostReset]; split <;> rfl
@[simp] theorem hostReset_scr (s : State) : (hostReset s).scr = State.reset.scr := rfl

end Sys2Proof.Machine
end

