-- ==== Sys2Proof/Laws/Memory.lean ====
section
/-! SUPPORT. What the memory operations do: a read after a write, the canonical form, the addresses of a run of bytes,
and the bytes an error makes unspecified. -/

namespace Sys2Proof.Machine

@[simp] theorem Memory.find_put_same (m : Memory) (a : Nat) (v : Byte) : (m.put a v).find a = some v := by
  induction m with
  | nil => simp [Memory.put, Memory.find]
  | cons c m ih =>
    obtain ⟨k, b⟩ := c
    unfold Memory.put
    split
    · simp [Memory.find]
    · split
      · simp [Memory.find]
      · rename_i h1 h2
        simp [Memory.find, ih, Ne.symm h2]

theorem Memory.find_put_other (m : Memory) {a x : Nat} (v : Byte) (h : x ≠ a) : (m.put a v).find x = m.find x := by
  induction m with
  | nil => simp [Memory.put, Memory.find, Ne.symm h]
  | cons c m ih =>
    obtain ⟨k, b⟩ := c
    unfold Memory.put
    split
    · simp [Memory.find, Ne.symm h]
    · split
      · rename_i h1 h2
        subst h2
        simp [Memory.find, Ne.symm h]
      · simp [Memory.find, ih]

theorem Memory.mem_put {m : Memory} {a : Nat} {v : Byte} {c : Host.Cell} (h : c ∈ m.put a v) : c = (a, v) ∨ c ∈ m := by
  induction m with
  | nil => simpa [Memory.put] using h
  | cons d m ih =>
    obtain ⟨k, b⟩ := d
    unfold Memory.put at h
    split at h
    · simpa using h
    · split at h
      · rcases List.mem_cons.1 h with h | h
        · exact .inl h
        · exact .inr (List.mem_cons_of_mem _ h)
      · rcases List.mem_cons.1 h with h | h
        · exact .inr (by simp [h])
        · rcases ih h with h | h
          · exact .inl h
          · exact .inr (List.mem_cons_of_mem _ h)

/-- Storing a byte below the bound keeps the canonical form. -/
theorem Memory.put_wf {m : Memory} {bound a : Nat} (v : Byte) (h : m.wf bound) (ha : a < bound) : (m.put a v).wf bound := by
  refine ⟨?_, fun c hc => ?_⟩
  · have hp := h.1
    clear h
    induction m with
    | nil => simp [Memory.put]
    | cons d m ih =>
      obtain ⟨k, b⟩ := d
      rw [List.pairwise_cons] at hp
      unfold Memory.put
      split
      · rename_i hak
        rw [List.pairwise_cons, List.pairwise_cons]
        refine ⟨fun c hc => ?_, hp⟩
        rcases List.mem_cons.1 hc with rfl | hc
        · exact hak
        · exact lt_trans hak (hp.1 c hc)
      · split
        · rename_i hak
          subst hak
          rw [List.pairwise_cons]
          exact ⟨fun c hc => hp.1 c hc, hp.2⟩
        · rename_i h1 h2
          rw [List.pairwise_cons]
          refine ⟨fun c hc => ?_, ih hp.2⟩
          rcases Memory.mem_put hc with rfl | hc
          · show k < a
            omega
          · exact hp.1 c hc
  · rcases Memory.mem_put hc with rfl | hc
    · exact ha
    · exact h.2 c hc

/-- Forgetting bytes keeps the canonical form. -/
theorem Memory.forget_wf {m : Memory} {bound : Nat} (lo n : Nat) (h : m.wf bound) : (m.forget lo n).wf bound :=
  ⟨h.1.filter _, fun c hc => h.2 c (List.mem_filter.1 hc).1⟩

theorem Memory.find_forget_outside (m : Memory) (lo n : Nat) {a : Nat} (h : ¬(lo ≤ a ∧ a < lo + n)) :
    (m.forget lo n).find a = m.find a := by
  induction m with
  | nil => rfl
  | cons d m ih =>
    obtain ⟨k, b⟩ := d
    by_cases hk : lo ≤ k ∧ k < lo + n
    · have hka : k ≠ a := fun e => h (e ▸ hk)
      have : Memory.forget ((k, b) :: m) lo n = Memory.forget m lo n := by simp [Memory.forget, hk.1, hk.2]
      rw [this, ih]
      simp [Memory.find, hka]
    · have : Memory.forget ((k, b) :: m) lo n = (k, b) :: Memory.forget m lo n := by
        simp only [Memory.forget, List.filter_cons]
        simp
        omega
      rw [this]
      simp [Memory.find, ih]

theorem Memory.find_forget_inside (m : Memory) (lo n : Nat) {a : Nat} (h : lo ≤ a ∧ a < lo + n) :
    (m.forget lo n).find a = none := by
  induction m with
  | nil => rfl
  | cons d m ih =>
    obtain ⟨k, b⟩ := d
    by_cases hk : lo ≤ k ∧ k < lo + n
    · have : Memory.forget ((k, b) :: m) lo n = Memory.forget m lo n := by simp [Memory.forget, hk.1, hk.2]
      rw [this, ih]
    · have hka : k ≠ a := fun e => hk (e ▸ h)
      have : Memory.forget ((k, b) :: m) lo n = (k, b) :: Memory.forget m lo n := by
        simp only [Memory.forget, List.filter_cons]
        simp
        omega
      rw [this]
      simp [Memory.find, hka, ih]

/-- A run of stored bytes keeps the canonical form: every 32-bit address exists (R80). -/
theorem Memory.putBytes_wf {m : Memory} (a : Word) (bs : List Byte) (h : m.wf memBound) :
    (m.putBytes a bs).wf memBound := by
  induction bs generalizing m a with
  | nil => exact h
  | cons b bs ih => exact ih _ (Memory.put_wf b h a.isLt)

theorem Memory.putList_wf {m : Memory} {bound : Nat} (i : Nat) (bs : List Byte) (h : m.wf bound)
    (hi : bs = [] ∨ i + bs.length ≤ bound) : (m.putList i bs).wf bound := by
  induction bs generalizing m i with
  | nil => exact h
  | cons b bs ih =>
    have hi : i + (bs.length + 1) ≤ bound := by simpa using hi
    exact ih _ (Memory.put_wf b h (by omega)) (.inr (by omega))

/-- Index `x` lies `j` bytes after address `a`: the address of byte `j` of a run at `a`. -/
theorem Memory.find_putBytes_other {m : Memory} {a : Word} {bs : List Byte} {x : Nat}
    (h : ∀ j < bs.length, x ≠ (a + BitVec.ofNat 32 j).toNat) : (m.putBytes a bs).find x = m.find x := by
  induction bs generalizing m a with
  | nil => rfl
  | cons b bs ih =>
    have h0 := h 0 (by simp)
    simp only [BitVec.add_zero] at h0
    rw [Memory.putBytes, ih, Memory.find_put_other _ _ h0]
    intro j hj
    have := h (j + 1) (by simpa using hj)
    intro e
    apply this
    rw [e]
    congr 1
    rw [BitVec.add_assoc]
    congr 1
    apply BitVec.eq_of_toNat_eq
    simp [Nat.add_comm]

theorem Memory.find_putBytes_at {m : Memory} {a : Word} {bs : List Byte} {j : Nat} (hj : j < bs.length)
    (hlen : bs.length ≤ memBound) : (m.putBytes a bs).find (a + BitVec.ofNat 32 j).toNat = some bs[j] := by
  induction bs generalizing m a j with
  | nil => simp at hj
  | cons b bs ih =>
    have hlen' : bs.length + 1 ≤ memBound := by simpa using hlen
    cases j with
    | zero =>
      rw [Memory.putBytes, Memory.find_putBytes_other]
      · simp
      · intro i hi e
        have hi' : i + 1 < 4294967296 := by unfold memBound at hlen'; omega
        have := a.isLt
        simp [BitVec.toNat_add] at e
        omega
    | succ j =>
      have e : a + BitVec.ofNat 32 (j + 1) = (a + 1#32) + BitVec.ofNat 32 j := by
        rw [BitVec.add_assoc]
        congr 1
        apply BitVec.eq_of_toNat_eq
        simp [Nat.add_comm]
      rw [e, Memory.putBytes, ih (by simpa using hj) (by omega)]
      simp

/-- The number of losses that cover an address does not change for an address outside the lost range. -/
theorem lostCount_cons_outside {lost : List (Nat × Nat)} {lo n a : Nat} (h : ¬(lo ≤ a ∧ a < lo + n)) :
    lostCount ((lo, n) :: lost) a = lostCount lost a := by
  have : (decide (lo ≤ a) && decide (a < lo + n)) = false := by
    rw [Bool.eq_false_iff]
    simpa using h
  simp [lostCount, this]

/-- Reading a byte depends on the two memory fields alone. -/
theorem State.readByte_congr {s t : State} (hm : t.mem = s.mem) (hl : t.lost = s.lost) (a : Word) :
    t.readByte a = s.readByte a := by simp [State.readByte, State.unlisted, hm, hl]

@[simp] theorem State.readByte_writeByte_same (s : State) (a : Word) (v : Byte) : (s.writeByte a v).readByte a = v := by
  simp [State.readByte]

theorem State.readByte_writeByte_other (s : State) {a x : Word} (v : Byte) (h : x ≠ a) :
    (s.writeByte a v).readByte x = s.readByte x := by
  have : x.toNat ≠ a.toNat := fun e => h (BitVec.eq_of_toNat_eq e)
  simp [State.readByte, State.unlisted, Memory.find_put_other _ _ this]

theorem State.readByte_writeOut_other (s : State) {off : Nat} {bs : List Byte} {x : Word}
    (h : ∀ j < bs.length, x ≠ s.outAddr (off + j)) : (s.writeOut off bs).readByte x = s.readByte x := by
  simp only [State.readByte, State.unlisted, State.writeOut_mem, State.writeOut_lost]
  rw [Memory.find_putBytes_other]
  intro j hj e
  apply h j hj
  apply BitVec.eq_of_toNat_eq
  rw [e]
  congr 1
  simp only [State.outAddr, BitVec.add_assoc]
  congr 1
  apply BitVec.eq_of_toNat_eq
  simp

theorem State.readByte_writeOut_at (s : State) {off : Nat} {bs : List Byte} {j : Nat} (hj : j < bs.length)
    (hlen : bs.length ≤ memBound) : (s.writeOut off bs).readByte (s.outAddr (off + j)) = bs[j] := by
  have e : s.outAddr (off + j) = s.outAddr off + BitVec.ofNat 32 j := by
    simp only [State.outAddr, BitVec.add_assoc]
    congr 1
    apply BitVec.eq_of_toNat_eq
    simp
  simp only [State.readByte, State.writeOut_mem]
  rw [e, Memory.find_putBytes_at hj hlen]
  rfl

/-- Losing a range changes no byte outside it. -/
theorem State.readByte_lose_outside (s : State) {lo n : Nat} {a : Word} (h : ¬(lo ≤ a.toNat ∧ a.toNat < lo + n)) :
    (s.lose lo n).readByte a = s.readByte a := by
  simp only [State.readByte, State.unlisted, State.lose_mem, State.lose_lost, Memory.find_forget_outside _ _ _ h,
    lostCount_cons_outside h]

/-- A lost byte has no known value, and a fresh free one (log entry 7). -/
theorem State.lose_inside (s : State) {lo n a : Nat} (h : lo ≤ a ∧ a < lo + n) :
    (s.lose lo n).mem.find a = none ∧ lostCount (s.lose lo n).lost a = lostCount s.lost a + 1 :=
  ⟨Memory.find_forget_inside s.mem _ _ h, by simp [lostCount, h.1, h.2]⟩

/-- Outside the output buffer an error changes no byte (R99). -/
theorem completeErr_readByte (e : Err) (s : State) {a : Word}
    (h : ¬(s.cur.dst.toNat ≤ a.toNat ∧ a.toNat < s.cur.dst.toNat + s.cur.cap.toNat)) :
    (completeErr e s).readByte a = s.readByte a := State.readByte_lose_outside s h

end Sys2Proof.Machine
end

