-- ==== Sys2Proof/Laws/Datapath.lean ====
section
/-! SUPPORT. What the datapath's operations do: what every one of them leaves alone (SameSide, Quiet), where their bytes
go, how an error completes, runs of raw bytes, and the copy. -/

namespace Sys2Proof.Machine

@[simp] theorem Res.andThen_ok {α β : Type} (a : α) (s : State) (f : α → State → Res β) :
    (Res.ok a s).andThen f = f a s := rfl

@[simp] theorem Res.andThen_raise {α β : Type} (e : Err) (s : State) (f : α → State → Res β) :
    (Res.raise e s).andThen f = .raise e s := rfl

/-- The state an operation ends in, raised or not. -/
def Res.state {α : Type} : Res α → State
  | .ok _ s => s
  | .raise _ s => s

@[simp] theorem Res.state_ok {α : Type} (a : α) (s : State) : (Res.ok a s).state = s := rfl

@[simp] theorem Res.state_raise {α : Type} (e : Err) (s : State) : (Res.raise e s : Res α).state = s := rfl

/-- An engine operation goes on, or completes with the error it raised (R27, R310). -/
theorem settle_next {r : Res Unit} {t : State} (h : settle r = .next t) :
    r = .ok () t ∨ ∃ e u, r = .raise e u ∧ t = completeErr e u := by
  cases r with
  | ok a s => simp [settle] at h; exact .inl (by rw [h])
  | raise e s => simp [settle] at h; exact .inr ⟨e, s, rfl, h.symm⟩

/-- What a step of a running command leaves alone: the host's side, the parameters, the window and the latched operands. -/
def SameSide (s t : State) : Prop :=
  t.par = s.par ∧ t.host = s.host ∧ t.reads = s.reads ∧ t.unseen = s.unseen ∧ t.contested = s.contested ∧ t.win = s.win ∧
    t.cur.op = s.cur.op ∧ t.cur.src = s.cur.src ∧
    t.cur.slen = s.cur.slen ∧ t.cur.dst = s.cur.dst ∧ t.cur.cap = s.cur.cap

theorem SameSide.refl (s : State) : SameSide s s := ⟨rfl, rfl, rfl, rfl, rfl, rfl, rfl, rfl, rfl, rfl, rfl⟩

theorem SameSide.trans {s t u : State} (h : SameSide s t) (h' : SameSide t u) : SameSide s u := by
  obtain ⟨a1, a2, a3, a4, a5, a6, a7, a8, a9, a10, a11⟩ := h
  obtain ⟨b1, b2, b3, b4, b5, b6, b7, b8, b9, b10, b11⟩ := h'
  exact ⟨b1.trans a1, b2.trans a2, b3.trans a3, b4.trans a4, b5.trans a5, b6.trans a6, b7.trans a7, b8.trans a8, b9.trans a9,
    b10.trans a10, b11.trans a11⟩

/-- An operation of the datapath keeps the host's side and the phase. -/
def Res.Quiet {α : Type} (s : State) (r : Res α) : Prop := SameSide s r.state ∧ r.state.phase = s.phase

theorem Res.Quiet.andThen {α β : Type} {s : State} {r : Res α} {f : α → State → Res β} (h : r.Quiet s)
    (hf : ∀ a t, (f a t).Quiet t) : (r.andThen f).Quiet s := by
  cases r with
  | ok a t => exact ⟨h.1.trans (hf a t).1, (hf a t).2.trans h.2⟩
  | raise e t => exact h

theorem quiet_rfl {α : Type} (a : α) (s : State) : (Res.ok a s).Quiet s := ⟨SameSide.refl s, rfl⟩

theorem quiet_raise {α : Type} (e : Err) (s : State) : (Res.raise e s : Res α).Quiet s := ⟨SameSide.refl s, rfl⟩

theorem writeBits_quiet (v n : Nat) (s : State) : (writeBits v n s).Quiet s := by
  unfold writeBits; repeat' split
  all_goals exact ⟨⟨rfl, rfl, rfl, rfl, rfl, rfl, rfl, rfl, rfl, rfl, rfl⟩, rfl⟩

theorem writeRaw_quiet (v m : Nat) (s : State) : (writeRaw v m s).Quiet s := by
  unfold writeRaw; repeat' split
  all_goals exact ⟨⟨rfl, rfl, rfl, rfl, rfl, rfl, rfl, rfl, rfl, rfl, rfl⟩, rfl⟩

theorem encodeSym_quiet (y : Nat) (s : State) : (encodeSym y s).Quiet s := by
  unfold encodeSym; split
  · exact quiet_raise _ s
  · exact writeBits_quiet _ _ s

theorem writeExtension_quiet (l : Nat) (s : State) : (writeExtension l s).Quiet s := by
  unfold writeExtension; split
  · exact quiet_rfl _ s
  · exact writeRaw_quiet _ _ s
  · exact (writeRaw_quiet _ _ s).andThen fun _ t => writeRaw_quiet _ _ t
  · exact (writeRaw_quiet _ _ s).andThen fun _ t => (writeRaw_quiet _ _ t).andThen fun _ u => writeRaw_quiet _ _ u

theorem writeResidual_quiet (off : Nat) (s : State) : (writeResidual off s).Quiet s := by
  unfold writeResidual; split
  · exact quiet_rfl _ s
  · exact writeBits_quiet _ _ s

theorem packMatch_quiet (off l : Nat) (s : State) : (packMatch off l s).Quiet s :=
  (encodeSym_quiet _ s).andThen fun _ t => (writeExtension_quiet l t).andThen fun _ u => writeResidual_quiet off u

theorem copyRun_quiet (off n : Nat) (s : State) : SameSide s (copyRun off n s) ∧ (copyRun off n s).phase = s.phase := by
  induction n generalizing s with
  | zero => exact ⟨SameSide.refl s, rfl⟩
  | succ n ih =>
    have h : SameSide s (copyByte off s) := ⟨rfl, rfl, rfl, rfl, rfl, rfl, rfl, rfl, rfl, rfl, rfl⟩
    exact ⟨h.trans (ih _).1, (ih _).2.trans rfl⟩

theorem skip_same (n : Nat) (s : State) : SameSide s (skip n s) ∧ (skip n s).phase = s.phase :=
  ⟨⟨rfl, rfl, rfl, rfl, rfl, rfl, rfl, rfl, rfl, rfl, rfl⟩, rfl⟩

theorem finishMatch_quiet (l : Nat) (s : State) : (finishMatch l s).Quiet s := by
  unfold finishMatch; split
  · exact quiet_raise _ s
  · have h : SameSide s (skip s.mt.o.toNat { s with mt := { s.mt with await := false } }) := ⟨rfl, rfl, rfl, rfl, rfl, rfl, rfl, rfl, rfl, rfl, rfl⟩
    exact ⟨h.trans (copyRun_quiet _ _ _).1, (copyRun_quiet _ _ _).2⟩

theorem lengthAction_quiet (g : LenForm) (s : State) : (lengthAction g s).Quiet s := by
  unfold lengthAction; split
  · exact finishMatch_quiet _ s
  · exact quiet_raise _ s

theorem fetchLength_quiet (n : BitVec 4) (s : State) : (fetchLength n s).Quiet s := by
  unfold fetchLength; split
  · exact ⟨⟨rfl, rfl, rfl, rfl, rfl, rfl, rfl, rfl, rfl, rfl, rfl⟩, rfl⟩
  · exact quiet_raise _ s

theorem matchSymbol_quiet (o n : BitVec 4) (s : State) : (matchSymbol o n s).Quiet s := by
  unfold matchSymbol beginMatch resolveOffset
  refine Res.Quiet.andThen ?_ fun _ t => (fetchLength_quiet _ t).andThen lengthAction_quiet
  refine Res.Quiet.andThen ?_ fun _ _ => ⟨⟨rfl, rfl, rfl, rfl, rfl, rfl, rfl, rfl, rfl, rfl, rfl⟩, rfl⟩
  repeat' split
  all_goals exact ⟨⟨rfl, rfl, rfl, rfl, rfl, rfl, rfl, rfl, rfl, rfl, rfl⟩, rfl⟩

theorem literal_quiet (b : Byte) (s : State) : (literal b s).Quiet s := by
  unfold literal; split
  all_goals exact ⟨⟨rfl, rfl, rfl, rfl, rfl, rfl, rfl, rfl, rfl, rfl, rfl⟩, rfl⟩

theorem decodeFrom_quiet (s : State) (f : Nat) : (decodeFrom s f).Quiet s := by
  induction f with
  | zero => exact quiet_raise _ s
  | succ f ih =>
    simp only [decodeFrom]; repeat' split
    · exact quiet_raise _ s
    · exact ⟨(skip_same _ s).1, rfl⟩
    · exact ih

theorem openToken_quiet (m : Bool) (s : State) : (openToken m s).Quiet s := by
  unfold openToken openGroup
  refine Res.Quiet.andThen ?_ fun _ _ => ⟨⟨rfl, rfl, rfl, rfl, rfl, rfl, rfl, rfl, rfl, rfl, rfl⟩, rfl⟩
  repeat' split
  all_goals exact ⟨⟨rfl, rfl, rfl, rfl, rfl, rfl, rfl, rfl, rfl, rfl, rfl⟩, rfl⟩

theorem appendScr_quiet (bs : List Byte) (s : State) : (appendScr bs s).Quiet s := by
  unfold appendScr; split
  all_goals exact ⟨⟨rfl, rfl, rfl, rfl, rfl, rfl, rfl, rfl, rfl, rfl, rfl⟩, rfl⟩

theorem tokMatch_quiet (off : Half) (n : Nat) (s : State) : (tokMatch off n s).Quiet s :=
  (openToken_quiet _ s).andThen fun _ t => (appendScr_quiet _ t).andThen fun _ _ => ⟨⟨rfl, rfl, rfl, rfl, rfl, rfl, rfl, rfl, rfl, rfl, rfl⟩, rfl⟩

theorem tokLit_quiet (b : Byte) (s : State) : (tokLit b s).Quiet s :=
  (openToken_quiet _ s).andThen fun _ t => (appendScr_quiet _ t).andThen fun _ _ => ⟨⟨rfl, rfl, rfl, rfl, rfl, rfl, rfl, rfl, rfl, rfl, rfl⟩, rfl⟩

theorem tokEos_quiet (s : State) : (tokEos s).Quiet s :=
  (openToken_quiet _ s).andThen fun _ t => (appendScr_quiet _ t).andThen fun _ _ => ⟨⟨rfl, rfl, rfl, rfl, rfl, rfl, rfl, rfl, rfl, rfl, rfl⟩, rfl⟩

theorem tokenFor_quiet (a : Nat × Nat) (s : State) : (tokenFor a s).Quiet s := by
  unfold tokenFor; dsimp only; split
  · exact tokMatch_quiet _ _ s
  · exact tokLit_quiet _ s

theorem checkCapacity_quiet (s : State) : (checkCapacity s).Quiet s := by
  unfold checkCapacity; split
  · exact quiet_raise _ s
  · exact quiet_rfl _ s

theorem openChunk_quiet (s : State) : (openChunk s).Quiet s :=
  (checkCapacity_quiet s).andThen fun _ _ => ⟨⟨rfl, rfl, rfl, rfl, rfl, rfl, rfl, rfl, rfl, rfl, rfl⟩, rfl⟩

theorem gate_iff (s : State) : gate s = true ↔ s.cur.outPos.toNat - s.cur.chunkOutStart.toNat < 65536 ∨ s.rd.buf ≠ 0 := by
  unfold gate maskIsZero
  rw [Bool.or_eq_true, decide_eq_true_iff]
  simp [Config.chunkSize]

/-- Completion with an error after an operation that kept the host's side and the bytes outside the output (R99, R310). -/
theorem failed_of {e : Err} {s u : State} (h1 : u.par = s.par) (h2 : u.host = s.host) (h3 : u.reads = s.reads)
    (h8 : u.unseen = s.unseen) (h9 : u.contested = s.contested) (h4 : u.win = s.win) (h5 : u.cur.dst = s.cur.dst) (h6 : u.cur.cap = s.cur.cap)
    (h7 : ∀ a, ¬InOutput s a → u.readByte a = s.readByte a) : FailedWith e.code s (completeErr e u) := by
  refine ⟨rfl, rfl, h1, h2, h3, by simp [h5, h6, h8], h9, ?_, ?_⟩
  · simp [completeErr, h4]
  · intro a ha
    rw [completeErr_readByte, h7 a ha]
    rw [h5, h6]; exact ha

theorem failed_self (e : Err) (s : State) : FailedWith e.code s (completeErr e s) :=
  failed_of rfl rfl rfl rfl rfl rfl rfl rfl fun _ _ => rfl

theorem buffersOk_dst {src slen dst cap : Word} (h : buffersOk src slen dst cap = true) : dst.toNat + cap.toNat ≤ 4294967296 := by
  simp only [buffersOk, Bool.and_eq_true] at h
  exact of_decide_eq_true h.1.2

theorem outAddr_inj (s : State) {i j : Nat} (hi : i < 4294967296) (hj : j < 4294967296) (h : s.outAddr i = s.outAddr j) : i = j := by
  unfold State.outAddr at h
  have := congrArg BitVec.toNat h
  simp [BitVec.toNat_add] at this
  omega

theorem outAddr_toNat {s : State} (hb : buffersOk s.cur.src s.cur.slen s.cur.dst s.cur.cap = true) {i : Nat} (h : i < s.cur.cap.toNat) :
    (s.outAddr i).toNat = s.cur.dst.toNat + i := by
  have := buffersOk_dst hb
  unfold State.outAddr
  simp [BitVec.toNat_add]; omega

theorem outAddr_add (s : State) (i j : Nat) : s.outAddr (i + j) = s.outAddr i + BitVec.ofNat 32 j := by
  simp only [State.outAddr, BitVec.add_assoc]
  congr 1
  apply BitVec.eq_of_toNat_eq
  simp

/-- Bytes written inside the capacity leave every byte outside the output buffer as it was (R89). -/
theorem writeOut_outside {s : State} (hb : buffersOk s.cur.src s.cur.slen s.cur.dst s.cur.cap = true) {off : Nat} {bs : List Byte}
    (h : off + bs.length ≤ s.cur.cap.toNat) {a : Word} (ha : ¬InOutput s a) : (s.writeOut off bs).readByte a = s.readByte a := by
  apply State.readByte_writeOut_other
  intro j hj e
  apply ha
  have := outAddr_toNat hb (i := off + j) (by omega)
  unfold InOutput
  rw [e, this]; omega

theorem Memory.putBytes_append (m : Memory) (a : Word) (bs cs : List Byte) :
    (m.putBytes a bs).putBytes (a + BitVec.ofNat 32 bs.length) cs = m.putBytes a (bs ++ cs) := by
  induction bs generalizing m a with
  | nil => simp [Memory.putBytes]
  | cons b bs ih =>
    simp only [Memory.putBytes, List.cons_append, List.length_cons]
    rw [← ih]
    congr 1
    rw [BitVec.add_assoc]
    congr 1
    apply BitVec.eq_of_toNat_eq
    simp [Nat.add_comm]

theorem Memory.find_putList_other {m : Memory} {i x : Nat} {bs : List Byte} (h : x < i ∨ i + bs.length ≤ x) : (m.putList i bs).find x = m.find x := by
  induction bs generalizing m i with
  | nil => rfl
  | cons b bs ih =>
    simp only [List.length_cons] at h
    rw [Memory.putList, ih (by omega), Memory.find_put_other _ _ (by omega)]

theorem Memory.find_putList_at {m : Memory} {i j : Nat} {bs : List Byte} (h : j < bs.length) : (m.putList i bs).find (i + j) = some bs[j] := by
  induction bs generalizing m i j with
  | nil => simp at h
  | cons b bs ih =>
    rw [Memory.putList]
    cases j with
    | zero => rw [Memory.find_putList_other (by omega)]; simp
    | succ j =>
      rw [show i + (j + 1) = i + 1 + j by omega, ih (by simpa using h)]; simp

/-- Raw writes in sequence are one run of bytes (R163). -/
def rawAll (bs : List Byte) (s : State) : State :=
  { s.writeOut s.wr.rawpos.toNat bs with wr := { s.wr with rawpos := BitVec.ofNat 33 (s.wr.rawpos.toNat + bs.length) } }

theorem rawAll_append (bs cs : List Byte) (s : State) (h : s.wr.rawpos.toNat + bs.length < 8589934592) :
    rawAll cs (rawAll bs s) = rawAll (bs ++ cs) s := by
  unfold rawAll
  have e : (BitVec.ofNat 33 (s.wr.rawpos.toNat + bs.length)).toNat = s.wr.rawpos.toNat + bs.length := by
    simp; omega
  simp only [e, List.length_append, ← add_assoc]
  simp only [State.writeOut, State.writeBytes]
  congr 1
  have : State.outAddr { s with mem := s.mem.putBytes (s.outAddr s.wr.rawpos.toNat) bs, wr := { s.wr with rawpos := BitVec.ofNat 33 (s.wr.rawpos.toNat + bs.length) } } (s.wr.rawpos.toNat + bs.length) = s.outAddr (s.wr.rawpos.toNat + bs.length) := rfl
  rw [this, outAddr_add, Memory.putBytes_append]

theorem writeRaw_eq (v m : Nat) (s : State) :
    writeRaw v m s = if s.cur.cap.toNat < s.wr.rawpos.toNat + m then .raise .insufficientBuffer s else .ok () (rawAll (bytesLE m v) s) := by
  unfold writeRaw rawAll
  rw [length_bytesLE]

theorem wireLength_size (l : Nat) : (encode (wireLength l).instr).length = (wireLength l).size := by
  unfold wireLength
  repeat' split
  all_goals simp [LenForm.instr, LenForm.size, encode, length_bytesLE]

theorem rawAll_nil (s : State) : rawAll [] s = s := by
  simp [rawAll, State.writeOut, State.writeBytes, Memory.putBytes]

theorem rawAll_rawpos {bs : List Byte} {s : State} (h : s.wr.rawpos.toNat + bs.length < 8589934592) :
    (rawAll bs s).wr.rawpos.toNat = s.wr.rawpos.toNat + bs.length := by
  simp [rawAll]; omega

theorem writeExtension_ok (l : Nat) (s : State) (h : s.wr.rawpos.toNat + (wireLength l).size ≤ s.cur.cap.toNat) :
    writeExtension l s = .ok () (rawAll (encode (wireLength l).instr) s) := by
  have hc := s.cur.cap.isLt
  unfold writeExtension
  split
  · rename_i hw; simp [hw, LenForm.instr, encode, rawAll_nil]
  · rename_i b hw
    simp only [hw, LenForm.size] at h
    rw [writeRaw_eq, if_neg (by omega), hw]
    simp [LenForm.instr, encode, bytesLE]
  · rename_i w hw
    simp only [hw, LenForm.size] at h
    have e1 : (rawAll (bytesLE 1 255) s).wr.rawpos.toNat = s.wr.rawpos.toNat + 1 := by
      rw [rawAll_rawpos] <;> rw [length_bytesLE]; omega
    have e2 : (rawAll (bytesLE 1 255) s).cur = s.cur := rfl
    rw [writeRaw_eq, if_neg (by omega), hw]
    simp only [Res.andThen]
    rw [writeRaw_eq, if_neg (by rw [e1, e2]; omega), rawAll_append _ _ _ (by rw [length_bytesLE]; omega)]
    simp [LenForm.instr, encode, bytesLE]
  · rename_i x hw
    simp only [hw, LenForm.size] at h
    have e1 : (rawAll (bytesLE 1 255) s).wr.rawpos.toNat = s.wr.rawpos.toNat + 1 := by
      rw [rawAll_rawpos] <;> rw [length_bytesLE]; omega
    have e2 : (rawAll (bytesLE 1 255) s).cur = s.cur := rfl
    have e3 : (rawAll (bytesLE 2 0) (rawAll (bytesLE 1 255) s)).wr.rawpos.toNat = s.wr.rawpos.toNat + 3 := by
      rw [rawAll_rawpos] <;> rw [length_bytesLE, e1]; omega
    have e4 : (rawAll (bytesLE 2 0) (rawAll (bytesLE 1 255) s)).cur = s.cur := rfl
    rw [writeRaw_eq, if_neg (by omega), hw]
    simp only [Res.andThen]
    rw [writeRaw_eq, if_neg (by rw [e1, e2]; omega)]
    dsimp only
    rw [writeRaw_eq, if_neg (by rw [e3, e4]; omega), rawAll_append _ _ _ (by rw [length_bytesLE]; omega),
      rawAll_append _ _ _ (by simp [length_bytesLE]; omega)]
    simp [LenForm.instr, encode, bytesLE]

theorem highbit_le {off : Nat} (h : off ≤ 65535) : highbit off ≤ 15 := by
  unfold highbit
  by_cases h0 : off = 0
  · subst h0; decide
  · have := (Nat.log2_lt (n := off) (k := 16) h0).2 (by omega); omega

theorem highbit_spec {off : Nat} (h : 1 ≤ off) : 2 ^ highbit off ≤ off ∧ off < 2 ^ (highbit off + 1) := by
  unfold highbit
  exact ⟨Nat.log2_self_le (by omega), Nat.lt_log2_self⟩

theorem bitsNeed_cases (a n : Nat) : bitsNeed a n = 0 ∧ a + n ≤ 16 ∨ bitsNeed a n = 2 ∧ 16 < a + n := by
  unfold bitsNeed; split <;> omega

/-- Copy(off, n) (R263). -/
theorem copyRun_eq (off : Nat) (n : Nat) (s : State) (h : s.cur.outPos.toNat + n < 8589934592) :
    copyRun off n s = { s with
      mem := (copyRun off n s).mem
      cur := { s.cur with outPos := BitVec.ofNat 33 (s.cur.outPos.toNat + n) } } := by
  induction n generalizing s with
  | zero => simp [copyRun]
  | succ n ih =>
    have e : (copyByte off s).cur.outPos.toNat = s.cur.outPos.toNat + 1 := by simp [copyByte]; omega
    rw [copyRun]
    rw [ih (copyByte off s) (by omega)]
    simp only [e]
    simp only [copyByte, State.writeByte]
    congr 2
    · congr 1; omega

theorem copyByte_other (off : Nat) (s : State) {a : Word} (h : a ≠ s.outAddr s.cur.outPos.toNat) :
    (copyByte off s).readByte a = s.readByte a := State.readByte_writeByte_other s _ h

theorem copyRun_other (off n : Nat) (s : State) (hn : s.cur.outPos.toNat + n < 8589934592) {a : Word}
    (h : ∀ i < n, a ≠ s.outAddr (s.cur.outPos.toNat + i)) : (copyRun off n s).readByte a = s.readByte a := by
  induction n generalizing s with
  | zero => rfl
  | succ n ih =>
    have e : (copyByte off s).cur.outPos.toNat = s.cur.outPos.toNat + 1 := by simp [copyByte]; omega
    rw [copyRun, ih (copyByte off s) (by omega), copyByte_other off s (h 0 (by omega))]
    intro i hi
    rw [e]
    have := h (i + 1) (by omega)
    rw [show s.cur.outPos.toNat + 1 + i = s.cur.outPos.toNat + (i + 1) by omega]
    exact this

theorem copyRun_repeats (off n : Nat) (s : State) (h1 : 1 ≤ off) (h2 : off ≤ s.cur.outPos.toNat)
    (hn : s.cur.outPos.toNat + n < 4294967296) {i : Nat} (hi : i < n) :
    (copyRun off n s).readByte (s.outAddr (s.cur.outPos.toNat + i)) =
      (copyRun off n s).readByte (s.outAddr (s.cur.outPos.toNat + i - off)) := by
  induction n generalizing s i with
  | zero => omega
  | succ n ih =>
    have e : (copyByte off s).cur.outPos.toNat = s.cur.outPos.toNat + 1 := by simp [copyByte]; omega
    have ea : ∀ k, (copyByte off s).outAddr k = s.outAddr k := fun _ => rfl
    rw [copyRun]
    cases i with
    | succ i =>
      have := ih (copyByte off s) (by omega) (by omega) (i := i) (by omega)
      rw [e, ea, ea] at this
      rw [show s.cur.outPos.toNat + (i + 1) = s.cur.outPos.toNat + 1 + i by omega]
      exact this
    | zero =>
      have ne : ∀ k, k ≤ s.cur.outPos.toNat → ∀ j < n, s.outAddr k ≠ (copyByte off s).outAddr ((copyByte off s).cur.outPos.toNat + j) := by
        intro k hk j hj h
        rw [e, ea] at h
        have := outAddr_inj s (by omega) (by omega) h
        omega
      simp only [add_zero]
      rw [copyRun_other off n (copyByte off s) (by omega) (ne _ (by omega)), copyRun_other off n (copyByte off s) (by omega) (ne _ (by omega))]
      rw [copyByte_other off s (a := s.outAddr (s.cur.outPos.toNat - off))]
      · exact State.readByte_writeByte_same s _ _
      · intro h
        have := outAddr_inj s (by omega) (by omega) h
        omega

/-- A match token runs PackMatch of its fields (R214). -/
theorem matchFields_exec {i : Instr} {off l : Nat} {s : State} (h : matchFields i = some (off, l)) :
    exec i s = settle (packMatch off l s) ∧ off ≤ 65535 := by
  cases i <;> simp only [matchFields, reduceCtorEq, Option.some.injEq, Prod.mk.injEq] at h
  all_goals obtain ⟨rfl, rfl⟩ := h
  · rename_i o l; have := o.isLt; exact ⟨rfl, by omega⟩
  · rename_i o l; have := o.isLt; exact ⟨rfl, by omega⟩
  · rename_i o l; have := o.isLt; exact ⟨rfl, by omega⟩
  · exact ⟨rfl, by omega⟩

end Sys2Proof.Machine
end

