-- ==== Sys2Proof/Laws/PerInstr.lean ====
section
/-! SUPPORT. The per-instruction family EncodedSize: how many bytes each row of the opcode table takes where it stands
(spec/30_encoding.md R110, R126). -/

namespace Sys2Proof.Laws

/-- The bytes of a row (R110): a command word and a group mask 4; a symbol, as a 16-bit word, 2; a length form 0, 1, 3 or
7; a literal token 1; a match token 3, 5 or 9; the EOS token 3 (R123). -/
def EncodedSize.sizeOf : Instr → Nat
  | .cmdNop => 4
  | .compress => 4
  | .decompress => 4
  | .cmdIllegal _ => 4
  | .symLit _ => 2
  | .symEos => 2
  | .symMatch _ _ => 2
  | .lenNibble _ => 0
  | .lenExt8 _ => 1
  | .lenExt16 _ => 3
  | .lenExt32 _ => 7
  | .itokGroup _ => 4
  | .itokLit _ => 1
  | .itokMatchL8 _ _ => 3
  | .itokMatchL16 _ _ => 5
  | .itokMatchL32 _ _ => 9
  | .itokEos => 3

/-- The encoder writes as many bytes as the row takes. -/
def EncodedSize.Statement (i : Instr) : Prop := (encode i).length = EncodedSize.sizeOf i

theorem EncodedSize.cmdNop : EncodedSize.Statement .cmdNop := rfl

theorem EncodedSize.compress : EncodedSize.Statement .compress := rfl

theorem EncodedSize.decompress : EncodedSize.Statement .decompress := rfl

theorem EncodedSize.cmdIllegal (v : Word) : EncodedSize.Statement (.cmdIllegal v) := rfl

theorem EncodedSize.symLit (b : Byte) : EncodedSize.Statement (.symLit b) := rfl

theorem EncodedSize.symEos : EncodedSize.Statement .symEos := rfl

theorem EncodedSize.symMatch (o n : BitVec 4) : EncodedSize.Statement (.symMatch o n) := rfl

theorem EncodedSize.lenNibble (n : BitVec 4) : EncodedSize.Statement (.lenNibble n) := rfl

theorem EncodedSize.lenExt8 (b : Byte) : EncodedSize.Statement (.lenExt8 b) := rfl

theorem EncodedSize.lenExt16 (w : Half) : EncodedSize.Statement (.lenExt16 w) := rfl

theorem EncodedSize.lenExt32 (x : Word) : EncodedSize.Statement (.lenExt32 x) := rfl

theorem EncodedSize.itokGroup (m : Word) : EncodedSize.Statement (.itokGroup m) := rfl

theorem EncodedSize.itokLit (b : Byte) : EncodedSize.Statement (.itokLit b) := rfl

theorem EncodedSize.itokMatchL8 (off : Half) (l : Byte) : EncodedSize.Statement (.itokMatchL8 off l) := rfl

theorem EncodedSize.itokMatchL16 (off w : Half) : EncodedSize.Statement (.itokMatchL16 off w) := rfl

theorem EncodedSize.itokMatchL32 (off : Half) (x : Word) : EncodedSize.Statement (.itokMatchL32 off x) := rfl

theorem EncodedSize.itokEos : EncodedSize.Statement .itokEos := rfl

end Sys2Proof.Laws
end

