-- ==== Sys2Proof/Laws/Step.lean ====
section
/-! SUPPORT. What a step can do, said once: every way it answers a next state, the engine's move phase by phase, and how
a step of a running command ends. -/

namespace Sys2Proof.Machine

@[simp] theorem perform_instr (i : Instr) (s : State) : perform (.instr i s) = exec i s := rfl

@[simp] theorem perform_act (r : Host.Outcome State Fault Refusal) : perform (.act r) = r := rfl

theorem engineStep_idle (o : Config.Oracles) {s : State} (h : s.phase = .idle) : engineStep o s = .next s := by
  simp [engineStep, fetchEngine, h]

theorem engineStep_cTokenize (o : Config.Oracles) {s : State} (h : s.phase = .cTokenize) :
    engineStep o s = settle (tokenizeStep o s) := by
  simp [engineStep, fetchEngine, h]

theorem engineStep_cPack (o : Config.Oracles) {s : State} (h : s.phase = .cPack) :
    engineStep o s = perform (fetchPack s) := by
  simp [engineStep, fetchEngine, h]

theorem engineStep_cEmpty (o : Config.Oracles) {s : State} (h : s.phase = .cEmpty) :
    engineStep o s = settle (emptyStep s) := by
  simp [engineStep, fetchEngine, h]

theorem engineStep_dReadHeader (o : Config.Oracles) {s : State} (h : s.phase = .dReadHeader) :
    engineStep o s = settle (readHeader s) := by
  simp [engineStep, fetchEngine, h]

theorem engineStep_dDecode (o : Config.Oracles) {s : State} (h : s.phase = .dDecode) :
    engineStep o s = perform (fetchDecode s) := by
  simp [engineStep, fetchEngine, h]

theorem engineStep_dEndOfStream (o : Config.Oracles) {s : State} (h : s.phase = .dEndOfStream) :
    engineStep o s = .next (completeOk s) := by
  simp [engineStep, fetchEngine, h]

/-- Reading a token performs the instruction it decodes to, or completes with InvalidState (R216). -/
theorem perform_fetchToken (f : Format) (bits : Nat) (bs : List Byte) (s : State) :
    (∃ i r, decode f bs = .ok (i, r) ∧ perform (fetchToken f bits bs s) = exec i { s with
      pk := { s.pk with
        ppos := BitVec.ofNat 18 (s.pk.ppos.toNat + (encode i).length)
        pbit := BitVec.ofNat 6 (s.pk.pbit.toNat + bits) } }) ∨
      perform (fetchToken f bits bs s) = .next (completeErr .invalidState s) := by
  unfold fetchToken
  cases h : decode f bs with
  | error e => exact .inr rfl
  | ok p => exact .inl ⟨p.1, p.2, rfl, rfl⟩

/-- What an operation that reads the next instruction performs (R27). -/
theorem perform_fetchedOf (r : Res Instr) :
    (∃ i t, r = .ok i t ∧ perform (fetchedOf r) = exec i t) ∨
      ∃ e t, r = .raise e t ∧ perform (fetchedOf r) = .next (completeErr e t) := by
  cases r with
  | ok i t => exact .inl ⟨i, t, rfl, rfl⟩
  | raise e t => exact .inr ⟨e, t, rfl, rfl⟩

/-- The instructions of a symbol (R114). -/
theorem decodeSym_cases (s : Sym) (z : Bool) :
    decodeSym s z = .symEos ∨ (∃ b, decodeSym s z = .symLit b) ∨ ∃ o n, decodeSym s z = .symMatch o n := by
  unfold decodeSym
  repeat' split
  · exact .inl rfl
  · exact .inr (.inl ⟨_, rfl⟩)
  · exact .inr (.inr ⟨_, _, rfl⟩)

/-- The instructions of a token (R120 to R123). -/
theorem decode_token {f : Format} {bs : List Byte} {i : Instr} {r : List Byte} (h : decode f bs = .ok (i, r))
    (hf : f = .group ∨ f = .lit ∨ f = .mat) :
    (∃ m, i = .itokGroup m) ∨ (∃ b, i = .itokLit b) ∨ ∃ off l, matchFields i = some (off, l) := by
  rcases hf with rfl | rfl | rfl
  · simp only [decode] at h
    split at h <;> cases h
    exact .inl ⟨_, rfl⟩
  · simp only [decode] at h
    split at h <;> cases h
    exact .inr (.inl ⟨_, rfl⟩)
  · simp only [decode, decodeMatchToken] at h
    repeat' split at h
    all_goals cases h
    all_goals exact .inr (.inr ⟨_, _, rfl⟩)

/-- How an engine step of a running command ends: the command runs on, or it completes. -/
def Moved (s t : State) : Prop :=
  (SameSide s t ∧ t.phase ≠ .idle) ∨ (∃ u, SameSide s u ∧ t = completeOk u) ∨
    ∃ e u, SameSide s u ∧ t = completeErr e u

theorem Moved.of_settle {s t : State} {r : Res Unit} (hs : s.phase ≠ .idle) (h : r.Quiet s)
    (ht : settle r = .next t) : Moved s t := by
  rcases settle_next ht with rfl | ⟨e, u, rfl, rfl⟩
  · exact .inl ⟨h.1, by rw [show t.phase = s.phase from h.2]; exact hs⟩
  · exact .inr (.inr ⟨e, u, h.1, rfl⟩)

theorem Moved.pre {s u t : State} (h : SameSide s u) (hm : Moved u t) : Moved s t := by
  rcases hm with ⟨h1, h2⟩ | ⟨v, h1, h2⟩ | ⟨e, v, h1, h2⟩
  · exact .inl ⟨h.trans h1, h2⟩
  · exact .inr (.inl ⟨v, h.trans h1, h2⟩)
  · exact .inr (.inr ⟨e, v, h.trans h1, h2⟩)

theorem exec_sym_moved {s t : State} (hp : s.phase ≠ .idle) (sym : Sym) (z : Bool)
    (h : exec (decodeSym sym z) s = .next t) : Moved s t := by
  rcases decodeSym_cases sym z with e | ⟨b, e⟩ | ⟨o, n, e⟩ <;> rw [e] at h
  · simp only [exec, execSymEos, chunkEnd, Host.Outcome.next.injEq] at h
    subst h
    exact .inl ⟨⟨rfl, rfl, rfl, rfl, rfl, rfl, rfl, rfl, rfl, rfl, rfl⟩, by simp⟩
  · exact Moved.of_settle hp (literal_quiet b s) h
  · exact Moved.of_settle hp (matchSymbol_quiet o n s) h

theorem exec_len_moved {s t : State} (hp : s.phase ≠ .idle) (g : LenForm) (h : exec g.instr s = .next t) :
    Moved s t := by
  cases g <;> exact Moved.of_settle hp (lengthAction_quiet _ s) h

theorem exec_token_moved {f : Format} {bs : List Byte} {i : Instr} {r : List Byte} {s t : State} (hp : s.phase ≠ .idle)
    (hd : decode f bs = .ok (i, r)) (hf : f = .group ∨ f = .lit ∨ f = .mat) (h : exec i s = .next t) : Moved s t := by
  rcases decode_token hd hf with ⟨m, rfl⟩ | ⟨b, rfl⟩ | ⟨off, l, hm⟩
  · simp only [exec, execItokGroup, Host.Outcome.next.injEq] at h
    subst h
    exact .inl ⟨⟨rfl, rfl, rfl, rfl, rfl, rfl, rfl, rfl, rfl, rfl, rfl⟩, hp⟩
  · exact Moved.of_settle hp (encodeSym_quiet _ s) h
  · rw [(matchFields_exec hm).1] at h
    exact Moved.of_settle hp (packMatch_quiet off l s) h

theorem nextChunk_phase (s : State) : SameSide s (nextChunk s) ∧ (nextChunk s).phase ≠ .idle := by
  unfold nextChunk
  dsimp only
  repeat' split
  all_goals exact ⟨⟨rfl, rfl, rfl, rfl, rfl, rfl, rfl, rfl, rfl, rfl, rfl⟩, by simp⟩

theorem fetchToken_moved {f : Format} {bits : Nat} {bs : List Byte} {s t : State} (hp : s.phase ≠ .idle)
    (hf : f = .group ∨ f = .lit ∨ f = .mat) (h : perform (fetchToken f bits bs s) = .next t) : Moved s t := by
  rcases perform_fetchToken f bits bs s with ⟨i, r, hd, e⟩ | e <;> rw [e] at h
  · refine Moved.pre (u := { s with pk := _ }) ?_ (exec_token_moved (by exact hp) hd hf h)
    exact ⟨rfl, rfl, rfl, rfl, rfl, rfl, rfl, rfl, rfl, rfl, rfl⟩
  · cases h
    exact .inr (.inr ⟨_, s, SameSide.refl s, rfl⟩)

/-- The end of the tokenizer's run: PackChunk's head in the same step (R207, R211, R212). -/
theorem closeTokens_ends (o : Config.Oracles) (s : State) :
    SameSide s (closeTokens o s).state ∧ ∀ t, closeTokens o s = .ok () t → t.phase = .cPack := by
  unfold closeTokens
  have hq : (if s.cur.finalChunk = true then tokEos s else Res.ok () s).Quiet s := by
    split
    · exact tokEos_quiet s
    · exact quiet_rfl _ s
  generalize (if s.cur.finalChunk = true then tokEos s else Res.ok () s) = r at *
  cases r with
  | raise e u => exact ⟨hq.1, fun t h => by simp at h⟩
  | ok a u =>
    simp only [Res.andThen_ok, packHeader, writerInit]
    split
    · exact ⟨hq.1.trans ⟨rfl, rfl, rfl, rfl, rfl, rfl, rfl, rfl, rfl, rfl, rfl⟩, fun t h => by simp at h⟩
    · refine ⟨hq.1.trans ⟨rfl, rfl, rfl, rfl, rfl, rfl, rfl, rfl, rfl, rfl, rfl⟩, fun t h => ?_⟩
      simp only [Res.andThen_ok, Res.ok.injEq, true_and] at h
      rw [← h]

/-- A step of a running command runs on or completes (R45, R310). -/
theorem engineStep_moved {o : Config.Oracles} {s t : State} (hp : s.phase ≠ .idle)
    (h : engineStep o s = .next t) : Moved s t := by
  cases hph : s.phase with
  | idle => exact absurd hph hp
  | cTokenize =>
    rw [engineStep_cTokenize o hph] at h
    unfold tokenizeStep at h
    split at h
    · exact Moved.of_settle hp (openChunk_quiet s) h
    · split at h
      · exact Moved.of_settle hp (tokenFor_quiet _ s) h
      · have hc := closeTokens_ends o s
        rcases settle_next h with e | ⟨e, u, he, rfl⟩
        · rw [e] at hc
          exact .inl ⟨hc.1, by rw [hc.2 t rfl]; simp⟩
        · rw [he] at hc
          exact .inr (.inr ⟨e, u, hc.1, rfl⟩)
  | cPack =>
    rw [engineStep_cPack o hph] at h
    unfold fetchPack at h
    split at h
    · cases h
      unfold finishChunk
      dsimp only
      split
      · refine .inr (.inl ⟨_, ?_, rfl⟩)
        exact ⟨rfl, rfl, rfl, rfl, rfl, rfl, rfl, rfl, rfl, rfl, rfl⟩
      · exact .inl ⟨SameSide.trans ⟨rfl, rfl, rfl, rfl, rfl, rfl, rfl, rfl, rfl, rfl, rfl⟩ (nextChunk_phase _).1,
          (nextChunk_phase _).2⟩
    · repeat' split at h
      · exact fetchToken_moved hp (.inl rfl) h
      · exact fetchToken_moved hp (.inr (.inr rfl)) h
      · exact fetchToken_moved hp (.inr (.inl rfl)) h
  | cEmpty =>
    rw [engineStep_cEmpty o hph] at h
    unfold emptyStep checkCapacity at h
    generalize emptyBlock = B at h
    split at h
    · cases h
      exact .inr (.inr ⟨_, s, SameSide.refl s, rfl⟩)
    · simp only [Res.andThen_ok, settle, Host.Outcome.next.injEq] at h
      subst h
      refine .inr (.inl ⟨_, ?_, rfl⟩)
      exact ⟨rfl, rfl, rfl, rfl, rfl, rfl, rfl, rfl, rfl, rfl, rfl⟩
  | dReadHeader =>
    rw [engineStep_dReadHeader o hph] at h
    unfold readHeader at h
    split at h
    · cases h
      exact .inr (.inr ⟨_, s, SameSide.refl s, rfl⟩)
    · dsimp only at h
      split at h <;> simp only [settle, Host.Outcome.next.injEq] at h <;> subst h
      · refine .inr (.inr ⟨.invalidData, { s with len := _ }, ?_, rfl⟩)
        exact ⟨rfl, rfl, rfl, rfl, rfl, rfl, rfl, rfl, rfl, rfl, rfl⟩
      · exact .inl ⟨⟨rfl, rfl, rfl, rfl, rfl, rfl, rfl, rfl, rfl, rfl, rfl⟩, by simp⟩
  | dDecode =>
    rw [engineStep_dDecode o hph] at h
    unfold fetchDecode at h
    repeat' split at h
    · have hq := fetchLength_quiet s.mt.n s
      generalize fetchLength s.mt.n s = r at *
      cases r with
      | ok g u => exact Moved.pre hq.1 (exec_len_moved (by show u.phase ≠ _; rw [show u.phase = s.phase from hq.2]; exact hp) g h)
      | raise e u => cases h; exact .inr (.inr ⟨e, u, hq.1, rfl⟩)
    · have hq : (decodeNext s).Quiet s := decodeFrom_quiet s 15
      generalize decodeNext s = r at *
      cases r with
      | ok g u => exact Moved.pre hq.1 (exec_sym_moved (by show u.phase ≠ _; rw [show u.phase = s.phase from hq.2]; exact hp) _ _ h)
      | raise e u => cases h; exact .inr (.inr ⟨e, u, hq.1, rfl⟩)
    · cases h
      exact .inl ⟨⟨rfl, rfl, rfl, rfl, rfl, rfl, rfl, rfl, rfl, rfl, rfl⟩, by simp [chunkEndNoEos]⟩
  | dEndOfStream =>
    rw [engineStep_dEndOfStream o hph] at h
    cases h
    exact .inr (.inl ⟨s, SameSide.refl s, rfl⟩)

/-- Every way a step can answer a next state: the engine's move; a load, or a POLL that ends, which may synchronise while
BUSY = 0; a command word; a register write; a byte of the host's; reset. -/
theorem stepWith_next {o : Config.Oracles} {s t : State} (h : stepWith o s = .next t) :
    (∃ hs, engineStep o { s with host := hs } = .next t ∧ ∀ v rest, s.host ≠ .regStore s.par.xhBase 4 v :: rest) ∨
      (∃ hs rs us, t = { s with host := hs, reads := rs, unseen := us } ∧ (us = s.unseen ∨ us = [] ∧ s.busy = false)) ∨
      (∃ hs v, s.host = .regStore s.par.xhBase 4 v :: hs ∧ exec (decodeCmd v) { s with host := hs } = .next t) ∨
      (∃ hs off v, t = regWrite off v { s with host := hs }) ∨
      (∃ hs a v, s.host = .memStore a v :: hs ∧ t = hostWrite a v { s with host := hs }) ∨
      ∃ hs, t = hostReset { s with host := hs } := by
  unfold stepWith fetchWith at h
  cases hh : s.host with
  | nil =>
    have e : ({ s with host := [] } : State) = s := by rw [← hh]
    simp only [hh] at h
    exact .inl ⟨[], by rw [e]; exact h, by simp⟩
  | cons op rest =>
    simp only [hh] at h
    cases op with
    | regStore addr w v =>
      simp only [fetchRegStore, accessOf] at h
      by_cases h1 : addr.toNat < s.par.xhBase.toNat ∨ s.par.xhBase.toNat + 64 ≤ addr.toNat
      · simp [h1] at h
      · by_cases h2 : w ≠ 4 ∨ (addr.toNat - s.par.xhBase.toNat) % 4 ≠ 0
        · simp only [h1, h2, if_false, if_true, perform_act] at h
          cases h
        · simp only [h1, h2, if_false] at h
          by_cases h3 : addr.toNat - s.par.xhBase.toNat = 0
          · have ha : addr = s.par.xhBase := BitVec.eq_of_toNat_eq (by omega)
            have hw : w = 4 := by omega
            subst ha hw
            simp only [h3, if_true] at h
            exact .inr (.inr (.inl ⟨rest, v, rfl, h⟩))
          · simp only [h3, if_false, perform_act, Host.Outcome.next.injEq] at h
            exact .inr (.inr (.inr (.inl ⟨rest, _, v, h.symm⟩)))
    | regLoad addr w =>
      simp only [fetchRegLoad] at h
      generalize accessOf addr w { s with host := rest } = ac at h
      cases ac with
      | reg off =>
        simp only [perform_act, Host.Outcome.next.injEq] at h
        refine .inr (.inl ⟨rest, _, _, h.symm, ?_⟩)
        split <;> rename_i hc
        · exact .inr ⟨rfl, hc.2⟩
        · exact .inl rfl
      | bad r => cases h
    | memStore a v =>
      simp only [perform_act, hostStore] at h
      split at h
      · cases h
      · simp only [Host.Outcome.next.injEq] at h
        exact .inr (.inr (.inr (.inr (.inl ⟨rest, a, v, rfl, h.symm⟩))))
    | memLoad a =>
      simp only [perform_act, Host.Outcome.next.injEq] at h
      exact .inr (.inl ⟨rest, _, s.unseen, h.symm, .inl rfl⟩)
    | poll =>
      dsimp only at h
      split at h
      · exact .inl ⟨s.host, h, by simp⟩
      · rename_i hb
        simp only [perform_act, Host.Outcome.next.injEq] at h
        exact .inr (.inl ⟨rest, s.reads, [], h.symm, .inr ⟨rfl, by simpa using hb⟩⟩)
    | tick => exact .inl ⟨rest, h, by simp⟩
    | reset =>
      simp only [perform_act, Host.Outcome.next.injEq] at h
      exact .inr (.inr (.inr (.inr (.inr ⟨rest, h.symm⟩))))

end Sys2Proof.Machine
end

