-- ==== Sys2Proof/Laws/Phases.lean ====
section
/-! SUPPORT. What each phase's operations do, raised or not: packing (PackKeeps), the tokenizer (TokKeeps, Opened), the
bit reader, Decode() and a whole match. -/

namespace Sys2Proof.Machine

/-- Packing changes system memory inside the output buffer and the writer's registers, nothing else, and keeps the writer's bounds. -/
def PackKeeps (s t : State) : Prop :=
  t = { s with mem := t.mem, wr := t.wr } ∧ WriterInv t ∧ ∀ a, ¬InOutput s a → t.readByte a = s.readByte a

theorem PackKeeps.refl {s : State} (h : WriterInv s) : PackKeeps s s := ⟨rfl, h, fun _ _ => rfl⟩

theorem PackKeeps.trans {s t u : State} (h : PackKeeps s t) (h' : PackKeeps t u) : PackKeeps s u := by
  obtain ⟨a1, a2, a3⟩ := h
  obtain ⟨b1, b2, b3⟩ := h'
  refine ⟨?_, b2, fun a ha => ?_⟩
  · rw [b1, a1]
  · have hc : t.cur = s.cur := by rw [a1]
    rw [b3 a (by unfold InOutput at *; rwa [hc]), a3 a ha]

/-- The launch precondition of the latched operands (R90). -/
abbrev Latched (s : State) : Prop := buffersOk s.cur.src s.cur.slen s.cur.dst s.cur.cap = true

theorem PackKeeps.latched {s t : State} (h : PackKeeps s t) (hb : Latched s) : Latched t := by
  have hc : t.cur = s.cur := by rw [h.1]
  unfold Latched; rwa [hc]

theorem writeBits_keeps {s : State} (v : Nat) {n : Nat} (hn : n ≤ 16) (hw : WriterInv s) (hb : Latched s) :
    PackKeeps s (writeBits v n s).state := by
  obtain ⟨w1, w2, w3, w4⟩ := hw
  have hc := s.cur.cap.isLt
  unfold writeBits
  split
  · refine ⟨rfl, ⟨?_, w2, w3, w4⟩, fun _ _ => rfl⟩
    simp; omega
  · split
    · exact PackKeeps.refl ⟨w1, w2, w3, w4⟩
    · refine ⟨rfl, ⟨?_, w3, ?_, ?_⟩, fun a ha => ?_⟩
      · simp; omega
      · simp; omega
      · simp; omega
      · exact writeOut_outside hb (by rw [length_bytesLE]; omega) ha

theorem writeRaw_keeps {s : State} (v m : Nat) (hw : WriterInv s) (hb : Latched s) : PackKeeps s (writeRaw v m s).state := by
  obtain ⟨w1, w2, w3, w4⟩ := hw
  have hc := s.cur.cap.isLt
  unfold writeRaw
  split
  · exact PackKeeps.refl ⟨w1, w2, w3, w4⟩
  · refine ⟨rfl, ⟨w1, w2, ?_, ?_⟩, fun a ha => ?_⟩
    · simp; omega
    · simp; omega
    · exact writeOut_outside hb (by rw [length_bytesLE]; omega) ha

theorem Res.andThen_keeps {α β : Type} {s : State} {r : Res α} {f : α → State → Res β} (h : PackKeeps s r.state)
    (hb : Latched s) (hf : ∀ a t, WriterInv t → Latched t → PackKeeps t (f a t).state) : PackKeeps s (r.andThen f).state := by
  cases r with
  | ok a t => exact h.trans (hf a t h.2.1 (h.latched hb))
  | raise e t => exact h

theorem encodeSym_keeps {s : State} (sym : Nat) (hw : WriterInv s) (hb : Latched s) : PackKeeps s (encodeSym sym s).state := by
  unfold encodeSym
  split
  · exact PackKeeps.refl hw
  · exact writeBits_keeps _ (by have := lenOf_le s.len sym; omega) hw hb

theorem packMatch_keeps {s : State} {off : Nat} (l : Nat) (ho : off ≤ 65535) (hw : WriterInv s) (hb : Latched s) :
    PackKeeps s (packMatch off l s).state := by
  refine Res.andThen_keeps (encodeSym_keeps _ hw hb) hb fun _ t hw hb => ?_
  refine Res.andThen_keeps ?_ hb fun _ u hw hb => ?_
  · unfold writeExtension
    split
    · exact PackKeeps.refl hw
    · exact writeRaw_keeps _ _ hw hb
    · exact Res.andThen_keeps (writeRaw_keeps _ _ hw hb) hb fun _ _ hw hb => writeRaw_keeps _ _ hw hb
    · exact Res.andThen_keeps (writeRaw_keeps _ _ hw hb) hb fun _ _ hw hb =>
        Res.andThen_keeps (writeRaw_keeps _ _ hw hb) hb fun _ _ hw hb => writeRaw_keeps _ _ hw hb
  · unfold writeResidual
    split
    · exact PackKeeps.refl hw
    · exact writeBits_keeps _ (by have := highbit_le ho; omega) hw hb

/-- Finish() writes both slots and changes nothing else (R164). -/
theorem finishWriter_keeps {s : State} (hw : WriterInv s) (hb : Latched s) :
    finishWriter s = { s with mem := (finishWriter s).mem } ∧ ∀ a, ¬InOutput s a → (finishWriter s).readByte a = s.readByte a := by
  obtain ⟨w1, w2, w3, w4⟩ := hw
  refine ⟨rfl, fun a ha => ?_⟩
  unfold finishWriter
  rw [writeOut_outside (s := s.writeOut _ _) hb (by rw [length_bytesLE]; show s.wr.slot1.toNat + 2 ≤ s.cur.cap.toNat; omega) ha,
    writeOut_outside hb (by rw [length_bytesLE]; omega) ha]

/-- The tokenizer's operations change its registers, the counts and the scratch memory only. -/
def TokKeeps (s t : State) : Prop := t = { s with tk := t.tk, cnt := t.cnt, scr := t.scr }

theorem TokKeeps.refl (s : State) : TokKeeps s s := rfl
theorem TokKeeps.trans {s t u : State} (h : TokKeeps s t) (h' : TokKeeps t u) : TokKeeps s u := by
  unfold TokKeeps at *; rw [h', h]

/-- What a token costs: the group's slot where one is due, then `n` bytes; the cursor is where it was. -/
structure Opened (s : State) (n : Nat) (t : State) : Prop where
  keeps : TokKeeps s t
  tpos : t.tk.tpos = s.tk.tpos
  tend : t.tk.tend = s.tk.tend
  /-- a group is open, and the stream is longer by the token and, where the group is new, its mask -/
  cost : (s.tk.gbit.toNat = 32 ∧ t.tk.gbit.toNat = 1 ∧ t.tk.scrLen.toNat ≤ s.tk.scrLen.toNat + 4 + n) ∨
    (s.tk.gbit.toNat ≠ 32 ∧ t.tk.gbit.toNat ≤ s.tk.gbit.toNat + 1 ∧ t.tk.scrLen.toNat ≤ s.tk.scrLen.toNat + n)

/-- The scratch memory is too small for a token of `n` bytes (R206, R208). -/
def Full (s : State) (n : Nat) : Prop :=
  s.tk.gbit.toNat = 32 ∧ s.par.scratchBytes < s.tk.scrLen.toNat + 4 + n ∨
    s.tk.gbit.toNat ≠ 32 ∧ s.par.scratchBytes < s.tk.scrLen.toNat + n

theorem Full.mono {s : State} {k n : Nat} (hk : k ≤ n) (h : Full s k) : Full s n := by
  unfold Full at *; omega

/-- OpenToken then the token's bytes (R206, R208): with room it answers; whatever it answers, this holds. -/
theorem openAppend {α : Type} (m : Bool) (bs : List Byte) (s : State) (k : State → Res α) :
    (∃ u, Opened s bs.length u ∧
      (openToken m s).andThen (fun _ t => (appendScr bs t).andThen fun _ u => k u) = k u) ∨
      (Full s bs.length ∧ ∃ u, TokKeeps s u ∧
        (openToken m s).andThen (fun _ t => (appendScr bs t).andThen fun _ u => k u) = .raise .invalidState u) := by
  unfold openToken openGroup
  by_cases hg : s.tk.gbit.toNat = 32
  · rw [if_neg (by omega)]
    by_cases h1 : s.par.scratchBytes < s.tk.scrLen.toNat + 4
    · rw [if_pos h1]
      exact .inr ⟨.inl ⟨hg, by omega⟩, s, rfl, rfl⟩
    · rw [if_neg h1]
      simp only [Res.andThen_ok, appendScr]
      split
      · rename_i h2
        refine .inr ⟨?_, _, ?_, rfl⟩
        · have : (BitVec.ofNat 18 (s.tk.scrLen.toNat + 4)).toNat ≤ s.tk.scrLen.toNat + 4 := by
            rw [BitVec.toNat_ofNat]; exact Nat.mod_le _ _
          simp only [markToken] at h2
          exact .inl ⟨hg, by omega⟩
        · rfl
      · simp only [Res.andThen_ok]
        refine .inl ⟨_, ?_, rfl⟩
        refine ⟨rfl, rfl, rfl, .inl ⟨hg, rfl, ?_⟩⟩
        simp only [markToken, BitVec.toNat_ofNat]
        have h3 := Nat.mod_le (s.tk.scrLen.toNat + 4) (2 ^ 18)
        have h4 := Nat.mod_le ((s.tk.scrLen.toNat + 4) % 2 ^ 18 + bs.length) (2 ^ 18)
        omega
  · rw [if_pos hg]
    simp only [Res.andThen_ok, appendScr]
    split
    · rename_i h2
      refine .inr ⟨.inr ⟨hg, by simp only [markToken] at h2; omega⟩, _, ?_, rfl⟩
      rfl
    · simp only [Res.andThen_ok]
      refine .inl ⟨_, ?_, rfl⟩
      refine ⟨rfl, rfl, rfl, .inr ⟨hg, ?_, ?_⟩⟩
      · simp only [markToken, BitVec.toNat_ofNat]; exact Nat.mod_le _ _
      · simp only [markToken, BitVec.toNat_ofNat]; exact Nat.mod_le _ _

theorem matchToken_length (off : Half) {n : Nat} (h : 3 ≤ n) : (encode (matchToken off (n - 3))).length ≤ n := by
  unfold matchToken
  split
  · simp [encode]; omega
  · split
    · simp [encode]; omega
    · simp [encode]; omega

/-- A token of the tokenizer (R202, R203, R205): it consumes `n` input bytes, at least one and none past the chunk, and takes at
most `n` bytes of the stream besides its group's mask; or the scratch memory is full. -/
theorem tokenFor_spec (a : Nat × Nat) (s : State) (h : s.tk.tpos.toNat < s.tk.tend.toNat) :
    ∃ n, 1 ≤ n ∧ s.tk.tpos.toNat + n ≤ s.tk.tend.toNat ∧
      ((∃ u t, Opened s n u ∧ tokenFor a s = .ok () t ∧ TokKeeps s t ∧ t.tk.tpos.toNat = s.tk.tpos.toNat + n ∧
        t.tk.tend = s.tk.tend ∧ t.tk.gbit = u.tk.gbit ∧ t.tk.scrLen = u.tk.scrLen) ∨
        (Full s n ∧ ∃ u, TokKeeps s u ∧ tokenFor a s = .raise .invalidState u)) := by
  have ht := s.tk.tend.isLt
  have widen : ∀ {k n u}, k ≤ n → Opened s k u → Opened s n u := by
    intro k n u hk ⟨h1, h2, h3, h4⟩
    exact ⟨h1, h2, h3, by omega⟩
  unfold tokenFor
  dsimp only
  split
  · rename_i h3
    generalize hm : min a.1 (s.tk.tend.toNat - s.tk.tpos.toNat) = m at *
    have hl := matchToken_length (BitVec.ofNat 16 a.2) h3
    refine ⟨m, by omega, by omega, ?_⟩
    unfold tokMatch
    rcases openAppend true (encode (matchToken (BitVec.ofNat 16 a.2) (m - 3))) s
      (fun u => Res.ok () (advance m (countSym (symOfMatch (BitVec.ofNat 16 a.2).toNat (m - 3)) u))) with ⟨u, ho, e⟩ | ⟨hf, u, hk, e⟩
    · left
      refine ⟨u, _, widen hl ho, e, ?_, ?_, ho.tend, rfl, rfl⟩
      · have := ho.keeps; unfold TokKeeps at *; rw [this]; rfl
      · have := ho.tpos
        simp only [advance, countSym, this, BitVec.toNat_ofNat]; omega
    · exact .inr ⟨hf.mono hl, u, hk, e⟩
  · refine ⟨1, by omega, by omega, ?_⟩
    unfold tokLit
    rcases openAppend false (encode (.itokLit (s.inByte s.tk.tpos.toNat))) s
      (fun u => Res.ok () (advance 1 (countSym (s.inByte s.tk.tpos.toNat).toNat u))) with ⟨u, ho, e⟩ | ⟨hf, u, hk, e⟩
    · left
      refine ⟨u, _, widen (by simp [encode]) ho, e, ?_, ?_, ho.tend, rfl, rfl⟩
      · have := ho.keeps; unfold TokKeeps at *; rw [this]; rfl
      · have := ho.tpos
        simp only [advance, countSym, this, BitVec.toNat_ofNat]; omega
    · exact .inr ⟨hf.mono (by simp [encode]), u, hk, e⟩

/-- The EOS token (R204). -/
theorem tokEos_spec (s : State) :
    (∃ t, tokEos s = .ok () t ∧ TokKeeps s t) ∨
      (Full s 3 ∧ ∃ u, TokKeeps s u ∧ tokEos s = .raise .invalidState u) := by
  unfold tokEos
  rcases openAppend true (encode .itokEos) s (fun u => Res.ok () (countSym 256 u)) with ⟨u, ho, e⟩ | ⟨hf, u, hk, e⟩
  · refine .inl ⟨_, e, ?_⟩
    have := ho.keeps; unfold TokKeeps at *; rw [this]; rfl
  · exact .inr ⟨hf.mono (by simp [encode]), u, hk, e⟩

theorem or_mod_zero {x y k : Nat} (hx : x % 2 ^ k = 0) (hy : y % 2 ^ k = 0) : (x ||| y) % 2 ^ k = 0 := by
  rw [Nat.or_mod_two_pow, hx, hy]; rfl

theorem shl_mod_zero {x a b : Nat} (h : b ≤ 32) (hb : ∃ q, x = q * 2 ^ b) (ha : a ≤ b) : (x % 2 ^ 32) % 2 ^ a = 0 := by
  obtain ⟨q, rfl⟩ := hb
  rw [Nat.mod_mod_of_dvd _ (pow_dvd_pow 2 (by omega))]
  exact Nat.mod_eq_zero_of_dvd (dvd_mul_of_dvd_right (pow_dvd_pow 2 ha) q)

/-- Skip keeps the reader's bounds (R173, R176). -/
theorem skip_reader {s : State} {n : Nat} (h : ReaderInv s) (hn : n ≤ s.rd.nbits.toNat) : ReaderInv (skip n s) := by
  obtain ⟨h1, h2, h3, h4⟩ := h
  have hs := s.cur.slen.isLt
  have hq : ∃ q, s.rd.buf.toNat <<< n = q * 2 ^ (32 - (s.rd.nbits.toNat - n)) := by
    obtain ⟨q, hq⟩ := Nat.dvd_of_mod_eq_zero h2
    refine ⟨q, ?_⟩
    rw [Nat.shiftLeft_eq, hq, mul_comm _ q, mul_assoc, ← pow_add]
    congr 2; omega
  unfold skip skipped
  dsimp only
  split
  · rename_i hc
    refine ⟨?_, ?_, ?_, ?_⟩
    · simp; omega
    · simp only [BitVec.toNat_or, BitVec.toNat_shiftLeft, BitVec.toNat_ofNat]
      rw [Nat.mod_eq_of_lt (show s.rd.nbits.toNat - n + 16 < 2 ^ 6 by omega)]
      apply or_mod_zero
      · exact shl_mod_zero (by omega) hq (by omega)
      · refine shl_mod_zero (b := 16 - (s.rd.nbits.toNat - n)) (by omega) ⟨_, Nat.shiftLeft_eq _ _⟩ (by omega)
    · simp; omega
    · simp; omega
  · refine ⟨?_, ?_, h3, h4⟩
    · simp; omega
    · simp only [BitVec.toNat_shiftLeft, BitVec.toNat_ofNat]
      rw [Nat.mod_eq_of_lt (show s.rd.nbits.toNat - n < 2 ^ 6 by omega)]
      exact shl_mod_zero (by omega) hq (by omega)

/-- Decode() skips a codeword that is buffered, or raises InvalidData and changes nothing (R183). -/
theorem decodeNext_spec (s : State) :
    (∃ sym b, b ≤ s.rd.nbits.toNat ∧ decodeNext s = .ok sym (skip b s)) ∨ decodeNext s = .raise .invalidData s := by
  have : ∀ f, (∃ sym b, b ≤ s.rd.nbits.toNat ∧ decodeFrom s f = .ok sym (skip b s)) ∨ decodeFrom s f = .raise .invalidData s := by
    intro f
    induction f with
    | zero => exact .inr rfl
    | succ f ih =>
      simp only [decodeFrom]
      split
      · exact .inr rfl
      · split
        · exact .inl ⟨_, _, by omega, rfl⟩
        · exact ih
  exact this 15

theorem fetchLength_spec (n : BitVec 4) (s : State) :
    (∃ g : LenForm, g.size ≤ s.cur.slen.toNat - s.rd.rpos.toNat ∧
      fetchLength n s = .ok g { s with rd := { s.rd with rpos := BitVec.ofNat 33 (s.rd.rpos.toNat + g.size) } }) ∨
      fetchLength n s = .raise .invalidData s := by
  unfold fetchLength
  cases h : decodeLength n (lengthBytes s) with
  | error e => exact .inr rfl
  | ok p =>
    have := decodeLength_size (g := p.1) (r := p.2) h
    refine .inl ⟨p.1, ?_, rfl⟩
    simp only [lengthBytes, State.inBytes, List.length_map, List.length_range] at this
    omega

/-- The rest of a match (R262, R263): the capacity check, or the copy with everything it leaves. -/
theorem finishMatch_spec (l : Nat) (s : State) :
    finishMatch l s = .raise .insufficientBuffer s ∨
      s.cur.outPos.toNat + (l + 3) ≤ s.cur.cap.toNat ∧ ∃ t, finishMatch l s = .ok () t ∧
        t = { s with
          mem := t.mem, cur := { s.cur with outPos := BitVec.ofNat 33 (s.cur.outPos.toNat + (l + 3)) },
          rd := skipped s.mt.o.toNat s, mt := { s.mt with await := false } } ∧
        ∀ a, (∀ i < l + 3, a ≠ s.outAddr (s.cur.outPos.toNat + i)) → t.readByte a = s.readByte a := by
  have hc := s.cur.cap.isLt
  unfold finishMatch
  split
  · exact .inl rfl
  · refine .inr ⟨by omega, _, rfl, ?_, ?_⟩
    · rw [copyRun_eq]
      · rfl
      · show s.cur.outPos.toNat + _ < _; omega
    · intro a ha
      exact copyRun_other s.mt.off.toNat (l + 3) (skip s.mt.o.toNat { s with mt := { s.mt with await := false } })
        (by show s.cur.outPos.toNat + _ < _; omega) ha

/-- What a whole match does in D_DECODE (R251, R259): it raises with no byte written, or it copies inside the capacity. -/
theorem matchSymbol_spec (o n : BitVec 4) (s : State) (hr : ReaderInv s) (hb : Latched s) :
    (∃ e u, matchSymbol o n s = .raise e u ∧ u = { s with rd := u.rd, mt := u.mt }) ∨
      ∃ t, matchSymbol o n s = .ok () t ∧ ReaderInv t ∧ t.mt.await = false ∧
        s.cur.outPos.toNat + 3 ≤ t.cur.outPos.toNat ∧ t.cur.outPos.toNat ≤ s.cur.cap.toNat ∧
        t = { s with mem := t.mem, cur := { s.cur with outPos := t.cur.outPos }, rd := t.rd, mt := t.mt } ∧
        ∀ a, ¬InOutput s a → t.readByte a = s.readByte a := by
  have hs := s.cur.slen.isLt
  have hc := s.cur.cap.isLt
  obtain ⟨r1, r2, r3, r4⟩ := hr
  unfold matchSymbol beginMatch resolveOffset
  split
  · exact .inl ⟨_, s, rfl, rfl⟩
  · rename_i hn
    split
    · exact .inl ⟨_, s, rfl, rfl⟩
    · simp only [Res.andThen_ok, endMatch]
      rcases fetchLength_spec n { s with mt := ⟨BitVec.ofNat 16 (2 ^ o.toNat + peek o.toNat s), o, n, true⟩ } with ⟨g, hg, e⟩ | e
      · rw [e]
        simp only [Res.andThen_ok, lengthAction]
        split
        · rename_i l hl
          rcases finishMatch_spec l { s with
            rd := { s.rd with rpos := BitVec.ofNat 33 (s.rd.rpos.toNat + g.size) },
            mt := ⟨BitVec.ofNat 16 (2 ^ o.toNat + peek o.toNat s), o, n, true⟩ } with e | ⟨hl, t, e, ht, hm⟩
          · rw [e]
            exact .inl ⟨_, _, rfl, rfl⟩
          · rw [e]
            simp only at hl hg hm
            have hrd : ReaderInv { s with rd := { s.rd with rpos := BitVec.ofNat 33 (s.rd.rpos.toNat + g.size) } } := by
              refine ⟨r1, r2, ?_, ?_⟩
              · simp; omega
              · simp; omega
            have hsk := skip_reader (n := o.toNat) hrd (by simpa using hn)
            have h1 : t.rd = skipped o.toNat { s with rd := { s.rd with rpos := BitVec.ofNat 33 (s.rd.rpos.toNat + g.size) } } := by rw [ht]; rfl
            have h2 : t.cur = { s.cur with outPos := BitVec.ofNat 33 (s.cur.outPos.toNat + (l + 3)) } := by rw [ht]
            refine .inr ⟨t, rfl, ?_, by rw [ht], ?_, ?_, ?_, ?_⟩
            · unfold ReaderInv at *
              rw [h1, h2]; exact hsk
            · rw [h2]; simp; omega
            · rw [h2]; simp; omega
            · rw [ht]
            · intro a ha
              refine hm a ?_
              intro i hi h
              apply ha
              have ho : State.outAddr { s with rd := { s.rd with rpos := BitVec.ofNat 33 (s.rd.rpos.toNat + g.size) }, mt := ⟨BitVec.ofNat 16 (2 ^ o.toNat + peek o.toNat s), o, n, true⟩ } (s.cur.outPos.toNat + i) = s.outAddr (s.cur.outPos.toNat + i) := rfl
              rw [ho] at h
              unfold InOutput
              rw [h, outAddr_toNat hb (by omega)]; omega
        · exact .inl ⟨_, _, rfl, rfl⟩
      · rw [e]
        exact .inl ⟨_, _, rfl, rfl⟩
end Sys2Proof.Machine
end

