-- ==== Sys2Proof/Tests/Slice0.lean ====
section
/-! SUPPORT. The model's own tests: ill-formed terms, words written out from the spec's encodings, one-step tests with
results from spec/95_test_vectors.md and the rules' own examples, and for each statement with hypotheses a state and
operands that meet them. -/

namespace Sys2Proof.Tests

open Machine

set_option Elab.async false

/-! ### Helpers -/

/-- Oracles that find no match and give no symbol a codeword. -/
def noOracles : Config.Oracles := ⟨fun _ _ _ => (0, 0), fun _ _ => 0⟩

/-- The oracle answers of vector V-C1. -/
def oraclesC1 : Config.Oracles where
  matchSource := fun _ p _ => if p = 3 then (6, 3) else (0, 0)
  huffBuild := fun _ s =>
    if s = 0x61 ∨ s = 0x62 then 3 else if s = 0x63 ∨ s = 0x100 ∨ s = 0x113 then 2 else 0

/-- A length table given by its nonzero entries. -/
def lengths (l : List (Nat × Nat)) : List (BitVec 4) :=
  (List.range 512).map fun s => BitVec.ofNat 4 ((l.find? fun p => p.1 == s).elim 0 Prod.snd)

/-- The table of vector V-B1. -/
def tableB1 : List (BitVec 4) := lengths [(0x61, 1), (0x62, 2), (0x100, 3), (0x10F, 3)]

/-- A command running in phase `p`: input at 0x1000, output at 0x2000. -/
def running (op : Op) (p : Phase) (slen cap : Word) (inPos outPos : BitVec 33) : State :=
  { State.reset with
    win := ⟨1, 0x1000, slen, 0x2000, cap, 0, 0, 0⟩
    phase := p
    cur := { State.reset.cur with
      op := op, src := 0x1000, slen := slen, dst := 0x2000, cap := cap, inPos := inPos, outPos := outPos } }

/-- The state after reset with the host's next accesses `h`. -/
def hosted (h : List HostOp) : State := { State.reset with host := h }

/-- A decompression in D_DECODE with `buf` buffered, 260 input bytes taken. -/
def decoding (buf : Word) (nbits : BitVec 6) (cap : Word) (outPos : BitVec 33) : State :=
  { running .decompress .dDecode 270 cap 0 outPos with rd := ⟨buf, nbits, 260⟩ }

/-- A compression in C_PACK with the codes of vector V-C1, the writer as WriterInit(256) leaves it. -/
def packing (cap : Word) : State :=
  { running .compress .cPack 9 cap 0 0 with
    len := lengths [(0x61, 3), (0x62, 3), (0x63, 2), (0x100, 2), (0x113, 2)]
    cur := { (running .compress .cPack 9 cap 0 0).cur with chunkLen := 9, finalChunk := true }
    wr := ⟨0, 0, 256, 258, 260⟩ }

/-- The state an outcome goes on with. -/
def nextOf (r : Host.Outcome State Fault Refusal) : Option State :=
  match r with
  | .next t => some t
  | .fault _ => none
  | .refused _ => none

/-- The state an operation ends in, its error beside it. -/
def resOf (r : Res Unit) : Option Err × State :=
  match r with
  | .ok _ s => (none, s)
  | .raise e s => (some e, s)

/-- The refusal an outcome is: badBuffers 1, badRegisterAccess 2, outsideWindow 3; 0 for any other outcome. -/
def refusalOf (r : Host.Outcome State Fault Refusal) : Nat :=
  match r with
  | .next _ => 0
  | .fault _ => 0
  | .refused .badBuffers => 1
  | .refused .badRegisterAccess => 2
  | .refused .outsideWindow => 3
  | .refused _ => 0

/-- A fact about the next state. -/
def after (r : Host.Outcome State Fault Refusal) (p : State → Bool) : Bool := (nextOf r).any p

/-- The known bytes of system memory from an address on. -/
def bytesAt (s : State) (a n : Nat) : List (Option Byte) := (List.range n).map fun i => s.mem.find (a + i)

/-! ### Ill-formed terms: each check of WellFormed refuses one -/

theorem test_illformed_cmdIllegal : (Instr.cmdIllegal 2).wellFormed = false := by decide

theorem test_illformed_lenNibble : (Instr.lenNibble 15).wellFormed = false := by decide

theorem test_illformed_lenExt8 : (Instr.lenExt8 0xFF).wellFormed = false := by decide

theorem test_illformed_lenExt16 : (Instr.lenExt16 0).wellFormed = false := by decide

theorem test_illformed_itokMatchL8_escape : (Instr.itokMatchL8 1 0xFF).wellFormed = false := by decide

theorem test_illformed_itokMatchL8_eos : (Instr.itokMatchL8 0 0).wellFormed = false := by decide

theorem test_illformed_itokMatchL16 : (Instr.itokMatchL16 1 0).wellFormed = false := by decide

/-! ### Words written out from the spec's encodings -/

/-- R124: 0x00000000. -/
theorem test_word_cmdNop : decode .cmd [0b00000000#8, 0b00000000#8, 0b00000000#8, 0b00000000#8] = .ok (.cmdNop, []) := by
  decide

/-- R124: 0x00000001. -/
theorem test_word_compress :
    decode .cmd [0b00000001#8, 0b00000000#8, 0b00000000#8, 0b00000000#8] = .ok (.compress, []) := by decide

/-- R124: 0x00000002. -/
theorem test_word_decompress :
    decode .cmd [0b00000010#8, 0b00000000#8, 0b00000000#8, 0b00000000#8] = .ok (.decompress, []) := by decide

/-- R124: any other value, the least significant byte first (R83). -/
theorem test_word_cmdIllegal :
    decode .cmd [0b00000001#8, 0b00000000#8, 0b00000000#8, 0b10000000#8] = .ok (.cmdIllegal 0x80000001, []) := by decide

/-- R114: s[8] = 0, s[7:0] = 0x61. -/
theorem test_word_symLit : decode (.sym true) [0b01100001#8, 0b0#8] = .ok (.symLit 0x61, []) := by decide

/-- R116: 0x100 with a zero buffer. -/
theorem test_word_symEos : decode (.sym true) [0b00000000#8, 0b1#8] = .ok (.symEos, []) := by decide

/-- R116: 0x100 with a nonzero buffer is the match of O = 0 and N = 0. -/
theorem test_word_symMatch_0x100 : decode (.sym false) [0b00000000#8, 0b1#8] = .ok (.symMatch 0 0, []) := by decide

/-- R114: s[8] = 1, O = 2, N = 15 (vector V-B4, symbol 0x12F). -/
theorem test_word_symMatch : decode (.sym true) [0b00101111#8, 0b1#8] = .ok (.symMatch 2 15, []) := by decide

/-- R118: N = 14 takes no byte. -/
theorem test_word_lenNibble : decode (.len 14) [0xAA#8] = .ok (.lenNibble 14, [0xAA#8]) := by decide

/-- R118: the byte 0xFE is no escape (vector V-B5). -/
theorem test_word_lenExt8 : decode (.len 15) [0b11111110#8] = .ok (.lenExt8 0xFE, []) := by decide

/-- R118: 0xFF and a 16-bit field (vector V-B5: FF 0D 01 gives 269). -/
theorem test_word_lenExt16 : decode (.len 15) [0b11111111#8, 0b00001101#8, 0b00000001#8] = .ok (.lenExt16 269, []) := by
  decide

/-- R118: 0xFF, 0x0000 and a 32-bit field (vector V-B5). -/
theorem test_word_lenExt32 :
    decode (.len 15) [0xFF#8, 0#8, 0#8, 0#8, 0#8, 0b00000001#8, 0#8] = .ok (.lenExt32 65536, []) := by decide

/-- R118: the input ends inside the field (vector V-B5: FF 0E). -/
theorem test_word_length_truncated : decode (.len 15) [0xFF#8, 0x0E#8] = .error .truncated := by decide

/-- R120: the mask of vector V-C1. -/
theorem test_word_itokGroup : decode .group [0b00011000#8, 0#8, 0#8, 0#8] = .ok (.itokGroup 0x18, []) := by decide

/-- R121: the raw byte. -/
theorem test_word_itokLit : decode .lit [0b01100001#8] = .ok (.itokLit 0x61, []) := by decide

/-- R122: 03 00 03 (vector V-C1). -/
theorem test_word_itokMatchL8 : decode .mat [0b00000011#8, 0b0#8, 0b00000011#8] = .ok (.itokMatchL8 3 3, []) := by decide

/-- R122: FF and L in 16 bits (section V-L, len = 271: 01 00 FF 0C 01). -/
theorem test_word_itokMatchL16 :
    decode .mat [0b00000001#8, 0b0#8, 0b11111111#8, 0b00001100#8, 0b00000001#8] = .ok (.itokMatchL16 1 268, []) := by
  decide

/-- R122: FF, 0000 and L in 32 bits. -/
theorem test_word_itokMatchL32 :
    decode .mat [0x02#8, 0x01#8, 0xFF#8, 0#8, 0#8, 0x04#8, 0x03#8, 0x02#8, 0x01#8] =
      .ok (.itokMatchL32 0x0102 0x01020304, []) := by decide

/-- R123: three zero bytes. -/
theorem test_word_itokEos : decode .mat [0#8, 0#8, 0#8] = .ok (.itokEos, []) := by decide

/-- A symbol has 9 bits (R114): bit 9 set is refused by name. -/
theorem test_word_symbol_too_wide : decode (.sym true) [0b0#8, 0b10#8] = .error .symbolTooWide := by decide

/-! ### The bit coder and the code -/

/-- Vector V-B1: the codewords of 0x61, 0x62, 0x100, 0x10F. -/
theorem test_codes_v_b1 :
    codeOf tableB1 0x61 = 0b0 ∧ codeOf tableB1 0x62 = 0b10 ∧ codeOf tableB1 0x100 = 0b110 ∧
      codeOf tableB1 0x10F = 0b111 := by decide +kernel

/-- Vector V-B2: an oversubscribed table, a complete and an incomplete one. -/
theorem test_validity_v_b2 :
    tableValid (lengths [(0x61, 1), (0x62, 1), (0x63, 1)]) = false ∧
      tableValid (lengths [(0x61, 1), (0x62, 1)]) = true ∧ tableValid (lengths [(0x100, 1)]) = true ∧
      tableValid (lengths []) = true := by decide +kernel

/-- The writer of vector V-B3 before its fourth call. -/
def writerB3 : State :=
  (resOf (writeBits 0x1FFF 13 (resOf (writeRaw 0xAB 1 (resOf (writeBits 0b101 3
    { running .compress .cPack 9 16 0 0 with wr := ⟨0, 0, 0, 2, 4⟩ })).2)).2)).2

/-- Vector V-B3: 16 pending bits are not flushed. -/
theorem test_writer_v_b3_full : writerB3.wr = ⟨0xBFFF, 16, 0, 2, 5⟩ := by decide +kernel

/-- Vector V-B3: the bytes after WriteBits(1, 1) and Finish(). -/
theorem test_writer_v_b3_bytes :
    bytesAt (finishWriter (resOf (writeBits 1 1 writerB3)).2) 0x2000 7 =
      [some 0xFF#8, some 0xBF#8, some 0#8, some 0x80#8, some 0xAB#8, some 0#8, some 0#8] := by decide +kernel

/-- The reader of vector V-B3 at ReaderInit(0). -/
def readerB3 : State :=
  readerInit 0 { running .decompress .dDecode 7 16 0 0 with
    mem := [(0x1000, 0xFF), (0x1001, 0xBF), (0x1002, 0), (0x1003, 0x80), (0x1004, 0xAB), (0x1005, 0), (0x1006, 0)] }

/-- Vector V-B3: ReaderInit(0). -/
theorem test_reader_v_b3_init : readerB3.rd = ⟨0xBFFF8000, 32, 4⟩ := by decide +kernel

/-- Vector V-B3: the last Skip(1) refills from offsets 5 and 6. -/
theorem test_reader_v_b3_refill :
    (skip 1 { readerB3 with rd := ⟨0x80000000, 16, 5⟩ }).rd = ⟨0, 31, 7⟩ := by decide +kernel

/-- Vector V-B4: symbols of matches. -/
theorem test_symbols_v_b4 :
    symOfMatch 3 3 = 0x113 ∧ symOfMatch 7 97 = 0x12F ∧ symOfMatch 32768 0 = 0x1F0 ∧ symOfMatch 65535 65533 = 0x1FF ∧
      residualOf 40001 = 0b001110001000001 := by decide +kernel

/-! ### The commands, one step each -/

/-- Vector V-R2: CMD_NOP leaves DONE. -/
theorem test_cmdNop :
    after (step ({ hosted [] with win := ⟨2, 0, 0, 0, 0, 260, 0, 9⟩ }.withFetchWord 32 0))
      (fun t => t.win == ⟨2, 0, 0, 0, 0, 260, 0, 9⟩) = true := by decide +kernel

/-- R200, R225: an empty input is accepted into C_EMPTY. -/
theorem test_compress_empty :
    after (step (State.reset.withFetchWord 32 1)) (fun t => t.phase == .cEmpty && t.win.status == 1) = true := by
  decide +kernel

/-- R90: overlapping buffers are refused. -/
theorem test_compress_overlap :
    refusalOf (exec .compress { State.reset with win := ⟨0, 0x1000, 16, 0x100F, 1, 0, 0, 0⟩ }) = 1 := by
  decide +kernel

/-- R250, R270: DECOMPRESS is accepted into D_READ_HEADER, DONE cleared. -/
theorem test_decompress_accepted :
    after (exec .decompress { State.reset with win := ⟨2, 0x2000, 260, 0x3000, 9, 260, 0, 9⟩ })
      (fun t => t.phase == .dReadHeader && t.win == ⟨1, 0x2000, 260, 0x3000, 9, 0, 0, 0⟩) = true := by decide +kernel

/-- R46: acceptance clears the cursors a command before has left. -/
theorem test_accept_clears_cursors :
    after (exec .decompress { State.reset with
        win := ⟨0, 0x2000, 260, 0x3000, 9, 0, 0, 0⟩, cur := ⟨.compress, 1, 2, 3, 4, 5, 6, 7, 8, true, true⟩ })
      (fun t => t.cur == ⟨.decompress, 0x2000, 260, 0x3000, 9, 0, 0, 0, 0, false, false⟩) = true := by decide +kernel

/-- Vector V-R9. -/
theorem test_cmdIllegal :
    after (step (State.reset.withFetchWord 32 0xFFFFFFFF)) (fun t => t.win == ⟨4, 0, 0, 0, 0, 0, 4, 0⟩) = true := by
  decide +kernel

/-! ### Symbols and length forms, one step each -/

/-- R258's example: the byte is written at dst. -/
theorem test_symLit_writes :
    after (exec (.symLit 0x61) (decoding 0 32 1 0)) (fun t => t.mem.find 0x2000 == some 0x61#8 && t.cur.outPos == 1) =
      true := by decide +kernel

/-- R258's example: a second literal with cap = 1 fails. -/
theorem test_symLit_full :
    after (exec (.symLit 0x61) (decoding 0 32 1 1)) (fun t => t.win.error == 1 && t.win.status == 4) = true := by
  decide +kernel

/-- Vector V-D1: the end of the empty block. -/
theorem test_symEos :
    after (exec .symEos (decoding 0 31 0 0)) (fun t => t.phase == .dEndOfStream && t.cur.inPos == 260) = true := by
  decide +kernel

/-- R259's example: symbol 0x113 with residual bit 1 at out_pos = 3 copies 6 bytes from 3 back. -/
theorem test_symMatch_copies :
    after (exec (.symMatch 1 3)
        { decoding 0x80000000 32 9 3 with mem := [(0x2000, 0x61), (0x2001, 0x62), (0x2002, 0x63)] })
      (fun t => bytesAt t 0x2003 6 ==
        [some 0x61#8, some 0x62#8, some 0x63#8, some 0x61#8, some 0x62#8, some 0x63#8]) = true := by decide +kernel

/-- Vector V-D6: offset 1 at out_pos = 0 is INVALID_DATA. -/
theorem test_symMatch_before_start :
    after (exec (.symMatch 0 0) (decoding 0x20000000 31 10 0)) (fun t => t.win.error == 2) = true := by decide +kernel

/-- R263's example: Copy(2, 5) after `ab` gives `abababa`. -/
theorem test_lenNibble_overlap :
    after (exec (.lenNibble 2)
        { decoding 0 32 7 2 with mt := ⟨2, 1, 2, true⟩, mem := [(0x2000, 0x61), (0x2001, 0x62)] })
      (fun t => bytesAt t 0x2000 7 ==
        [some 0x61#8, some 0x62#8, some 0x61#8, some 0x62#8, some 0x61#8, some 0x62#8, some 0x61#8]) = true := by
  decide +kernel

/-- Vectors V-B5 and V-D16: byte 0xFE gives L = 269, 272 bytes copied. -/
theorem test_lenExt8_fe :
    after (exec (.lenExt8 0xFE) { decoding 0 32 273 1 with mt := ⟨1, 0, 15, true⟩, mem := [(0x2000, 0x61)] })
      (fun t => t.cur.outPos == 273 && t.mem.find 0x2110 == some 0x61#8) = true := by decide +kernel

/-- Vectors V-B5 and V-D11: the 16-bit field 14 is INVALID_DATA. -/
theorem test_lenExt16_fourteen :
    after (exec (.lenExt16 14) { decoding 0 32 273 1 with mt := ⟨1, 0, 15, true⟩ }) (fun t => t.win.error == 2) = true := by
  decide +kernel

/-- Vector V-D11: the 16-bit field 15 copies 18 bytes. -/
theorem test_lenExt16_fifteen :
    after (exec (.lenExt16 15) { decoding 0 32 19 1 with mt := ⟨1, 0, 15, true⟩, mem := [(0x2000, 0x61)] })
      (fun t => t.cur.outPos == 19) = true := by decide +kernel

/-- Vector V-B5: L = 2^32 - 1 fails the capacity check for every DST_CAP. -/
theorem test_lenExt32_huge :
    after (exec (.lenExt32 0xFFFFFFFF) { decoding 0 32 0xFFFFFFFF 1 with mt := ⟨1, 0, 15, true⟩ })
      (fun t => t.win.error == 1) = true := by decide +kernel

/-! ### Intermediate tokens, one step each -/

/-- Vector V-C1's mask. -/
theorem test_itokGroup :
    after (exec (.itokGroup 0x18) (packing 260)) (fun t => t.pk.pmask == 0x18#32 && t.pk.pbit == 0) = true := by
  decide +kernel

/-- R213's example: code 0x61 = 110. -/
theorem test_itokLit :
    after (exec (.itokLit 0x61) (packing 260)) (fun t => t.wr == ⟨0b110, 3, 256, 258, 260⟩) = true := by decide +kernel

/-- R214's example: off = 3, L = 3 writes codeword 10, then the residual bit 1. -/
theorem test_itokMatchL8 :
    after (exec (.itokMatchL8 3 3) (packing 260)) (fun t => t.wr == ⟨0b101, 3, 256, 258, 260⟩) = true := by decide +kernel

/-- Section V-L, len = 272: the extension FF 0D 01 at rawpos. -/
theorem test_itokMatchL16 :
    after (exec (.itokMatchL16 1 269) { packing 263 with len := lengths [(0x10F, 1)] })
      (fun t => bytesAt t 0x2104 3 == [some 0xFF#8, some 0x0D#8, some 0x01#8] && t.wr == ⟨0, 1, 256, 258, 263⟩) = true := by
  decide +kernel

/-- Vector V-C11: one byte of capacity short inside the extension is INSUFFICIENT_BUFFER. -/
theorem test_itokMatchL16_short :
    after (exec (.itokMatchL16 1 296) { packing 262 with len := lengths [(0x10F, 1)] }) (fun t => t.win.error == 1) = true := by
  decide +kernel

/-- R119: L = 65536 takes FF, 0000 and 32 bits. -/
theorem test_itokMatchL32 :
    after (exec (.itokMatchL32 1 65536) { packing 267 with len := lengths [(0x10F, 1)] })
      (fun t => bytesAt t 0x2104 7 ==
        [some 0xFF#8, some 0#8, some 0#8, some 0#8, some 0#8, some 0x01#8, some 0#8]) = true := by decide +kernel

/-- R214: the EOS token writes the codeword of 0x100 alone (vector V-C1: 01). -/
theorem test_itokEos :
    after (exec .itokEos (packing 260)) (fun t => t.wr == ⟨0b01, 2, 256, 258, 260⟩) = true := by decide +kernel

/-! ### Steps that run no row of the table -/

/-- A chunk of vector V-C1 being tokenized at cursor 3. -/
def tokenizing : State :=
  { running .compress .cTokenize 9 260 0 0 with
    chunkOpen := true
    cur := { (running .compress .cTokenize 9 260 0 0).cur with chunkLen := 9, finalChunk := true }
    tk := ⟨3, 9, 0, 3, 0, 7⟩ }

/-- Vector V-C1: TokMatch(3, 6) appends 03 00 03, sets mask bit 3 and counts 0x113. -/
theorem test_tokenize_match :
    after (engineStep oraclesC1 tokenizing)
      (fun t => t.scr.find 7 == some 3#8 && t.scr.find 8 == some 0#8 && t.scr.find 9 == some 3#8 &&
        t.scr.find 0 == some 8#8 && t.cnt.getD 0x113 0 == 1 && t.tk.tpos == 9) = true := by decide +kernel

/-- R204's example: after 32 literals the terminator opens a second group, 01 00 00 00 00 00 00. -/
theorem test_tokEos_new_group :
    (fun t : State => (List.range 7).map fun i => t.scr.find (36 + i))
        (resOf (tokEos { tokenizing with tk := ⟨9, 9, 0, 32, 0, 36⟩ })).2 =
      [some 1#8, some 0#8, some 0#8, some 0#8, some 0#8, some 0#8, some 0#8] := by decide +kernel

/-- Vector V-C1: the table bytes 0x30, 0x31, 0x80, 0x89, and the writer at 256. -/
theorem test_pack_header :
    after (engineStep oraclesC1 { tokenizing with tk := ⟨9, 9, 8, 4, 0, 10⟩ })
      (fun t => t.mem.find 0x2030 == some 0x30#8 && t.mem.find 0x2031 == some 0x23#8 &&
        t.mem.find 0x2080 == some 0x02#8 && t.mem.find 0x2089 == some 0x20#8 && t.phase == .cPack &&
        t.wr == ⟨0, 0, 256, 258, 260⟩) = true := by decide +kernel

/-- Vector V-C1: the payload word 0xDCA8 and success with RESULT = 260, IN_CONSUMED = 9. -/
theorem test_finish_v_c1 :
    after (engineStep oraclesC1 { packing 260 with wr := ⟨0b1101110010101, 13, 256, 258, 260⟩ })
      (fun t => bytesAt t 0x2100 4 == [some 0xA8#8, some 0xDC#8, some 0#8, some 0#8] &&
        t.win == ⟨2, 0x1000, 9, 0x2000, 260, 260, 0, 9⟩) = true := by decide +kernel

/-- Vector V-C10: with DST_CAP = 259 the pre-check fails. -/
theorem test_precheck_v_c10 :
    after (engineStep oraclesC1 (running .compress .cTokenize 9 259 0 0)) (fun t => t.win.error == 1) = true := by
  decide +kernel

/-- Vector V-C2: the empty block has byte 0x80 = 1, and RESULT = 260. -/
theorem test_empty_block :
    after (engineStep noOracles (running .compress .cEmpty 0 260 0 0))
      (fun t => t.mem.find 0x2080 == some 1#8 && t.mem.find 0x207F == some 0#8 && t.win.result == 260) = true := by
  decide +kernel

/-- Vector V-D9: 259 bytes are INVALID_DATA at ReadHeader. -/
theorem test_header_short :
    after (engineStep noOracles (running .decompress .dReadHeader 259 9 0 0)) (fun t => t.win.error == 2) = true := by
  decide +kernel

/-- Vector V-D1: D_END_OF_STREAM completes with IN_CONSUMED = 260. -/
theorem test_end_of_stream :
    after (engineStep noOracles (running .decompress .dEndOfStream 260 0 260 0))
      (fun t => t.win == ⟨2, 0x1000, 260, 0x2000, 0, 0, 0, 260⟩ && t.phase == .idle) = true := by decide +kernel

/-! ### The host's side -/

/-- Vectors V-R3 and V-R5: BUSY is read-only, a 0 keeps DONE, a 1 clears ERR. -/
theorem test_status_store :
    statusWrite 2 1 = 2 ∧ statusWrite 2 2 = 0 ∧ statusWrite 4 6 = 0 := by decide

/-- Vector V-R11: SRC_ADDR takes all 32 bits. -/
theorem test_srcAddr_store :
    after (step (hosted [.regStore 0x40000008 4 0x12345678])) (fun t => t.win.srcAddr == 0x12345678#32) = true := by
  decide +kernel

/-- Vector V-R7: W SRC_LEN, 5 while BUSY is ignored. -/
theorem test_store_while_busy :
    after (step { running .decompress .dDecode 300 9 0 0 with host := [.regStore 0x4000000C 4 5] })
      (fun t => t.win.srcLen == 300) = true := by decide +kernel

/-- R342: a reset while BUSY makes the output buffer's bytes unknown and keeps the others. -/
theorem test_reset_while_busy :
    after (step { running .decompress .dDecode 300 9 0 0 with
        host := [.reset], mem := [(0x1FFF, 1), (0x2000, 2), (0x2008, 3), (0x2009, 4)] })
      (fun t => t.mem == [(0x1FFF, 1#8), (0x2009, 4#8)] && t.win == ⟨0, 0, 0, 0, 0, 0, 0, 0⟩ && t.phase == .idle) = true := by
  decide +kernel

/-- A command that has completed with the one byte 0x61 at 0x2000, STATUS not yet read. -/
def completed (h : List HostOp) : State :=
  { running .decompress .idle 300 9 260 1 with
    host := h, win := ⟨2, 0x1000, 300, 0x2000, 9, 1, 0, 260⟩, mem := [(0x2000, 0x61)], unseen := [(0x2000, 1)] }

/-- R95: completion leaves the bytes written, and no others, to synchronise with. -/
theorem test_completion_unseen :
    (completeOk (running .decompress .dEndOfStream 260 9 260 1)).unseen = [(0x2000, 1)] := by decide +kernel

/-- R95: an output byte is a free value to the host before it has read STATUS with BUSY = 0. -/
theorem test_load_before_status : hostLoad 0x2000 (completed []) = Config.freeBusyRead 0 := rfl

/-- R95: the STATUS load synchronises, and a load of the output byte after it returns what the engine wrote. -/
theorem test_load_after_status :
    after (step (completed [.regLoad 0x40000004 4])) (fun t => t.reads == [2#32] &&
      after (step { t with host := [.memLoad 0x2000] }) (fun u => u.reads == [0x61#32, 2#32])) = true := by decide +kernel

/-- R95: a load of RESULT does not synchronise. -/
theorem test_result_load_no_sync :
    after (step (completed [.regLoad 0x40000018 4])) (fun t => t.unseen == [(0x2000, 1)]) = true := by decide +kernel

/-- R95: a host write over a written byte before the STATUS read is in memory for the next command and contested for the
host; one beside it is not. -/
theorem test_store_before_status :
    after (step (completed [.memStore 0x2000 7])) (fun t => t.mem.find 0x2000 == some 7#8 && t.contested == [0x2000]) = true ∧
      after (step (completed [.memStore 0x2001 7])) (fun t => t.mem.find 0x2001 == some 7#8 && t.contested == []) = true := by
  decide +kernel

/-- R95: the store to CMD settles it: the command reads the host's byte at 0x2000. -/
theorem test_store_visible_to_next_command :
    after (exec .decompress { completed [] with
        win := ⟨2, 0x2000, 1, 0x3000, 9, 0, 0, 0⟩, mem := [(0x2000, 7)], contested := [0x2000] })
      (fun t => t.inByte 0 == 7#8 && t.contested == []) = true := by decide +kernel

/-- R86: a 16-bit access and one beside the alignment are refused. -/
theorem test_bad_register_access :
    refusalOf (step (hosted [.regLoad 0x40000004 2])) = 2 ∧
      refusalOf (step (hosted [.regLoad 0x40000006 4])) = 2 ∧
      refusalOf (step (hosted [.regLoad 0x40000040 4])) = 3 := by decide +kernel

/-- A memory write keeps the addresses rising and replaces in place. -/
theorem test_memory_put :
    Memory.put [(1, 5#8), (4, 6#8)] 2 7#8 = [(1, 5#8), (2, 7#8), (4, 6#8)] ∧
      Memory.put [(1, 5#8), (4, 6#8)] 4 7#8 = [(1, 5#8), (4, 7#8)] := by decide

/-! ### Witnesses: for each statement with hypotheses, a state and operands that meet them, clause by clause -/

theorem test_witness_DecodeOfEncodeGivesInstruction :
    (Instr.itokMatchL8 0 1).wellFormed = true ∧ (Instr.cmdIllegal 3).wellFormed = true := by decide

theorem test_witness_DecodedBytesAreItsEncoding :
    decode (.len 15) [0xFF#8, 0#8, 0#8, 0#8, 0#8, 0#8, 0#8, 0x77#8] = .ok (.lenExt32 0, [0x77#8]) := by decide

theorem test_witness_SymbolFieldsAreRead :
    (0xFF#9).toNat < 256 ∧ 256 ≤ (0x100#9).toNat ∧ ¬(0x100#9 = 0x100#9 ∧ false = true) ∧
      ¬(0x101#9 = 0x100#9 ∧ true = true) := by decide

theorem test_witness_MatchSymbolCarriesItsClass : (1 ≤ 1 ∧ 1 ≤ 65535) ∧ 1 ≤ 65535 ∧ 65535 ≤ 65535 := by decide

theorem test_witness_WireLengthReadsBack :
    4294967295 < 4294967296 ∧ 14 < 15 ∧ (15 ≤ 15 ∧ 15 ≤ 268) ∧ (15 ≤ 268 ∧ 268 ≤ 268) ∧ (269 ≤ 269 ∧ 269 ≤ 65535) ∧
      65536 ≤ 65536 := by decide

theorem test_witness_LengthTableNibbles : 1 < [0x21#8, 0x43#8].length := by decide

/-- Two symbols of different lengths in a valid table. -/
theorem test_witness_CanonicalCodeIsPrefixFree :
    tableValid tableB1 = true ∧ lenOf tableB1 0x61 ≠ 0 ∧ 0x62 ≠ 0x61 ∧ lenOf tableB1 0x62 ≠ 0 ∧
      lenOf tableB1 0x61 ≤ lenOf tableB1 0x62 := by decide +kernel

theorem test_witness_CodewordsAscendWithinALength : tableValid tableB1 = true ∧ 1 ≤ 1 ∧ lenOf tableB1 0x10F ≠ 0 := by decide +kernel

/-- The answer of Decode(), as data. -/
def decoded (r : Res Nat) : Option Nat :=
  match r with
  | .ok a _ => some a
  | .raise _ _ => none

/-- Vector V-B1's buffer, in which 0x100 is found, and a table in which nothing is. -/
theorem test_witness_DecodeFindsExactlyTheCodeword :
    (fun s : State => tableValid s.len = true ∧ lenOf s.len 0x100 ≠ 0 ∧ lenOf s.len 0x100 ≤ s.rd.nbits.toNat ∧
        peek (lenOf s.len 0x100) s = codeOf s.len 0x100 ∧ decoded (decodeNext s) = some 0x100)
        { decoding 0xC0000000 32 9 0 with len := tableB1 } ∧
      decoded (decodeNext (decoding 0 32 9 0)) = none := by decide +kernel

theorem test_witness_WriteBitsFlushesBeyondSixteen :
    (16 < writerB3.wr.nacc.toNat + 1 ∧ (5 : Nat) < writerB3.wr.rawpos.toNat + 2) ∧
      writerB3.wr.nacc.toNat + 0 ≤ 16 ∧ writerB3.wr.rawpos.toNat + 2 ≤ writerB3.cur.cap.toNat := by decide +kernel

theorem test_witness_WriteRawPlacesBytesAtRawpos :
    (packing 263).cur.cap.toNat < (packing 263).wr.rawpos.toNat + 4 ∧
      (packing 264).wr.rawpos.toNat + 4 ≤ (packing 264).cur.cap.toNat := by decide +kernel

theorem test_witness_SkipRefillsBelowSixteen :
    (fun s : State => 1 ≤ 16 ∧ 1 ≤ s.rd.nbits.toNat ∧ s.rd.nbits.toNat - 1 < 16 ∧ s.rd.rpos.toNat + 2 ≤ s.cur.slen.toNat)
        { readerB3 with rd := ⟨0x80000000, 16, 5⟩ } ∧
      (fun s : State => 16 ≤ s.rd.nbits.toNat - 16) readerB3 ∧
      (fun s : State => 1 ≤ s.rd.nbits.toNat ∧ s.cur.slen.toNat < s.rd.rpos.toNat + 2)
        { readerB3 with rd := ⟨0x80000000, 16, 6⟩ } := by decide +kernel

theorem test_witness_FinishFillsBothSlots :
    WriterInv (packing 260) := by unfold WriterInv; decide +kernel

theorem test_witness_CommandStoreDispatches :
    (hosted [.regStore 0x40000000 4 3]).host = .regStore (hosted []).par.xhBase 4 3 :: [] := by decide +kernel

theorem test_witness_IgnoredCommandsChangeNothing : (decoding 0 32 9 0).busy = true := by decide +kernel

/-- An operand setting with BUSY = 0. -/
def ready (src slen dst cap : Word) : State := { State.reset with win := ⟨0, src, slen, dst, cap, 0, 0, 0⟩ }

theorem test_witness_CompressIsAccepted :
    ((ready 0x1000 0 0x2000 260).busy = false ∧ (ready 0x1000 0 0x2000 260).launchOk = true ∧
        (ready 0x1000 0 0x2000 260).win.srcLen = 0) ∧
      ((ready 0x10000 65535 0x2000 260).launchOk = true ∧ (ready 0x10000 65535 0x2000 260).win.srcLen ≠ 0) ∧
      (ready 0x10000 65536 0x2000 260).launchOk = true := by decide +kernel

/-- The buffers may touch the end of the address space and each other. -/
theorem test_witness_DecompressIsAccepted :
    (ready 0xFFFFFFF0 16 0xFFFFFFE0 16).busy = false ∧ (ready 0xFFFFFFF0 16 0xFFFFFFE0 16).launchOk = true := by
  decide +kernel

theorem test_witness_IllegalCommandCompletesAtOnce : (ready 0 0 0 0).busy = false := by decide +kernel

/-- A wrapping input, a wrapping output, one shared byte, and neither. -/
theorem test_witness_BadBuffersAreRefused :
    (fun s : State => s.busy = false ∧ 4294967296 < s.win.srcAddr.toNat + s.win.srcLen.toNat)
        (ready 0xFFFFFFF0 17 0x2000 9) ∧
      (fun s : State => 4294967296 < s.win.dstAddr.toNat + s.win.dstCap.toNat) (ready 0 9 0xFFFFFFFF 2) ∧
      (fun s : State => s.win.srcAddr.toNat ≤ 0x100F ∧ 0x100F < s.win.srcAddr.toNat + s.win.srcLen.toNat ∧
        s.win.dstAddr.toNat ≤ 0x100F ∧ 0x100F < s.win.dstAddr.toNat + s.win.dstCap.toNat) (ready 0x1000 16 0x100F 1) ∧
      (fun s : State => s.win.srcAddr.toNat + s.win.srcLen.toNat ≤ 4294967296 ∧
        s.win.dstAddr.toNat + s.win.dstCap.toNat ≤ 4294967296 ∧
        s.win.srcAddr.toNat + s.win.srcLen.toNat ≤ s.win.dstAddr.toNat) (ready 0x1000 16 0x1010 1) := by decide +kernel

theorem test_witness_RegisterLoadsReadTheWindow :
    (0x4000003C#32).toNat = State.reset.par.xhBase.toNat + 0x3C ∧ 0x3C < 64 ∧ 0x3C % 4 = 0 ∧
      (hosted [.regLoad 0x4000003C 4]).host = .regLoad 0x4000003C 4 :: [] := by decide +kernel

theorem test_witness_RegisterStoresWhileBusyAreIgnored :
    (fun s : State => s.busy = true ∧ (0x40000000#32).toNat = s.par.xhBase.toNat + 0 ∧
        s.host = .regStore 0x40000000 4 2 :: [])
      { decoding 0 32 9 0 with host := [.regStore 0x40000000 4 2] } := by decide +kernel

theorem test_witness_OperandRegistersAreWritten :
    (0x40000014#32).toNat = State.reset.par.xhBase.toNat + 0x14 ∧ State.reset.busy = false ∧
      (hosted [.regStore 0x40000014 4 9]).host = .regStore 0x40000014 4 9 :: [] := by decide +kernel

theorem test_witness_StatusStoreClearsDoneAndErr :
    (fun s : State => s.busy = false ∧ s.done = true ∧ (0x40000004#32).toNat = s.par.xhBase.toNat + 4 ∧
        s.host = .regStore 0x40000004 4 2 :: [])
      { hosted [.regStore 0x40000004 4 2] with win := ⟨2, 0, 0, 0, 0, 260, 0, 9⟩ } := by decide +kernel

/-- The two ends of the reserved range, and the first read-only register. -/
theorem test_witness_ReadOnlyAndReservedStoresAreIgnored :
    ((0x40000018#32).toNat = State.reset.par.xhBase.toNat + 0x18 ∧ 0x18 ≤ 0x18 ∧ 0x18 ≤ 0x3C ∧ 0x18 % 4 = 0) ∧
      ((0x40000024#32).toNat = State.reset.par.xhBase.toNat + 0x24 ∧ 0x24 ≤ 0x24 ∧ 0x24 % 4 = 0) ∧
      ((0x4000003C#32).toNat = State.reset.par.xhBase.toNat + 0x3C ∧ 0x3C ≤ 0x3C ∧ 0x3C % 4 = 0) ∧
      (hosted [.regStore 0x40000018 4 5]).host = .regStore 0x40000018 4 5 :: [] ∧
      (hosted [.regLoad 0x40000024 4]).host = .regLoad 0x40000024 4 :: [] := by decide +kernel

theorem test_witness_MisshapenRegisterAccessIsRefused :
    ((0x40000004#32).toNat = State.reset.par.xhBase.toNat + 4 ∧ (2 ≠ 4 ∨ 4 % 4 ≠ 0)) ∧
      ((0x4000003F#32).toNat = State.reset.par.xhBase.toNat + 63 ∧ 63 < 64 ∧ (4 ≠ 4 ∨ 63 % 4 ≠ 0)) ∧
      (hosted [.regLoad 0x4000003F 4]).host = .regLoad 0x4000003F 4 :: [] ∧
      (hosted [.regStore 0x40000004 2 1]).host = .regStore 0x40000004 2 1 :: [] := by decide +kernel

theorem test_witness_CompletionSetsTheWindow :
    (running .decompress .dEndOfStream 260 0 260 0).win.status = 1 ∧
      (running .decompress .dEndOfStream 260 0 260 0).phase = .dEndOfStream := by decide +kernel

/-- The last byte of the output buffer, and the byte after it. -/
theorem test_witness_ErrorLeavesOutputUnspecified :
    (fun s : State => s.cur.dst.toNat ≤ (0x2008#32).toNat ∧ (0x2008#32).toNat < s.cur.dst.toNat + s.cur.cap.toNat ∧
        ¬(0x2009#32).toNat < s.cur.dst.toNat + s.cur.cap.toNat)
      (decoding 0 32 9 0) := by decide +kernel

theorem test_witness_ResetClearsTheWindow :
    (hosted [.reset]).host = .reset :: [] ∧ (hosted [.reset]).busy = false ∧ (decoding 0 32 9 0).busy = true ∧
      (decoding 0 32 9 0).inOutput 0x2000 = true ∧ (decoding 0 32 9 0).inOutput 0x2008 = true ∧
      ¬(0x2009#32).toNat < (decoding 0 32 9 0).cur.dst.toNat + (decoding 0 32 9 0).cur.cap.toNat := by decide +kernel

/-- A byte of the input, of the output, and of neither while BUSY; a byte to synchronise with and the ones beside it; a byte
of no kind, and a contested one. -/
theorem test_witness_HostMemoryAccessesMeetTheEngine :
    (fun s : State => s.busy = true ∧ s.inInput 0x1000 = true ∧ s.inOutput 0x2008 = true ∧
        s.inInput 0x2009 = false ∧ s.inOutput 0x2009 = false ∧ s.host = .memStore 0x2009 7 :: [] ∧
        s.hostViewOpen 0x2008 = true ∧ s.hostViewOpen 0x2009 = false)
      { decoding 0 32 9 0 with host := [.memStore 0x2009 7] } ∧
      (fun s : State => s.busy = false ∧ s.hostViewOpen 0x2000 = true ∧ s.hostViewOpen 0x2001 = false ∧
        s.hostViewOpen 0x1FFF = false ∧ s.host = .memLoad 0x2000 :: []) (completed [.memLoad 0x2000]) ∧
      (fun s : State => s.hostViewOpen 0x2000 = true ∧ s.hostViewOpen 0x2001 = false)
        { completed [.memLoad 0x2000] with unseen := [], contested := [0x2000] } := by decide +kernel

theorem test_witness_HostScheduleDrivesEngine :
    (hosted []).host = [] ∧ (hosted [.tick]).host = .tick :: [] ∧ (hosted [.poll]).host = .poll :: [] ∧
      (hosted [.poll]).busy = false ∧ (hosted [.poll]).phase = .idle ∧
      (fun s : State => s.busy = true ∧ s.host = .poll :: []) { decoding 0 32 9 0 with host := [.poll] } := by
  decide +kernel

/-- A match token at the head of the intermediate stream of vector V-C1, its group's mask held. -/
def packingToken : State :=
  { packing 260 with
    tk := { (packing 260).tk with scrLen := 3 }
    scr := [(0, 3), (1, 0), (2, 3)]
    pk := ⟨0, 1, 0⟩ }

/-- A command store, a decodable symbol, a length form, and a token. -/
theorem test_witness_StepRunsTheDecodedInstruction :
    (hosted [.regStore 0x40000000 4 1]).host = .regStore (hosted []).par.xhBase 4 1 :: [] ∧
      (fun s : State => s.phase = .dDecode ∧ s.mt.await = false ∧ gate s = true ∧ decoded (decodeNext s) = some 0x100)
        { decoding 0xC0000000 32 9 0 with len := tableB1 } ∧
      (fun s : State => s.phase = .dDecode ∧ s.mt.await = true ∧
        decodeLength s.mt.n (lengthBytes s) = .ok (.nibble 2, lengthBytes s))
        { decoding 0 32 7 2 with rd := ⟨0, 32, 270⟩, mt := ⟨2, 1, 2, true⟩ } ∧
      (fun s : State => s.phase = .cPack ∧ s.pk.ppos.toNat < s.tk.scrLen.toNat ∧
        decode .mat (tokenBytes s) = .ok (.itokMatchL8 3 3, []))
        packingToken := by decide +kernel

theorem test_witness_LiteralWritesOneByte :
    (decoding 0 32 1 1).cur.cap.toNat ≤ (decoding 0 32 1 1).cur.outPos.toNat ∧
      (decoding 0 32 1 0).cur.outPos.toNat < (decoding 0 32 1 0).cur.cap.toNat := by decide +kernel

theorem test_witness_EndOfStreamEndsTheChunk :
    (decoding 0 32 1 1).cur.inPos.toNat ≤ (decoding 0 32 1 1).rd.rpos.toNat := by decide +kernel

/-- R259's example: symbol 0x113 with residual bit 1, out_pos = 3 and a capacity of exactly 9. -/
theorem test_witness_MatchCopiesItsLength :
    (fun s : State => (1#4).toNat ≤ s.rd.nbits.toNat ∧ 2 ^ (1#4).toNat + peek (1#4).toNat s ≤ s.cur.outPos.toNat ∧
        decodeLength 3 (lengthBytes s) = .ok (.nibble 3, []) ∧ lengthValue (.nibble 3) = some 3 ∧
        s.cur.outPos.toNat + (3 + 3) ≤ s.cur.cap.toNat)
      { decoding 0x80000000 32 9 3 with rd := ⟨0x80000000, 32, 270⟩ } := by decide +kernel

/-- Too few bits (vector V-D12), an offset before the start, a field 14 (vector V-D11), and a full output. -/
theorem test_witness_MatchFailsInCheckOrder :
    (decoding 0 13 9 3).rd.nbits.toNat < (15#4).toNat ∧
      (fun s : State => (1#4).toNat ≤ s.rd.nbits.toNat ∧ s.cur.outPos.toNat < 2 ^ (1#4).toNat + peek (1#4).toNat s)
        (decoding 0x80000000 32 9 2) ∧
      (decodeLength 15 [0xFF#8, 0x0E#8, 0#8] = .ok (.ext16 14, []) ∧ lengthValue (.ext16 14) = none) ∧
      (fun s : State => 2 ^ (1#4).toNat + peek (1#4).toNat s ≤ s.cur.outPos.toNat ∧
        decodeLength 3 (lengthBytes s) = .ok (.nibble 3, []) ∧ lengthValue (.nibble 3) = some 3 ∧
        s.cur.cap.toNat < s.cur.outPos.toNat + (3 + 3))
        { decoding 0x80000000 32 8 3 with rd := ⟨0x80000000, 32, 270⟩ } := by decide +kernel

/-- A held match at the boundary of each form's range, with room for exactly its copy. -/
theorem test_witness_LengthFormsFinishTheMatch :
    (fun s : State => 1 ≤ s.mt.off.toNat ∧ s.mt.off.toNat ≤ s.cur.outPos.toNat ∧
        s.cur.outPos.toNat + ((14#4).toNat + 3) ≤ s.cur.cap.toNat ∧ (Instr.lenNibble 14).wellFormed = true)
        { decoding 0 32 18 1 with mt := ⟨1, 0, 14, true⟩ } ∧
      (fun s : State => s.cur.outPos.toNat + (15 + (0xFE#8).toNat + 3) ≤ s.cur.cap.toNat ∧
        (Instr.lenExt8 0xFE).wellFormed = true) (decoding 0 32 273 1) ∧
      (fun s : State => 15 ≤ (15#16).toNat ∧ s.cur.outPos.toNat + ((15#16).toNat + 3) ≤ s.cur.cap.toNat)
        (decoding 0 32 19 1) ∧
      (fun s : State => 15 ≤ (15#32).toNat ∧ s.cur.outPos.toNat + ((15#32).toNat + 3) ≤ s.cur.cap.toNat)
        (decoding 0 32 19 1) := by decide +kernel

/-- Fields of 14, and each form one byte short of room, at the ends of its range. -/
theorem test_witness_BadLengthsAreRejected :
    (14#16).toNat < 15 ∧ (14#32).toNat < 15 ∧ 15 ≤ (0xFFFFFFFF#32).toNat ∧
      (fun s : State => s.cur.cap.toNat < s.cur.outPos.toNat + ((0xFFFFFFFF#32).toNat + 3)) (decoding 0 32 0xFFFFFFFF 1) ∧
      (fun s : State => s.cur.cap.toNat < s.cur.outPos.toNat + ((15#32).toNat + 3)) (decoding 0 32 18 1) ∧
      (15 ≤ (15#16).toNat ∧
        (fun s : State => s.cur.cap.toNat < s.cur.outPos.toNat + ((15#16).toNat + 3)) (decoding 0 32 18 1)) ∧
      (fun s : State => s.cur.cap.toNat < s.cur.outPos.toNat + ((0#4).toNat + 3)) (decoding 0 32 3 1) ∧
      (fun s : State => s.cur.cap.toNat < s.cur.outPos.toNat + ((14#4).toNat + 3)) (decoding 0 32 17 1) ∧
      (fun s : State => s.cur.cap.toNat < s.cur.outPos.toNat + (15 + (0xFE#8).toNat + 3)) (decoding 0 32 272 1) := by
  decide +kernel

/-- An input whose 260 bytes are the bytes `bs` from 0x1000 on, every other byte of it `v`. -/
def header (v : Byte) (bs : List (Nat × Byte)) : State :=
  { running .decompress .dReadHeader 260 9 0 0 with
    mem := (List.range 260).map fun i => (0x1000 + i, ((bs.find? fun p => p.1 == i).elim v Prod.snd)) }

/-- 259 bytes, an oversubscribed table (every length 1), and the empty block's table. -/
theorem test_witness_HeaderLoadsTableAndReader :
    (fun s : State => s.phase = .dReadHeader ∧ s.cur.inPos.toNat ≤ s.cur.slen.toNat ∧
        s.cur.slen.toNat < s.cur.inPos.toNat + 260) (running .decompress .dReadHeader 259 9 0 0) ∧
      (fun s : State => s.cur.inPos.toNat + 260 ≤ s.cur.slen.toNat ∧
        2 ^ 15 < kraftSum (tableOfBytes (s.inBytes s.cur.inPos.toNat 256))) (header 0x11 []) ∧
      (fun s : State => s.cur.inPos.toNat + 260 ≤ s.cur.slen.toNat ∧
        kraftSum (tableOfBytes (s.inBytes s.cur.inPos.toNat 256)) ≤ 2 ^ 15) (header 0 [(0x80, 1)]) := by decide +kernel

/-- Exactly 65536 bytes out and a zero buffer; one byte fewer, or one buffered bit, and a table without codewords. -/
theorem test_witness_GateEndsTheChunk :
    (fun s : State => s.phase = .dDecode ∧ s.mt.await = false ∧
        65536 ≤ s.cur.outPos.toNat - s.cur.chunkOutStart.toNat ∧ s.rd.buf = 0 ∧ s.cur.inPos.toNat ≤ s.rd.rpos.toNat)
        (decoding 0 32 70000 65536) ∧
      (fun s : State => s.cur.outPos.toNat - s.cur.chunkOutStart.toNat < 65536 ∧ decoded (decodeNext s) = none)
        (decoding 0 32 70000 65535) ∧
      (fun s : State => s.rd.buf ≠ 0 ∧ decoded (decodeNext s) = none) (decoding 1 32 70000 65536) := by decide +kernel

theorem test_witness_OpenTokenMarksTheGroup :
    (fun s : State => s.tk.gbit = 32 ∧ s.tk.scrLen.toNat + 4 ≤ s.par.scratchBytes ∧ s.tk.scrLen.toNat + 4 < 262144)
        { tokenizing with tk := ⟨3, 9, 0, 32, 0, 73726⟩ } ∧
      (fun s : State => s.tk.gbit = 32 ∧ s.par.scratchBytes < s.tk.scrLen.toNat + 4)
        { tokenizing with tk := ⟨3, 9, 0, 32, 0, 73727⟩ } ∧
      (fun s : State => s.tk.gbit.toNat < 32) { tokenizing with tk := ⟨3, 9, 0, 31, 0, 35⟩ } := by decide +kernel

/-- The answer (6, 3) at cursor 3 of 9; at cursor 7 the same answer, which clamps to 2. -/
theorem test_witness_TokenizerClampsThenDecides :
    (fun s : State => s.phase = .cTokenize ∧ s.chunkOpen = true ∧ s.tk.tpos.toNat < s.tk.tend.toNat ∧
        3 ≤ min (oraclesC1.matchSource s.input s.tk.tpos.toNat (s.tk.tend.toNat - s.tk.tpos.toNat)).1
          (s.tk.tend.toNat - s.tk.tpos.toNat)) tokenizing ∧
      (fun (s : State) (o : Config.Oracles) => s.tk.tpos.toNat < s.tk.tend.toNat ∧
        min (o.matchSource s.input s.tk.tpos.toNat (s.tk.tend.toNat - s.tk.tpos.toNat)).1
          (s.tk.tend.toNat - s.tk.tpos.toNat) < 3)
        { tokenizing with tk := ⟨7, 9, 0, 3, 0, 7⟩ } ⟨fun _ _ _ => (6, 3), fun _ _ => 0⟩ := by decide +kernel

/-- Oracles that find a run of four equal bytes only, and give every symbol a codeword of 9 bits. -/
def runOracles : Config.Oracles where
  matchSource := fun input p _ =>
    if (decide (1 ≤ p) && (List.range 3).all fun i => input.getD (p - 1 + i) 0 == input.getD (p + i) 0) then (3, 1)
    else (0, 0)
  huffBuild := fun _ _ => 9

/-- R201's contract is met by a match source that finds matches. -/
theorem test_matchSource_contract : MatchSourceContract runOracles := by
  intro input p r hr hl
  cases h : decide (1 ≤ p) && (List.range 3).all fun i => input.getD (p - 1 + i) 0 == input.getD (p + i) 0 with
  | false =>
    simp only [runOracles, h]
    intro h3
    simp at h3
  | true =>
    simp only [runOracles, h]
    intro h3
    simp only [Bool.and_eq_true, decide_eq_true_eq, List.all_eq_true, List.mem_range, beq_iff_eq] at h
    refine ⟨Nat.le_refl 1, ?_, fun i hi => h.2 i ?_⟩
    · simp only [if_true, Config.window]; omega
    · simp only [if_true] at hi; omega

/-- R210's contract is met by the flat code of 512 codewords of 9 bits. -/
theorem test_huffBuild_contract : HuffBuildContract runOracles := by
  intro cnt _
  have e : builtLengths runOracles cnt = (List.range 512).map fun _ => 9#4 := by unfold builtLengths; rfl
  have h : ∀ s < 512, 1 ≤ lenOf ((List.range 512).map fun _ => 9#4) s := by decide +kernel
  rw [e]
  exact ⟨by decide +kernel, fun s hs _ => h s hs⟩

/-- The contract's match at cursor 3 of nine equal bytes. -/
theorem test_witness_TokenizerClampsThenDecides_contract :
    (fun s : State => s.phase = .cTokenize ∧ s.chunkOpen = true ∧ s.tk.tpos.toNat < s.tk.tend.toNat ∧
        s.tk.tend.toNat ≤ s.cur.slen.toNat ∧
        3 ≤ min (runOracles.matchSource s.input s.tk.tpos.toNat (s.tk.tend.toNat - s.tk.tpos.toNat)).1
          (s.tk.tend.toNat - s.tk.tpos.toNat))
      { tokenizing with mem := (List.range 9).map fun i => (0x1000 + i, 0x61) } := by decide +kernel

/-- The state OpenToken leaves, as data. -/
def opened (m : Bool) (s : State) : Option State :=
  match openToken m s with
  | .ok _ t => some t
  | .raise _ _ => none

/-- An open group and a full one; room for exactly the token, and one byte too little. -/
theorem test_witness_TokensAreAppended :
    (opened false tokenizing).any (fun t => t.tk.scrLen.toNat + 1 ≤ t.par.scratchBytes) = true ∧
      (opened false { tokenizing with tk := ⟨3, 9, 0, 32, 0, 73725⟩ }).any
        (fun t => t.tk.scrLen.toNat + 1 ≤ t.par.scratchBytes) = true ∧
      (opened false { tokenizing with tk := ⟨3, 9, 0, 32, 0, 73726⟩ }).any
        (fun t => t.par.scratchBytes < t.tk.scrLen.toNat + 1) = true ∧
      (3 ≤ 256 ∧ 256 ≤ 65536 ∧ 253 = 256 - 3 ∧
        (opened true { tokenizing with tk := ⟨3, 9, 0, 32, 0, 73723⟩ }).any
          (fun t => t.tk.scrLen.toNat + 3 ≤ t.par.scratchBytes) = true) ∧
      (65536 ≤ 65536 ∧ ¬65533 ≤ 253 ∧
        (opened true { tokenizing with tk := ⟨3, 9, 0, 32, 0, 73722⟩ }).any
          (fun t => t.par.scratchBytes < t.tk.scrLen.toNat + 5) = true) := by decide +kernel

/-- A full chunk tokenized to its end, and a final one, each with exactly 260 bytes of capacity. -/
theorem test_witness_BlockHeaderIsWritten :
    (fun s : State => s.phase = .cTokenize ∧ s.chunkOpen = true ∧ s.cur.finalChunk = false ∧ s.cnt.length = 512 ∧
        s.tk.tend.toNat ≤ s.tk.tpos.toNat ∧ s.cur.outPos.toNat + 260 ≤ s.cur.cap.toNat)
        { running .compress .cTokenize 65536 260 0 0 with chunkOpen := true, tk := ⟨65536, 65536, 0, 32, 0, 73728⟩ } ∧
      (fun s : State => s.cur.finalChunk = true ∧ s.tk.tend.toNat ≤ s.tk.tpos.toNat ∧ (resOf (tokEos s)).1 = none ∧
        (resOf (tokEos s)).2.cur.outPos.toNat + 260 ≤ (resOf (tokEos s)).2.cur.cap.toNat)
        { tokenizing with tk := ⟨9, 9, 8, 4, 0, 10⟩ } := by decide +kernel

theorem test_witness_CapacityIsCheckedBeforeAChunk :
    (fun s : State => s.phase = .cTokenize ∧ s.chunkOpen = false ∧ s.cur.cap.toNat < s.cur.outPos.toNat + 260)
        (running .compress .cTokenize 9 259 0 0) ∧
      (fun s : State => s.phase = .cTokenize ∧ s.chunkOpen = false ∧ s.cur.outPos.toNat + 260 ≤ s.cur.cap.toNat)
        (running .compress .cTokenize 9 260 0 0) := by decide +kernel

theorem test_witness_EmptyBlockIsWritten :
    (fun s : State => s.phase = .cEmpty ∧ s.cur.op = .compress ∧ s.win.status = 1 ∧
        s.cur.outPos.toNat + 260 ≤ s.cur.cap.toNat) (running .compress .cEmpty 0 260 0 0) ∧
      (fun s : State => s.cur.cap.toNat < s.cur.outPos.toNat + 260) (running .compress .cEmpty 0 259 0 0) := by
  decide +kernel

/-- A packed chunk; exactly 65536 bytes left, none, one, and 65535. -/
theorem test_witness_StreamDriverSplitsTheInput :
    (fun s : State => s.phase = .cPack ∧ s.tk.scrLen.toNat ≤ s.pk.ppos.toNat)
        { packing 260 with tk := ⟨9, 9, 0x18, 5, 0, 13⟩, pk := ⟨13, 0x18, 5⟩ } ∧
    (fun s : State => s.cur.inPos.toNat ≤ s.cur.slen.toNat ∧ 65536 ≤ s.cur.slen.toNat - s.cur.inPos.toNat)
        (running .compress .cPack 131072 600 65536 260) ∧
      (fun s : State => s.cur.inPos.toNat = s.cur.slen.toNat) (running .compress .cPack 65536 600 65536 260) ∧
      (fun s : State => 0 < s.cur.slen.toNat - s.cur.inPos.toNat ∧ s.cur.slen.toNat - s.cur.inPos.toNat < 65536)
        (running .compress .cPack 65537 600 65536 260) ∧
      (fun s : State => s.cur.slen.toNat - s.cur.inPos.toNat < 65536) (running .compress .cPack 131071 600 65536 260) := by
  decide +kernel

/-- A byte without a codeword; one with; and a flush due with the capacity used up. -/
theorem test_witness_LiteralTokenPacksItsCodeword :
    lenOf (packing 260).len 0x64 = 0 ∧
      (lenOf (packing 260).len 0x61 ≠ 0 ∧ (packing 260).wr.nacc.toNat + lenOf (packing 260).len 0x61 ≤ 16) ∧
      (fun s : State => 16 < s.wr.nacc.toNat + lenOf s.len 0x61 ∧ s.wr.rawpos.toNat + 2 ≤ s.cur.cap.toNat)
        { packing 262 with wr := ⟨0, 14, 256, 258, 260⟩ } ∧
      (fun s : State => 16 < s.wr.nacc.toNat + lenOf s.len 0x61 ∧ s.cur.cap.toNat < s.wr.rawpos.toNat + 2)
        { packing 261 with wr := ⟨0, 14, 256, 258, 260⟩ } := by decide +kernel

/-- Each token form with a codeword for its symbol and exactly the capacity it needs. -/
theorem test_witness_MatchTokensPackSymbolExtensionResidual :
    (fun s : State => lenOf s.len (symOfMatch 3 3) ≠ 0 ∧ s.wr.rawpos.toNat + packNeed s 3 3 ≤ s.cur.cap.toNat)
        (packing 260) ∧
      (fun s : State => lenOf s.len (symOfMatch 1 269) ≠ 0 ∧ s.wr.rawpos.toNat + packNeed s 1 269 ≤ s.cur.cap.toNat)
        { packing 263 with len := lengths [(0x10F, 1)] } ∧
      (fun s : State => lenOf s.len (symOfMatch 1 65536) ≠ 0 ∧ s.wr.rawpos.toNat + packNeed s 1 65536 ≤ s.cur.cap.toNat)
        { packing 267 with len := lengths [(0x10F, 1)] } ∧
      (fun s : State => lenOf s.len 256 ≠ 0 ∧ s.wr.rawpos.toNat + packNeed s 0 0 ≤ s.cur.cap.toNat) (packing 260) := by
  decide +kernel

/-- A symbol without a codeword; an extension one byte too long (vector V-C11); and a match token and a group
mask of which a byte is missing. -/
theorem test_witness_TokensFailByName :
    matchFields (.itokMatchL16 1 296) = some (1, 296) ∧ lenOf (packing 262).len (symOfMatch 1 296) = 0 ∧
      (fun s : State => lenOf s.len (symOfMatch 1 296) ≠ 0 ∧ s.cur.cap.toNat < s.wr.rawpos.toNat + packNeed s 1 296 ∧
        (s.wr.nacc.toNat ≤ 16 ∧ s.wr.slot0.toNat + 2 ≤ s.wr.slot1.toNat ∧ s.wr.slot1.toNat + 2 ≤ s.wr.rawpos.toNat ∧
          s.wr.rawpos.toNat ≤ s.cur.cap.toNat) ∧
        buffersOk s.cur.src s.cur.slen s.cur.dst s.cur.cap = true)
        { packing 262 with len := lengths [(0x10F, 1)] } ∧
      (fun s : State => s.phase = .cPack ∧ s.pk.ppos.toNat < s.tk.scrLen.toNat ∧ ¬32 ≤ s.pk.pbit.toNat ∧
        s.pk.pmask.getLsbD s.pk.pbit.toNat = true ∧ decode .mat (tokenBytes s) = .error .truncated)
        { packingToken with tk := { packingToken.tk with scrLen := 2 } } ∧
      (fun s : State => s.phase = .cPack ∧ s.pk.ppos.toNat < s.tk.scrLen.toNat ∧ 32 ≤ s.pk.pbit.toNat ∧
        decode .group (tokenBytes s) = .error .truncated)
        { packingToken with pk := ⟨0, 0, 32⟩ } := by decide +kernel

/-- A state in the middle of a command meets every invariant (the state of vector V-C1's tokenizer at cursor 3, with a
scratch memory of the required size), and the step from it answers a next state. -/
theorem test_witness_invariants :
    WindowInv tokenizing ∧ MemoryInv tokenizing ∧ CursorInv tokenizing ∧ ScratchInv tokenizing ∧
      73730 ≤ tokenizing.par.scratchBytes ∧ tokenizing.phase = .cTokenize := by
  refine ⟨?_, ?_, ?_, ?_, by decide +kernel, rfl⟩
  · unfold WindowInv; decide +kernel
  · unfold MemoryInv; decide +kernel
  · exact ⟨by decide +kernel, by decide +kernel, by decide +kernel, by decide +kernel, by decide +kernel,
      by decide +kernel, fun h => absurd h (by decide +kernel), by decide +kernel, fun h => absurd h (by decide +kernel)⟩
  · exact fun _ _ => ⟨by decide +kernel, 1, by decide +kernel, by decide +kernel⟩

/-- The step from that state answers a next state (StepKeepsWindow, StepKeepsMemories, StepKeepsCursors,
StepKeepsScratchBound, OnlyTheOutputBufferChanges). -/
theorem test_witness_step_from_invariants :
    after (stepWith oraclesC1 tokenizing) (fun t => t.phase == .cTokenize) = true ∧ tokenizing.host = [] := by
  decide +kernel

/-- A running state of the decompressor meets the cursors' invariant too (EngineStepsMakeProgress). -/
theorem test_witness_EngineStepsMakeProgress : CursorInv (decoding 0 32 9 0) ∧ (decoding 0 32 9 0).phase ≠ .idle := by
  refine ⟨⟨by decide +kernel, by decide +kernel, by decide +kernel, by decide +kernel, by decide +kernel,
    by decide +kernel, fun h => absurd h (by decide +kernel), by decide +kernel, fun _ => ⟨?_, by decide +kernel⟩⟩,
    by decide +kernel⟩
  unfold ReaderInv
  decide +kernel

/-- A store of 1 to CMD leaves IDLE. -/
theorem test_witness_OnlyACommandLeavesIdle :
    (hosted [.regStore 0x40000000 4 1]).phase = .idle ∧
      after (stepWith noOracles (hosted [.regStore 0x40000000 4 1])) (fun t => t.phase != .idle) = true := by
  decide +kernel

end Sys2Proof.Tests
end

section
/-! SUPPORT. The bound of the intermediate stream (R209) along a step. The tokenizer's own step pays for each token out of
the input bytes it consumes; every other step keeps what the bound speaks of, or begins a chunk that is not yet open. -/

namespace Sys2Proof.Machine

/-! ### What the bound reads -/

/-- The bound reads the phase, `chunkOpen`, the tokenizer's registers and in_pos, nothing else. -/
theorem ScratchInv.of_same {s t : State} (h : ScratchInv s) (hp : t.phase = s.phase) (ho : t.chunkOpen = s.chunkOpen)
    (hk : t.tk = s.tk) (hi : t.cur.inPos = s.cur.inPos) : ScratchInv t := by
  unfold ScratchInv
  rw [hp, ho, hk, hi]
  exact h

/-- No chunk is open: C_TOKENIZE, if this is the phase, has its capacity check and its set-up ahead (R220, R221). -/
def ChunkClosed (t : State) : Prop := t.phase = .cTokenize → t.chunkOpen = false

theorem ChunkClosed.scratchInv {t : State} (h : ChunkClosed t) : ScratchInv t := fun hp ho => by simp [h hp] at ho

theorem ChunkClosed.of_phase_ne {t : State} (h : t.phase ≠ .cTokenize) : ChunkClosed t := fun hp => absurd hp h

theorem completeOk_chunkClosed (s : State) : ChunkClosed (completeOk s) := .of_phase_ne (by simp)

theorem completeErr_chunkClosed (e : Err) (s : State) : ChunkClosed (completeErr e s) := .of_phase_ne (by simp)

/-! ### Steps that open no chunk -/

/-- The stream driver leaves the chunk it chooses closed (R225). -/
theorem nextChunk_chunkClosed (s : State) : ChunkClosed (nextChunk s) := by
  unfold nextChunk
  dsimp only
  split
  · exact fun _ => rfl
  · split
    · exact .of_phase_ne (by simp)
    · exact fun _ => rfl

theorem finishChunk_chunkClosed (s : State) : ChunkClosed (finishChunk s) := by
  unfold finishChunk
  dsimp only
  split
  · exact completeOk_chunkClosed _
  · exact nextChunk_chunkClosed _

/-- An operation that keeps the phase, outside C_TOKENIZE, opens no chunk however it ends. -/
theorem ChunkClosed.of_settle {s t : State} {r : Res Unit} (hs : s.phase ≠ .cTokenize) (hq : r.Quiet s)
    (ht : settle r = .next t) : ChunkClosed t := by
  rcases settle_next ht with rfl | ⟨e, u, rfl, rfl⟩
  · exact .of_phase_ne fun h => hs (hq.2.symm.trans h)
  · exact completeErr_chunkClosed e u

theorem exec_sym_chunkClosed {s t : State} (hs : s.phase ≠ .cTokenize) (sym : Sym) (z : Bool)
    (h : exec (decodeSym sym z) s = .next t) : ChunkClosed t := by
  rcases decodeSym_cases sym z with e | ⟨b, e⟩ | ⟨o, n, e⟩ <;> rw [e] at h
  · cases h
    exact .of_phase_ne (by simp)
  · exact .of_settle hs (literal_quiet b s) h
  · exact .of_settle hs (matchSymbol_quiet o n s) h

theorem exec_len_chunkClosed {s t : State} (hs : s.phase ≠ .cTokenize) (g : LenForm) (h : exec g.instr s = .next t) :
    ChunkClosed t := by
  cases g <;> exact .of_settle hs (lengthAction_quiet _ s) h

theorem fetchToken_chunkClosed {f : Format} {bits : Nat} {bs : List Byte} {s t : State} (hs : s.phase ≠ .cTokenize)
    (hf : f = .group ∨ f = .lit ∨ f = .mat) (h : perform (fetchToken f bits bs s) = .next t) : ChunkClosed t := by
  rcases perform_fetchToken f bits bs s with ⟨i, r, hd, e⟩ | e <;> rw [e] at h
  · rcases decode_token hd hf with ⟨m, rfl⟩ | ⟨b, rfl⟩ | ⟨off, l, hm⟩
    · cases h
      exact .of_phase_ne hs
    · exact .of_settle (by exact hs) (encodeSym_quiet _ _) h
    · rw [(matchFields_exec hm).1] at h
      exact .of_settle (by exact hs) (packMatch_quiet off l _) h
  · cases h
    exact completeErr_chunkClosed _ s

theorem fetchPack_chunkClosed {s t : State} (hs : s.phase ≠ .cTokenize) (h : perform (fetchPack s) = .next t) :
    ChunkClosed t := by
  unfold fetchPack at h
  split at h
  · cases h
    exact finishChunk_chunkClosed s
  · repeat' split at h
    · exact fetchToken_chunkClosed hs (.inl rfl) h
    · exact fetchToken_chunkClosed hs (.inr (.inr rfl)) h
    · exact fetchToken_chunkClosed hs (.inr (.inl rfl)) h

theorem emptyStep_chunkClosed {s t : State} (h : settle (emptyStep s) = .next t) : ChunkClosed t := by
  unfold emptyStep checkCapacity at h
  split at h
  · cases h
    exact completeErr_chunkClosed _ s
  · cases h
    exact completeOk_chunkClosed _

theorem readHeader_chunkClosed {s t : State} (h : settle (readHeader s) = .next t) : ChunkClosed t := by
  unfold readHeader at h
  dsimp only at h
  repeat' split at h
  · cases h
    exact completeErr_chunkClosed _ _
  · cases h
    exact completeErr_chunkClosed _ _
  · cases h
    exact .of_phase_ne (by simp)

theorem fetchDecode_chunkClosed {s t : State} (hs : s.phase ≠ .cTokenize) (h : perform (fetchDecode s) = .next t) :
    ChunkClosed t := by
  unfold fetchDecode at h
  repeat' split at h
  · have hq := fetchLength_quiet s.mt.n s
    cases hr : fetchLength s.mt.n s with
    | ok g u =>
      rw [hr] at h hq
      exact exec_len_chunkClosed (fun hu => hs (hq.2.symm.trans hu)) g h
    | raise e u =>
      rw [hr] at h
      cases h
      exact completeErr_chunkClosed e u
  · have hq : (decodeNext s).Quiet s := decodeFrom_quiet s 15
    cases hr : decodeNext s with
    | ok sym u =>
      rw [hr] at h hq
      exact exec_sym_chunkClosed (fun hu => hs (hq.2.symm.trans hu)) _ _ h
    | raise e u =>
      rw [hr] at h
      cases h
      exact completeErr_chunkClosed e u
  · cases h
    exact .of_phase_ne (by simp [chunkEndNoEos])

/-- Outside C_TOKENIZE no engine step opens a chunk. -/
theorem engineStep_chunkClosed {o : Config.Oracles} {s t : State} (hs : s.phase ≠ .cTokenize)
    (h : engineStep o s = .next t) : ChunkClosed t := by
  cases hp : s.phase with
  | idle =>
    rw [engineStep_idle o hp] at h
    cases h
    exact .of_phase_ne hs
  | cTokenize => exact absurd hp hs
  | cPack =>
    rw [engineStep_cPack o hp] at h
    exact fetchPack_chunkClosed hs h
  | cEmpty =>
    rw [engineStep_cEmpty o hp] at h
    exact emptyStep_chunkClosed h
  | dReadHeader =>
    rw [engineStep_dReadHeader o hp] at h
    exact readHeader_chunkClosed h
  | dDecode =>
    rw [engineStep_dDecode o hp] at h
    exact fetchDecode_chunkClosed hs h
  | dEndOfStream =>
    rw [engineStep_dEndOfStream o hp] at h
    cases h
    exact completeOk_chunkClosed s

/-! ### The tokenizer's step -/

/-- The opening of a chunk: no byte consumed, no group opened, an empty stream (R207). -/
theorem openChunk_scratchInv {s t : State} (h : openChunk s = .ok () t) : ScratchInv t := by
  unfold openChunk checkCapacity at h
  split at h
  · cases h
  · cases h
    exact fun _ _ => ⟨by simp, 0, by simp, by simp⟩

/-- A token that consumes `n` input bytes, at least one, keeps the bound (R209): its own bytes are at most `n`, and a group
is opened only when the last one holds 32 tokens, each of which has consumed a byte. -/
theorem ScratchInv.of_token {s u t : State} {n : Nat} (h : ScratchInv s) (hp : s.phase = .cTokenize)
    (hopen : s.chunkOpen = true) (hpos : s.cur.inPos.toNat ≤ s.tk.tpos.toNat) (hn : 1 ≤ n) (hu : Opened s n u)
    (hi : t.cur.inPos = s.cur.inPos) (ht : t.tk.tpos.toNat = s.tk.tpos.toNat + n) (hg : t.tk.gbit = u.tk.gbit)
    (hl : t.tk.scrLen = u.tk.scrLen) : ScratchInv t := by
  obtain ⟨hbit, g, hlen, htok⟩ := h hp hopen
  intro _ _
  rw [hi, ht, hg, hl]
  rcases hu.cost with ⟨hfull, hbit', hlen'⟩ | ⟨hroom, hbit', hlen'⟩
  · exact ⟨by omega, g + 1, by omega, by omega⟩
  · exact ⟨by omega, g, by omega, by omega⟩

theorem tokenFor_scratchInv {s t : State} {a : Nat × Nat} (h : ScratchInv s) (hp : s.phase = .cTokenize)
    (hopen : s.chunkOpen = true) (hpos : s.cur.inPos.toNat ≤ s.tk.tpos.toNat) (hlt : s.tk.tpos.toNat < s.tk.tend.toNat)
    (ht : tokenFor a s = .ok () t) : ScratchInv t := by
  obtain ⟨n, hn, -, ⟨u, t', hu, e, hk, hpos', -, hg, hl⟩ | ⟨-, u, -, e⟩⟩ := tokenFor_spec a s hlt
  · obtain rfl : t' = t := by simpa [e] using ht
    exact h.of_token hp hopen hpos hn hu (by rw [hk]) hpos' hg hl
  · simp [e] at ht

theorem tokenizeStep_scratchInv {o : Config.Oracles} {s t : State} (hc : CursorInv s) (h : ScratchInv s)
    (hp : s.phase = .cTokenize) (ht : tokenizeStep o s = .ok () t) : ScratchInv t := by
  unfold tokenizeStep at ht
  split at ht
  · exact openChunk_scratchInv ht
  · rename_i hclosed
    have hopen : s.chunkOpen = true := by simpa using hclosed
    split at ht
    · rename_i hlt
      obtain ⟨-, -, -, -, -, hchunk, -⟩ := hc
      obtain ⟨-, hpos, -⟩ := hchunk hp hopen
      exact tokenFor_scratchInv h hp hopen hpos hlt ht
    · exact (ChunkClosed.of_phase_ne (by simp [(closeTokens_ends o s).2 t ht])).scratchInv

theorem engineStep_scratchInv {o : Config.Oracles} {s t : State} (hc : CursorInv s) (h : ScratchInv s)
    (ht : engineStep o s = .next t) : ScratchInv t := by
  by_cases hp : s.phase = .cTokenize
  · rw [engineStep_cTokenize o hp] at ht
    rcases settle_next ht with ht | ⟨e, u, -, rfl⟩
    · exact tokenizeStep_scratchInv hc h hp ht
    · exact (completeErr_chunkClosed e u).scratchInv
  · exact (engineStep_chunkClosed hp ht).scratchInv

/-! ### The host's steps -/

/-- A register write changes the window only (R33 to R37). -/
theorem regWrite_eq (off : Nat) (v : Word) (s : State) : regWrite off v s = { s with win := (regWrite off v s).win } := by
  unfold regWrite
  repeat' split
  all_goals rfl

/-- What a word stored to CMD can answer (R304, R319): nothing changes, a command is accepted, or it is illegal. -/
theorem exec_decodeCmd_next {v : Word} {s t : State} (h : exec (decodeCmd v) s = .next t) :
    t = s ∨ t = nextChunk (acceptCommand .compress s) ∨
      t = { acceptCommand .decompress s with phase := .dReadHeader } ∨ t = illegalCommand s := by
  unfold decodeCmd at h
  repeat' split at h
  · cases h
    exact .inl rfl
  · simp only [exec, execCompress] at h
    repeat' split at h
    all_goals cases h
    · exact .inl rfl
    · exact .inr (.inl rfl)
  · simp only [exec, execDecompress] at h
    repeat' split at h
    all_goals cases h
    · exact .inl rfl
    · exact .inr (.inr (.inl rfl))
  · simp only [exec, execCmdIllegal] at h
    split at h
    all_goals cases h
    · exact .inl rfl
    · exact .inr (.inr (.inr rfl))

theorem exec_decodeCmd_scratchInv {v : Word} {s t : State} (hs : ScratchInv s) (h : exec (decodeCmd v) s = .next t) :
    ScratchInv t := by
  rcases exec_decodeCmd_next h with rfl | rfl | rfl | rfl
  · exact hs
  · exact (nextChunk_chunkClosed _).scratchInv
  · exact (ChunkClosed.of_phase_ne (by simp)).scratchInv
  · exact hs.of_same rfl rfl rfl rfl

/-! ### The obligation -/

/-- Settles O56, by the ways a step answers a next state: the engine's move and a stored command word are the lemmas above,
and what else the host does keeps the four fields the bound reads, or resets the machine. The premise on SCRATCH_BYTES is
not needed: where the memory were too small, the token would raise and the command end. -/
theorem stepKeepsScratchBound : Obligations.StepKeepsScratchBound := by
  intro o s t _ hc hs h
  rcases stepWith_next h with ⟨hs', he, -⟩ | ⟨hs', rs, us, rfl, -⟩ | ⟨hs', v, -, he⟩ | ⟨hs', off, v, rfl⟩ |
    ⟨hs', a, v, -, rfl⟩ | ⟨hs', rfl⟩
  · exact engineStep_scratchInv (s := { s with host := hs' }) hc hs he
  · exact hs
  · exact exec_decodeCmd_scratchInv (s := { s with host := hs' }) hs he
  · rw [regWrite_eq]
    exact hs
  · exact hs.of_same rfl rfl rfl rfl
  · exact (ChunkClosed.of_phase_ne (by simp)).scratchInv

end Sys2Proof.Machine
end

section
/-! SUPPORT. The window's invariant along a step (R33, R45, R320, R351): it has two forms, the window of a running command
and the settled one of IDLE, and each kind of step keeps its form or goes from one to the other. -/

namespace Sys2Proof.Machine

/-! ### What a word stored to CMD can answer -/

/-- What a word stored to CMD can answer, with what its guards say (R90, R304, R319): nothing changes; or BUSY is 0, and a
launch with legal buffers is accepted or the word is illegal. -/
theorem exec_decodeCmd_guarded {v : Word} {s t : State} (h : exec (decodeCmd v) s = .next t) :
    t = s ∨ s.busy = false ∧ (s.launchOk = true ∧ (t = nextChunk (acceptCommand .compress s) ∨
      t = { acceptCommand .decompress s with phase := .dReadHeader }) ∨ t = illegalCommand s) := by
  unfold decodeCmd at h
  repeat' split at h
  · cases h
    exact .inl rfl
  · simp only [exec, execCompress] at h
    repeat' split at h
    all_goals cases h
    · exact .inl rfl
    · rename_i hb hl
      exact .inr ⟨by simpa using hb, .inl ⟨hl, .inl rfl⟩⟩
  · simp only [exec, execDecompress] at h
    repeat' split at h
    all_goals cases h
    · exact .inl rfl
    · rename_i hb hl
      exact .inr ⟨by simpa using hb, .inl ⟨hl, .inr rfl⟩⟩
  · simp only [exec, execCmdIllegal] at h
    split at h
    all_goals cases h
    · exact .inl rfl
    · rename_i hb
      exact .inr ⟨by simpa using hb, .inr rfl⟩

/-! ### The two forms of the window -/

/-- The window of a running command: BUSY alone, zero results, the operand registers as they were latched (R45, R350, R351). -/
def RunningWindow (s : State) : Prop :=
  s.phase ≠ .idle ∧ s.win = ⟨1, s.cur.src, s.cur.slen, s.cur.dst, s.cur.cap, 0, 0, 0⟩

/-- The window in IDLE: no flag, DONE or ERR, with the results each goes with (R33, R310). -/
def SettledWindow (s : State) : Prop :=
  s.phase = .idle ∧ s.win.error.toNat ≤ 4 ∧
    (s.win.status = 0 ∨ s.win.status = 2 ∧ s.win.error = 0 ∨
      s.win.status = 4 ∧ s.win.result = 0 ∧ s.win.inConsumed = 0 ∧ s.win.error ≠ 0)

theorem windowInv_iff (s : State) : WindowInv s ↔ RunningWindow s ∨ SettledWindow s := by
  unfold WindowInv RunningWindow SettledWindow State.busy
  obtain ⟨par, host, reads, ⟨st, sa, sl, da, dc, res, err, ic⟩⟩ := s
  constructor
  · rintro ⟨hb, rfl | rfl | rfl | rfl, he, h1, h2, h4⟩ <;> simp_all
  · rintro (⟨hp, hw⟩ | ⟨hp, he, hs | hs | hs⟩) <;> simp_all

theorem RunningWindow.windowInv {s : State} (h : RunningWindow s) : WindowInv s := (windowInv_iff s).2 (.inl h)

theorem SettledWindow.windowInv {s : State} (h : SettledWindow s) : WindowInv s := (windowInv_iff s).2 (.inr h)

theorem WindowInv.running {s : State} (h : WindowInv s) (hp : s.phase ≠ .idle) : RunningWindow s :=
  ((windowInv_iff s).1 h).resolve_right fun hs => hp hs.1

theorem WindowInv.settled {s : State} (h : WindowInv s) (hb : s.busy = false) : SettledWindow s :=
  ((windowInv_iff s).1 h).resolve_left fun ⟨_, hw⟩ => by simp [State.busy, hw] at hb

/-! ### The engine's steps -/

theorem RunningWindow.of_sameSide {s t : State} (h : RunningWindow s) (hst : SameSide s t) (hp : t.phase ≠ .idle) :
    RunningWindow t := by
  obtain ⟨-, -, -, -, -, hwin, -, hsrc, hslen, hdst, hcap⟩ := hst
  exact ⟨hp, by rw [hwin, hsrc, hslen, hdst, hcap, h.2]⟩

theorem completeOk_settled {s u : State} (h : RunningWindow s) (hst : SameSide s u) : SettledWindow (completeOk u) := by
  obtain ⟨-, -, -, -, -, hwin, -⟩ := hst
  exact ⟨rfl, by simp [completeOk], .inr (.inl ⟨by simp [completeOk, hwin, h.2, statusDone], rfl⟩)⟩

theorem completeErr_settled {s u : State} (e : Err) (h : RunningWindow s) (hst : SameSide s u) :
    SettledWindow (completeErr e u) := by
  obtain ⟨-, -, -, -, -, hwin, -⟩ := hst
  refine ⟨rfl, ?_, .inr (.inr ⟨by simp [completeErr, hwin, h.2, statusErr], rfl, rfl, ?_⟩)⟩
  all_goals cases e <;> simp [completeErr, Err.code]

theorem engineStep_windowInv {o : Config.Oracles} {s t : State} (h : WindowInv s) (ht : engineStep o s = .next t) :
    WindowInv t := by
  by_cases hp : s.phase = .idle
  · rw [engineStep_idle o hp] at ht
    cases ht
    exact h
  · have hrun := h.running hp
    rcases engineStep_moved hp ht with ⟨hst, hp'⟩ | ⟨u, hst, rfl⟩ | ⟨e, u, hst, rfl⟩
    · exact (hrun.of_sameSide hst hp').windowInv
    · exact (completeOk_settled hrun hst).windowInv
    · exact (completeErr_settled e hrun hst).windowInv

/-! ### The host's steps -/

theorem nextChunk_running {s : State} (h : s.win = ⟨1, s.cur.src, s.cur.slen, s.cur.dst, s.cur.cap, 0, 0, 0⟩) :
    RunningWindow (nextChunk s) := by
  obtain ⟨⟨-, -, -, -, -, hwin, -, hsrc, hslen, hdst, hcap⟩, hp⟩ := nextChunk_phase s
  exact ⟨hp, by rw [hwin, hsrc, hslen, hdst, hcap, h]⟩

theorem exec_decodeCmd_windowInv {v : Word} {s t : State} (h : WindowInv s) (ht : exec (decodeCmd v) s = .next t) :
    WindowInv t := by
  rcases exec_decodeCmd_guarded ht with rfl | ⟨hb, ⟨-, rfl | rfl⟩ | rfl⟩
  · exact h
  · exact (nextChunk_running rfl).windowInv
  · exact RunningWindow.windowInv ⟨by simp, rfl⟩
  · exact SettledWindow.windowInv ⟨(h.settled hb).1, by simp [illegalCommand, illegalCommandCode],
      .inr (.inr ⟨rfl, rfl, rfl, by simp [illegalCommand, illegalCommandCode]⟩)⟩

/-- A store to STATUS clears the one settled flag or keeps it (R33). -/
theorem statusWrite_settled {st : BitVec 3} (v : Word) (h : st = 0 ∨ st = 2 ∨ st = 4) :
    statusWrite st v = 0 ∨ statusWrite st v = st := by
  unfold statusWrite
  generalize v.setWidth 3 = w
  revert w
  rcases h with rfl | rfl | rfl <;> decide

theorem regWrite_settled {off : Nat} {v : Word} {s : State} (h : SettledWindow s) : SettledWindow (regWrite off v s) := by
  obtain ⟨hp, he, hs⟩ := h
  unfold regWrite
  split
  · exact ⟨hp, he, hs⟩
  · split
    · refine ⟨hp, he, ?_⟩
      rcases statusWrite_settled v (st := s.win.status) (by tauto) with e | e
      · exact .inl e
      · simpa [e] using hs
    all_goals exact ⟨hp, he, hs⟩

theorem regWrite_busy {off : Nat} {v : Word} {s : State} (h : s.busy = true) : regWrite off v s = s := if_pos h

theorem regWrite_windowInv {s : State} (off : Nat) (v : Word) (h : WindowInv s) : WindowInv (regWrite off v s) := by
  cases hb : s.busy with
  | true => rwa [regWrite_busy hb]
  | false => exact (regWrite_settled (h.settled hb)).windowInv

/-! ### The obligation -/

/-- Settles O53, by the ways a step answers a next state: the engine's move, a command word and a register write are the
lemmas above, reset clears the window, and a load or a byte of the host's leaves what the invariant reads as it was. -/
theorem stepKeepsWindow : Obligations.StepKeepsWindow := by
  intro o s t h ht
  rcases stepWith_next ht with ⟨hs, he, -⟩ | ⟨hs, rs, us, rfl, -⟩ | ⟨hs, v, -, he⟩ | ⟨hs, off, v, rfl⟩ |
    ⟨hs, a, v, -, rfl⟩ | ⟨hs, rfl⟩
  · exact engineStep_windowInv (s := { s with host := hs }) h he
  · exact h
  · exact exec_decodeCmd_windowInv (s := { s with host := hs }) h he
  · exact regWrite_windowInv (s := { s with host := hs }) off v h
  · exact h
  · exact SettledWindow.windowInv ⟨rfl, by simp, .inl rfl⟩

end Sys2Proof.Machine
end

section
/-! SUPPORT. The memories' invariant along a step (R50, R51, R59, R206, R208): each operation keeps it, raised or not, and a
step is operations one after the other. -/

namespace Sys2Proof.Machine

/-! ### What the invariant needs of a change -/

/-- The invariant reads the two memories, SCRATCH_BYTES, the tokenizer's registers and the tables; of system memory only
its canonical form. -/
theorem MemoryInv.of_same {s t : State} (h : MemoryInv s) (hm : t.mem.wf memBound) (hp : t.par = s.par)
    (hs : t.scr = s.scr) (hk : t.tk = s.tk) (hc : t.cnt = s.cnt) (hl : t.len = s.len) : MemoryInv t := by
  obtain ⟨-, h2, h3, h4, h5⟩ := h
  exact ⟨hm, by rwa [hs, hp], by rwa [hk, hp], by rwa [hc], by rwa [hl]⟩

theorem MemoryInv.writeOut {s : State} (h : MemoryInv s) (off : Nat) (bs : List Byte) : MemoryInv (s.writeOut off bs) :=
  h.of_same (Memory.putBytes_wf _ bs h.1) rfl rfl rfl rfl rfl

theorem MemoryInv.writeByte {s : State} (h : MemoryInv s) (a : Word) (b : Byte) : MemoryInv (s.writeByte a b) :=
  h.of_same (Memory.put_wf b h.1 a.isLt) rfl rfl rfl rfl rfl

theorem MemoryInv.loseOutput {s : State} (h : MemoryInv s) : MemoryInv s.loseOutput :=
  h.of_same (Memory.forget_wf _ _ h.1) rfl rfl rfl rfl rfl

theorem MemoryInv.with_len {s : State} (h : MemoryInv s) {len : List (BitVec 4)} (hl : len.length = 512) :
    MemoryInv { s with len := len } := by
  obtain ⟨h1, h2, h3, h4, -⟩ := h
  exact ⟨h1, h2, h3, h4, hl⟩

theorem completeErr_memoryInv {s : State} (e : Err) (h : MemoryInv s) : MemoryInv (completeErr e s) := h.loseOutput

/-! ### Operations, raised or not -/

/-- An operation on `s` keeps the invariant, whether it answers or raises. -/
def Res.KeepsMemories {α : Type} (s : State) (r : Res α) : Prop := MemoryInv s → MemoryInv r.state

theorem Res.KeepsMemories.andThen {α β : Type} {s : State} {r : Res α} {f : α → State → Res β} (h : r.KeepsMemories s)
    (hf : ∀ a t, (f a t).KeepsMemories t) : (r.andThen f).KeepsMemories s := by
  intro hs
  cases r with
  | ok a t => exact hf a t (h hs)
  | raise e t => exact h hs

/-- An operation that keeps the invariant keeps it in the step that ends with it (R27, R310). -/
theorem Res.KeepsMemories.settle {s t : State} {r : Res Unit} (h : r.KeepsMemories s) (hs : MemoryInv s)
    (ht : Machine.settle r = .next t) : MemoryInv t := by
  have hr := h hs
  rcases settle_next ht with rfl | ⟨e, u, rfl, rfl⟩
  · exact hr
  · exact completeErr_memoryInv e hr

theorem keepsMemories_ok {α : Type} (a : α) (s : State) : (Res.ok a s).KeepsMemories s := id

theorem keepsMemories_raise {α : Type} (e : Err) (s : State) : (Res.raise e s : Res α).KeepsMemories s := id

/-! ### The bit writer and packing -/

theorem writeBits_keepsMemories (v n : Nat) (s : State) : (writeBits v n s).KeepsMemories s := by
  intro h
  unfold writeBits
  repeat' split
  · exact h
  · exact h
  · exact h.writeOut _ _

theorem writeRaw_keepsMemories (v m : Nat) (s : State) : (writeRaw v m s).KeepsMemories s := by
  intro h
  unfold writeRaw
  split
  · exact h
  · exact h.writeOut _ _

theorem writerInit_keepsMemories (p : Nat) (s : State) : (writerInit p s).KeepsMemories s := by
  intro h
  unfold writerInit
  split
  · exact h
  · exact h

theorem encodeSym_keepsMemories (y : Nat) (s : State) : (encodeSym y s).KeepsMemories s := by
  unfold encodeSym
  split
  · exact keepsMemories_raise _ s
  · exact writeBits_keepsMemories _ _ s

theorem writeExtension_keepsMemories (l : Nat) (s : State) : (writeExtension l s).KeepsMemories s := by
  have raw := writeRaw_keepsMemories
  unfold writeExtension
  split
  · exact keepsMemories_ok _ s
  · exact raw _ _ s
  · exact (raw _ _ s).andThen fun _ t => raw _ _ t
  · exact (raw _ _ s).andThen fun _ t => (raw _ _ t).andThen fun _ u => raw _ _ u

theorem writeResidual_keepsMemories (off : Nat) (s : State) : (writeResidual off s).KeepsMemories s := by
  unfold writeResidual
  split
  · exact keepsMemories_ok _ s
  · exact writeBits_keepsMemories _ _ s

theorem packMatch_keepsMemories (off l : Nat) (s : State) : (packMatch off l s).KeepsMemories s :=
  (encodeSym_keepsMemories _ s).andThen fun _ t =>
    (writeExtension_keepsMemories l t).andThen fun _ u => writeResidual_keepsMemories off u

theorem nextChunk_memoryInv {s : State} (h : MemoryInv s) : MemoryInv (nextChunk s) := by
  unfold nextChunk
  dsimp only
  repeat' split
  all_goals exact h

theorem finishChunk_memoryInv {s : State} (h : MemoryInv s) : MemoryInv (finishChunk s) := by
  have hw : MemoryInv (finishWriter s) := (h.writeOut _ _).writeOut _ _
  unfold finishChunk
  dsimp only
  split
  · exact hw
  · exact nextChunk_memoryInv hw

/-! ### The bit reader and the copy -/

theorem fetchLength_keepsMemories (n : BitVec 4) (s : State) : (fetchLength n s).KeepsMemories s := by
  intro h
  unfold fetchLength
  split <;> exact h

theorem decodeNext_keepsMemories (s : State) : (decodeNext s).KeepsMemories s := by
  intro h
  rcases decodeNext_spec s with ⟨sym, b, -, e⟩ | e <;> rw [e] <;> exact h

theorem copyRun_memoryInv {s : State} (off n : Nat) (h : MemoryInv s) : MemoryInv (copyRun off n s) := by
  induction n generalizing s with
  | zero => exact h
  | succ n ih => exact ih (s := copyByte off s) (h.writeByte _ _)

theorem finishMatch_keepsMemories (l : Nat) (s : State) : (finishMatch l s).KeepsMemories s := by
  intro h
  have hskip : MemoryInv (skip s.mt.o.toNat { s with mt := { s.mt with await := false } }) := h
  unfold finishMatch
  split
  · exact h
  · exact copyRun_memoryInv _ _ hskip

theorem lengthAction_keepsMemories (g : LenForm) (s : State) : (lengthAction g s).KeepsMemories s := by
  unfold lengthAction
  split
  · exact finishMatch_keepsMemories _ s
  · exact keepsMemories_raise _ s

theorem resolveOffset_keepsMemories (o : Nat) (s : State) : (resolveOffset o s).KeepsMemories s := by
  intro h
  unfold resolveOffset
  repeat' split
  all_goals exact h

theorem beginMatch_keepsMemories (o n : BitVec 4) (s : State) : (beginMatch o n s).KeepsMemories s :=
  (resolveOffset_keepsMemories _ s).andThen fun _ t (h : MemoryInv t) => h

theorem matchSymbol_keepsMemories (o n : BitVec 4) (s : State) : (matchSymbol o n s).KeepsMemories s :=
  (beginMatch_keepsMemories o n s).andThen fun _ t =>
    (fetchLength_keepsMemories _ t).andThen lengthAction_keepsMemories

theorem literal_keepsMemories (b : Byte) (s : State) : (literal b s).KeepsMemories s := by
  intro h
  unfold literal
  split
  · exact h
  · exact h.writeByte _ _

theorem readHeader_keepsMemories (s : State) : (readHeader s).KeepsMemories s := by
  intro h
  have hl : MemoryInv { s with len := tableOfBytes (s.inBytes s.cur.inPos.toNat Config.tableBytes) } :=
    h.with_len (by simp [State.inBytes, Config.tableBytes])
  unfold readHeader
  dsimp only
  repeat' split
  · exact h
  · exact hl
  · exact hl

/-! ### The tokenizer -/

/-- A group that is open, or that opens, has its mask slot inside the scratch memory (R206, R208). -/
theorem openGroup_slot {s t : State} (h : MemoryInv s) (ht : openGroup s = .ok () t) :
    MemoryInv t ∧ t.tk.gmaskAt.toNat + 4 ≤ t.par.scratchBytes := by
  obtain ⟨h1, h2, h3, h4, h5⟩ := h
  unfold openGroup at ht
  split at ht
  · rename_i hopen
    cases ht
    have hslot := h3.resolve_left fun e => hopen (by rw [e]; rfl)
    exact ⟨⟨h1, h2, .inr hslot, h4, h5⟩, hslot⟩
  · split at ht
    · cases ht
    · rename_i hroom
      cases ht
      have hslot : s.tk.scrLen.toNat + 4 ≤ s.par.scratchBytes := by omega
      exact ⟨⟨h1, h2, .inr hslot, h4, h5⟩, hslot⟩

theorem markToken_memoryInv {s : State} (m : Bool) (h : MemoryInv s)
    (hslot : s.tk.gmaskAt.toNat + 4 ≤ s.par.scratchBytes) : MemoryInv (markToken m s) := by
  obtain ⟨h1, h2, -, h4, h5⟩ := h
  exact ⟨h1, Memory.putList_wf _ _ h2 (.inr (by rwa [length_bytesLE])), .inr hslot, h4, h5⟩

theorem openToken_keepsMemories (m : Bool) (s : State) : (openToken m s).KeepsMemories s := by
  intro h
  unfold openToken
  cases hg : openGroup s with
  | ok a t =>
    obtain ⟨ht, hslot⟩ := openGroup_slot h hg
    exact markToken_memoryInv m ht hslot
  | raise e t =>
    unfold openGroup at hg
    repeat' split at hg
    all_goals cases hg
    exact h

theorem appendScr_keepsMemories (bs : List Byte) (s : State) : (appendScr bs s).KeepsMemories s := by
  rintro ⟨h1, h2, h3, h4, h5⟩
  unfold appendScr
  split
  · exact ⟨h1, h2, h3, h4, h5⟩
  · rename_i hroom
    exact ⟨h1, Memory.putList_wf _ bs h2 (.inr (Nat.le_of_not_lt hroom)), h3, h4, h5⟩

theorem countSym_memoryInv {s : State} (sym : Nat) (h : MemoryInv s) : MemoryInv (countSym sym s) := by
  obtain ⟨h1, h2, h3, h4, h5⟩ := h
  exact ⟨h1, h2, h3, by simpa using h4, h5⟩

theorem tokMatch_keepsMemories (off : Half) (n : Nat) (s : State) : (tokMatch off n s).KeepsMemories s :=
  (openToken_keepsMemories _ s).andThen fun _ t => (appendScr_keepsMemories _ t).andThen fun _ u (h : MemoryInv u) =>
    countSym_memoryInv _ h

theorem tokLit_keepsMemories (b : Byte) (s : State) : (tokLit b s).KeepsMemories s :=
  (openToken_keepsMemories _ s).andThen fun _ t => (appendScr_keepsMemories _ t).andThen fun _ u (h : MemoryInv u) =>
    countSym_memoryInv _ h

theorem tokEos_keepsMemories (s : State) : (tokEos s).KeepsMemories s :=
  (openToken_keepsMemories _ s).andThen fun _ t => (appendScr_keepsMemories _ t).andThen fun _ u (h : MemoryInv u) =>
    countSym_memoryInv _ h

theorem tokenFor_keepsMemories (a : Nat × Nat) (s : State) : (tokenFor a s).KeepsMemories s := by
  unfold tokenFor
  dsimp only
  split
  · exact tokMatch_keepsMemories _ _ s
  · exact tokLit_keepsMemories _ s

theorem checkCapacity_keepsMemories (s : State) : (checkCapacity s).KeepsMemories s := by
  unfold checkCapacity
  split
  · exact keepsMemories_raise _ s
  · exact keepsMemories_ok _ s

/-- The opening of a chunk leaves no group open and 512 counts of 0 (R207). -/
theorem openChunk_keepsMemories (s : State) : (openChunk s).KeepsMemories s :=
  (checkCapacity_keepsMemories s).andThen fun _ _ ⟨h1, h2, _, _, h5⟩ => ⟨h1, h2, .inl rfl, zeroCounts_length, h5⟩

theorem builtLengths_length (o : Config.Oracles) (cnt : List (BitVec 17)) : (builtLengths o cnt).length = 512 := by
  unfold builtLengths
  rw [List.length_map, List.length_range, Config.alphabet]

theorem buildCode_memoryInv {s : State} (o : Config.Oracles) (h : MemoryInv s) : MemoryInv (buildCode o s) :=
  h.with_len (builtLengths_length o s.cnt)

theorem packHeader_keepsMemories (s : State) : (packHeader s).KeepsMemories s := by
  intro h
  refine Res.KeepsMemories.andThen (writerInit_keepsMemories _ _) ?_ (h.writeOut _ _)
  exact fun _ t (ht : MemoryInv t) => ht

theorem closeTokens_keepsMemories (o : Config.Oracles) (s : State) : (closeTokens o s).KeepsMemories s := by
  refine Res.KeepsMemories.andThen ?_ fun _ t h => packHeader_keepsMemories _ (buildCode_memoryInv o h)
  split
  · exact tokEos_keepsMemories s
  · exact keepsMemories_ok _ s

theorem tokenizeStep_keepsMemories (o : Config.Oracles) (s : State) : (tokenizeStep o s).KeepsMemories s := by
  unfold tokenizeStep
  repeat' split
  · exact openChunk_keepsMemories s
  · exact tokenFor_keepsMemories _ s
  · exact closeTokens_keepsMemories o s

theorem emptyStep_keepsMemories (s : State) : (emptyStep s).KeepsMemories s := by
  unfold emptyStep
  generalize emptyBlock = bs
  refine (checkCapacity_keepsMemories s).andThen fun _ t h => ?_
  exact MemoryInv.writeOut h _ bs

/-! ### Instructions and the engine's step -/

theorem exec_sym_memoryInv {s t : State} (sym : Sym) (z : Bool) (hs : MemoryInv s)
    (h : exec (decodeSym sym z) s = .next t) : MemoryInv t := by
  rcases decodeSym_cases sym z with e | ⟨b, e⟩ | ⟨o, n, e⟩ <;> rw [e] at h
  · cases h
    exact hs
  · exact (literal_keepsMemories b s).settle hs h
  · exact (matchSymbol_keepsMemories o n s).settle hs h

theorem exec_len_memoryInv {s t : State} (g : LenForm) (hs : MemoryInv s) (h : exec g.instr s = .next t) :
    MemoryInv t := by
  cases g <;> exact (lengthAction_keepsMemories _ s).settle hs h

theorem fetchToken_memoryInv {f : Format} {bits : Nat} {bs : List Byte} {s t : State}
    (hf : f = .group ∨ f = .lit ∨ f = .mat) (hs : MemoryInv s) (h : perform (fetchToken f bits bs s) = .next t) :
    MemoryInv t := by
  rcases perform_fetchToken f bits bs s with ⟨i, r, hd, e⟩ | e <;> rw [e] at h
  · rcases decode_token hd hf with ⟨m, rfl⟩ | ⟨b, rfl⟩ | ⟨off, l, hm⟩
    · cases h
      exact hs
    · exact (encodeSym_keepsMemories _ _).settle (by exact hs) h
    · rw [(matchFields_exec hm).1] at h
      exact (packMatch_keepsMemories off l _).settle (by exact hs) h
  · cases h
    exact completeErr_memoryInv _ hs

theorem fetchPack_memoryInv {s t : State} (hs : MemoryInv s) (h : perform (fetchPack s) = .next t) : MemoryInv t := by
  unfold fetchPack at h
  repeat' split at h
  · cases h
    exact finishChunk_memoryInv hs
  · exact fetchToken_memoryInv (.inl rfl) hs h
  · exact fetchToken_memoryInv (.inr (.inr rfl)) hs h
  · exact fetchToken_memoryInv (.inr (.inl rfl)) hs h

theorem fetchDecode_memoryInv {s t : State} (hs : MemoryInv s) (h : perform (fetchDecode s) = .next t) :
    MemoryInv t := by
  unfold fetchDecode at h
  repeat' split at h
  · have hr := fetchLength_keepsMemories s.mt.n s hs
    cases hl : fetchLength s.mt.n s with
    | ok g u =>
      rw [hl] at h hr
      exact exec_len_memoryInv g hr h
    | raise e u =>
      rw [hl] at h hr
      cases h
      exact completeErr_memoryInv e hr
  · have hr := decodeNext_keepsMemories s hs
    cases hd : decodeNext s with
    | ok sym u =>
      rw [hd] at h hr
      exact exec_sym_memoryInv _ _ hr h
    | raise e u =>
      rw [hd] at h hr
      cases h
      exact completeErr_memoryInv e hr
  · cases h
    exact hs

theorem engineStep_memoryInv {o : Config.Oracles} {s t : State} (hs : MemoryInv s) (h : engineStep o s = .next t) :
    MemoryInv t := by
  cases hp : s.phase with
  | idle =>
    rw [engineStep_idle o hp] at h
    cases h
    exact hs
  | cTokenize =>
    rw [engineStep_cTokenize o hp] at h
    exact (tokenizeStep_keepsMemories o s).settle hs h
  | cPack =>
    rw [engineStep_cPack o hp] at h
    exact fetchPack_memoryInv hs h
  | cEmpty =>
    rw [engineStep_cEmpty o hp] at h
    exact (emptyStep_keepsMemories s).settle hs h
  | dReadHeader =>
    rw [engineStep_dReadHeader o hp] at h
    exact (readHeader_keepsMemories s).settle hs h
  | dDecode =>
    rw [engineStep_dDecode o hp] at h
    exact fetchDecode_memoryInv hs h
  | dEndOfStream =>
    rw [engineStep_dEndOfStream o hp] at h
    cases h
    exact hs

/-! ### The host's steps -/

theorem exec_decodeCmd_memoryInv {v : Word} {s t : State} (hs : MemoryInv s) (h : exec (decodeCmd v) s = .next t) :
    MemoryInv t := by
  rcases exec_decodeCmd_next h with rfl | rfl | rfl | rfl
  · exact hs
  · exact nextChunk_memoryInv (s := acceptCommand .compress s) hs
  · exact hs
  · exact hs

/-- After reset nothing is in the scratch memory and no group is open; system memory has lost bytes at most (R340 to
R342). -/
theorem hostReset_memoryInv {s : State} (hs : MemoryInv s) : MemoryInv (hostReset s) := by
  refine ⟨?_, by simp [Memory.wf], .inl rfl, zeroCounts_length, zeroLengths_length⟩
  rw [hostReset_mem]
  split
  · exact hs.loseOutput.1
  · exact hs.1

/-! ### The obligation -/

/-- Settles O54, by the ways a step answers a next state: the engine's move, a command word and reset are the lemmas above;
of the rest a byte of the host's alone touches a memory, at an address that exists. -/
theorem stepKeepsMemories : Obligations.StepKeepsMemories := by
  intro o s t hs h
  rcases stepWith_next h with ⟨hs', he, -⟩ | ⟨hs', rs, us, rfl, -⟩ | ⟨hs', v, -, he⟩ | ⟨hs', off, v, rfl⟩ |
    ⟨hs', a, v, -, rfl⟩ | ⟨hs', rfl⟩
  · exact engineStep_memoryInv (s := { s with host := hs' }) hs he
  · exact hs
  · exact exec_decodeCmd_memoryInv (s := { s with host := hs' }) hs he
  · rw [regWrite_eq]
    exact hs
  · exact hs.writeByte a v
  · exact hostReset_memoryInv (s := { s with host := hs' }) hs

end Sys2Proof.Machine
end

section
/-! SUPPORT. The cursors' invariant along a step (R46, R88, R176, R207, R225): what it asks for in each phase, and what
each phase's step leaves. -/

namespace Sys2Proof.Machine

/-! ### What the invariant asks for in each phase -/

/-- What holds in every phase of a running command (R46, R88, R90, R251). -/
def RunningCursors (s : State) : Prop :=
  s.mt.await = false ∧ Latched s ∧ s.cur.outPos.toNat ≤ s.cur.cap.toNat ∧ s.cur.inPos.toNat ≤ s.cur.slen.toNat

/-- The chunk a compression works on: not empty, at most CHUNK_SIZE, a full one never the final one, inside the input
(R10, R225). -/
def ChunkInInput (s : State) : Prop :=
  1 ≤ s.cur.chunkLen.toNat ∧ s.cur.chunkLen.toNat ≤ Config.chunkSize ∧
    (s.cur.finalChunk = true → s.cur.chunkLen.toNat < Config.chunkSize) ∧
    s.cur.inPos.toNat + s.cur.chunkLen.toNat ≤ s.cur.slen.toNat

theorem RunningCursors.of_same {s t : State} (h : RunningCursors s) (hm : t.mt = s.mt) (hc : t.cur = s.cur) :
    RunningCursors t := by
  unfold RunningCursors Latched
  rwa [hm, hc]

theorem ChunkInInput.of_same {s t : State} (h : ChunkInInput s) (hc : t.cur = s.cur) : ChunkInInput t := by
  unfold ChunkInInput
  rwa [hc]

/-- The tokenizer's cursor inside the open chunk, whose capacity check has passed (R207, R220). -/
def TokensInChunk (s : State) : Prop :=
  s.cur.outPos.toNat + Config.minBlock ≤ s.cur.cap.toNat ∧ s.cur.inPos.toNat ≤ s.tk.tpos.toNat ∧
    s.tk.tpos.toNat ≤ s.tk.tend.toNat ∧ s.tk.tend.toNat = s.cur.inPos.toNat + s.cur.chunkLen.toNat

theorem cursorInv_idle {s : State} (hp : s.phase = .idle) : CursorInv s ↔ s.mt.await = false := by
  simp [CursorInv, hp]

theorem cursorInv_cTokenize {s : State} (hp : s.phase = .cTokenize) :
    CursorInv s ↔ RunningCursors s ∧ s.cur.op = .compress ∧ ChunkInInput s ∧ (s.chunkOpen = true → TokensInChunk s) := by
  simp [CursorInv, hp, RunningCursors, ChunkInInput, TokensInChunk, and_assoc]

theorem cursorInv_cPack {s : State} (hp : s.phase = .cPack) :
    CursorInv s ↔ RunningCursors s ∧ s.cur.op = .compress ∧ ChunkInInput s ∧ WriterInv s := by
  simp [CursorInv, hp, RunningCursors, ChunkInInput, and_assoc]

theorem cursorInv_cEmpty {s : State} (hp : s.phase = .cEmpty) :
    CursorInv s ↔ RunningCursors s ∧ s.cur.op = .compress ∧ s.cur.inPos.toNat = s.cur.slen.toNat := by
  simp [CursorInv, hp, RunningCursors, and_assoc]

theorem cursorInv_dReadHeader {s : State} (hp : s.phase = .dReadHeader) :
    CursorInv s ↔ RunningCursors s ∧ s.cur.op = .decompress := by
  simp [CursorInv, hp, RunningCursors, and_assoc]

theorem cursorInv_dDecode {s : State} (hp : s.phase = .dDecode) :
    CursorInv s ↔ RunningCursors s ∧ s.cur.op = .decompress ∧ ReaderInv s ∧
      s.cur.chunkOutStart.toNat ≤ s.cur.outPos.toNat := by
  simp [CursorInv, hp, RunningCursors, and_assoc]

theorem cursorInv_dEndOfStream {s : State} (hp : s.phase = .dEndOfStream) :
    CursorInv s ↔ RunningCursors s ∧ s.cur.op = .decompress := by
  simp [CursorInv, hp, RunningCursors, and_assoc]

/-! ### Completion and the drivers -/

theorem completeErr_cursorInv (e : Err) (s : State) : CursorInv (completeErr e s) := (cursorInv_idle rfl).2 rfl

theorem completeOk_cursorInv {s : State} (h : s.mt.await = false) : CursorInv (completeOk s) := (cursorInv_idle rfl).2 h

/-- A chunk inside the input, its capacity check still to come (R221, R225). -/
theorem closedChunk_cursorInv {s : State} {len : BitVec 17} {fin : Bool} (h : RunningCursors s)
    (hop : s.cur.op = .compress) (hpos : 1 ≤ len.toNat) (hmax : len.toNat ≤ Config.chunkSize)
    (hfin : fin = true → len.toNat < Config.chunkSize) (hin : s.cur.inPos.toNat + len.toNat ≤ s.cur.slen.toNat) :
    CursorInv { s with
      cur := { s.cur with chunkLen := len, finalChunk := fin }, phase := .cTokenize, chunkOpen := false } :=
  (cursorInv_cTokenize rfl).2 ⟨h, hop, ⟨hpos, hmax, hfin, hin⟩, fun hopen => by cases hopen⟩

/-- The stream driver chooses a chunk inside the input, or the empty block at its end (R225). -/
theorem nextChunk_cursorInv {s : State} (h : RunningCursors s) (hop : s.cur.op = .compress) : CursorInv (nextChunk s) := by
  have ⟨_, _, _, hin⟩ := h
  unfold nextChunk
  dsimp only
  split
  · have hlen : (BitVec.ofNat 17 Config.chunkSize).toNat = Config.chunkSize := by decide
    exact closedChunk_cursorInv h hop (by decide) (by decide) (by simp) (by omega)
  · split
    · have hend : s.cur.inPos.toNat = s.cur.slen.toNat := by omega
      exact (cursorInv_cEmpty rfl).2 ⟨h, hop, hend⟩
    · have hlen : (BitVec.ofNat 17 (s.cur.slen.toNat - s.cur.inPos.toNat)).toNat =
          s.cur.slen.toNat - s.cur.inPos.toNat := by
        rw [BitVec.toNat_ofNat, Nat.mod_eq_of_lt]
        unfold Config.chunkSize at *
        omega
      exact closedChunk_cursorInv h hop (by omega) (by omega) (by omega) (by omega)

theorem finishChunk_cursorInv {s : State} (h : CursorInv s) (hp : s.phase = .cPack) : CursorInv (finishChunk s) := by
  obtain ⟨⟨hmt, hlat, -, -⟩, hop, ⟨-, -, -, hchunk⟩, -, -, -, hraw⟩ := (cursorInv_cPack hp).1 h
  unfold finishChunk
  dsimp only
  split
  · exact completeOk_cursorInv hmt
  · refine nextChunk_cursorInv ⟨hmt, hlat, hraw, ?_⟩ hop
    show (BitVec.ofNat 33 (s.cur.inPos.toNat + s.cur.chunkLen.toNat)).toNat ≤ s.cur.slen.toNat
    rw [BitVec.toNat_ofNat]
    omega

/-! ### The tokenizer -/

theorem openChunk_cursorInv {s t : State} (h : CursorInv s) (hp : s.phase = .cTokenize) (ht : openChunk s = .ok () t) :
    CursorInv t := by
  obtain ⟨hrun, hop, hchunk, -⟩ := (cursorInv_cTokenize hp).1 h
  have ⟨_, _, _, hin⟩ := hchunk
  have hend : (BitVec.ofNat 33 (s.cur.inPos.toNat + s.cur.chunkLen.toNat)).toNat =
      s.cur.inPos.toNat + s.cur.chunkLen.toNat := by
    rw [BitVec.toNat_ofNat]
    omega
  have hle : s.cur.inPos.toNat ≤ (BitVec.ofNat 33 (s.cur.inPos.toNat + s.cur.chunkLen.toNat)).toNat := by omega
  unfold openChunk checkCapacity at ht
  split at ht
  · cases ht
  · rename_i hcap
    cases ht
    exact (cursorInv_cTokenize (by exact hp)).2
      ⟨hrun, hop, hchunk, fun _ => ⟨Nat.le_of_not_lt hcap, Nat.le_refl _, hle, hend⟩⟩

theorem tokenFor_cursorInv {s t : State} {a : Nat × Nat} (h : CursorInv s) (hp : s.phase = .cTokenize)
    (hopen : s.chunkOpen = true) (hlt : s.tk.tpos.toNat < s.tk.tend.toNat) (ht : tokenFor a s = .ok () t) :
    CursorInv t := by
  obtain ⟨hrun, hop, hchunk, htok⟩ := (cursorInv_cTokenize hp).1 h
  obtain ⟨hcap, hpos, -, hend⟩ := htok hopen
  obtain ⟨n, -, hn, ⟨u, t', -, e, hk, htpos, htend, -, -⟩ | ⟨-, u, -, e⟩⟩ := tokenFor_spec a s hlt
  · obtain rfl : t' = t := by simpa [e] using ht
    have hopen' : TokensInChunk t' := by
      have hcur : t'.cur = s.cur := by rw [hk]
      unfold TokensInChunk
      rw [hcur, htend, htpos]
      exact ⟨hcap, by omega, hn, hend⟩
    rw [cursorInv_cTokenize (by rw [hk]; exact hp)]
    exact ⟨by rwa [hk], by rwa [hk], by rwa [hk], fun _ => hopen'⟩
  · simp [e] at ht

/-- What PackChunk's head leaves: the writer starts after the 256 table bytes, if the capacity holds its first four bytes
(R161, R212). -/
theorem packHeader_ok {s t : State} (h : packHeader s = .ok () t) :
    s.cur.outPos.toNat + 260 ≤ s.cur.cap.toNat ∧ t.phase = .cPack ∧ t.cur = s.cur ∧ t.mt = s.mt ∧
      t.wr = ⟨0, 0, BitVec.ofNat 33 (s.cur.outPos.toNat + 256), BitVec.ofNat 33 (s.cur.outPos.toNat + 258),
        BitVec.ofNat 33 (s.cur.outPos.toNat + 260)⟩ := by
  unfold packHeader writerInit at h
  split at h
  · cases h
  · rename_i hcap
    cases h
    exact ⟨Nat.le_of_not_lt hcap, rfl, rfl, rfl, rfl⟩

theorem closeTokens_cursorInv {o : Config.Oracles} {s t : State} (h : CursorInv s) (hp : s.phase = .cTokenize)
    (ht : closeTokens o s = .ok () t) : CursorInv t := by
  obtain ⟨hrun, hop, hchunk, -⟩ := (cursorInv_cTokenize hp).1 h
  have hkeeps : ∀ u, (if s.cur.finalChunk then tokEos s else .ok () s) = .ok () u → TokKeeps s u := by
    intro u hu
    split at hu
    · rcases tokEos_spec s with ⟨u', e, hk⟩ | ⟨-, u', -, e⟩
      · obtain rfl : u' = u := by simpa [e] using hu
        exact hk
      · simp [e] at hu
    · cases hu
      exact .refl s
  unfold closeTokens at ht
  cases hu : (if s.cur.finalChunk then tokEos s else .ok () s) with
  | raise e u => simp [hu] at ht
  | ok a u =>
    rw [hu] at ht
    have hk := hkeeps u hu
    have hucur : u.cur = s.cur := by rw [hk]
    have humt : u.mt = s.mt := by rw [hk]
    obtain ⟨hcap, hp', hcur, hmt, hwr⟩ := packHeader_ok (s := buildCode o u) ht
    rw [buildCode_cur, hucur] at hcap hcur hwr
    rw [buildCode_mt, humt] at hmt
    refine (cursorInv_cPack hp').2 ⟨hrun.of_same hmt hcur, by rwa [hcur], hchunk.of_same hcur, ?_⟩
    have hbound := s.cur.cap.isLt
    unfold WriterInv
    rw [hwr, hcur]
    refine ⟨by simp, ?_⟩
    simp only [BitVec.toNat_ofNat]
    omega

theorem tokenizeStep_cursorInv {o : Config.Oracles} {s t : State} (h : CursorInv s) (hp : s.phase = .cTokenize)
    (ht : tokenizeStep o s = .ok () t) : CursorInv t := by
  unfold tokenizeStep at ht
  split at ht
  · exact openChunk_cursorInv h hp ht
  · rename_i hopen
    split at ht
    · rename_i hlt
      exact tokenFor_cursorInv h hp (by simpa using hopen) hlt ht
    · exact closeTokens_cursorInv h hp ht

/-! ### Packing -/

/-- Packing keeps the invariant: the writer's bounds are kept and nothing else the invariant reads changes. -/
theorem PackKeeps.cursorInv {s t : State} (hk : PackKeeps s t) (h : CursorInv s) (hp : s.phase = .cPack) : CursorInv t := by
  obtain ⟨hrun, hop, hchunk, -⟩ := (cursorInv_cPack hp).1 h
  obtain ⟨ht, hwr, -⟩ := hk
  have hcur : t.cur = s.cur := by rw [ht]
  refine (cursorInv_cPack (by rw [ht]; exact hp)).2 ⟨hrun.of_same (by rw [ht]) hcur, by rwa [hcur], hchunk.of_same hcur, hwr⟩

/-- A token's instruction in C_PACK: the packer's registers, which fetching has moved, are not read. -/
theorem exec_token_cursorInv {f : Format} {bs : List Byte} {i : Instr} {r : List Byte} {s t : State} (h : CursorInv s)
    (hp : s.phase = .cPack) (hd : decode f bs = .ok (i, r)) (hf : f = .group ∨ f = .lit ∨ f = .mat)
    (ht : exec i s = .next t) : CursorInv t := by
  obtain ⟨⟨-, hlat, -⟩, -, -, hwr⟩ := (cursorInv_cPack hp).1 h
  have hpack : ∀ {q : Res Unit}, PackKeeps s q.state → settle q = .next t → CursorInv t := by
    intro q hq hqt
    rcases settle_next hqt with rfl | ⟨e, u, rfl, rfl⟩
    · exact hq.cursorInv h hp
    · exact completeErr_cursorInv e u
  rcases decode_token hd hf with ⟨m, rfl⟩ | ⟨b, rfl⟩ | ⟨off, l, hm⟩
  · cases ht
    exact h
  · exact hpack (encodeSym_keeps _ hwr hlat) ht
  · obtain ⟨he, hoff⟩ := matchFields_exec (s := s) hm
    rw [he] at ht
    exact hpack (packMatch_keeps l hoff hwr hlat) ht

theorem fetchToken_cursorInv {f : Format} {bits : Nat} {bs : List Byte} {s t : State} (h : CursorInv s)
    (hp : s.phase = .cPack) (hf : f = .group ∨ f = .lit ∨ f = .mat)
    (ht : perform (fetchToken f bits bs s) = .next t) : CursorInv t := by
  rcases perform_fetchToken f bits bs s with ⟨i, r, hd, e⟩ | e <;> rw [e] at ht
  · exact exec_token_cursorInv (by exact h) (by exact hp) hd hf ht
  · cases ht
    exact completeErr_cursorInv _ s

theorem fetchPack_cursorInv {s t : State} (h : CursorInv s) (hp : s.phase = .cPack)
    (ht : perform (fetchPack s) = .next t) : CursorInv t := by
  unfold fetchPack at ht
  repeat' split at ht
  · cases ht
    exact finishChunk_cursorInv h hp
  · exact fetchToken_cursorInv h hp (.inl rfl) ht
  · exact fetchToken_cursorInv h hp (.inr (.inr rfl)) ht
  · exact fetchToken_cursorInv h hp (.inr (.inl rfl)) ht

/-- The empty block completes the command either way (R222). -/
theorem emptyStep_cursorInv {s t : State} (h : CursorInv s) (ht : settle (emptyStep s) = .next t) : CursorInv t := by
  obtain ⟨hmt, -⟩ := h
  unfold emptyStep checkCapacity at ht
  generalize emptyBlock = bs at ht
  split at ht
  · cases ht
    exact completeErr_cursorInv _ s
  · cases ht
    exact completeOk_cursorInv hmt

/-! ### Decompression -/

theorem readerInit_readerInv {q : Nat} {s : State} (hlow : s.cur.inPos.toNat + 256 ≤ q)
    (hhigh : q + 4 ≤ s.cur.slen.toNat) : ReaderInv (readerInit q s) := by
  have hbound := s.cur.slen.isLt
  have hpos : (BitVec.ofNat 33 (q + 4)).toNat = q + 4 := by
    rw [BitVec.toNat_ofNat]
    omega
  refine ⟨Nat.le_refl 32, Nat.mod_one _, ?_, ?_⟩
  · show s.cur.inPos.toNat + 260 ≤ (BitVec.ofNat 33 (q + 4)).toNat
    omega
  · show (BitVec.ofNat 33 (q + 4)).toNat ≤ s.cur.slen.toNat
    omega

/-- ReadHeader starts the reader with 32 bits, four bytes after the table (R171, R252). -/
theorem readHeader_cursorInv {s t : State} (h : CursorInv s) (hp : s.phase = .dReadHeader)
    (ht : settle (readHeader s) = .next t) : CursorInv t := by
  obtain ⟨⟨-, hrun⟩, hop⟩ := (cursorInv_dReadHeader hp).1 h
  unfold readHeader at ht
  dsimp only at ht
  repeat' split at ht
  · cases ht
    exact completeErr_cursorInv _ _
  · cases ht
    exact completeErr_cursorInv _ _
  · rename_i hlen _
    cases ht
    have hread : ReaderInv (readerInit (s.cur.inPos.toNat + Config.tableBytes) s) :=
      readerInit_readerInv (Nat.le_refl _) (by simp only [Config.minBlock, Config.tableBytes] at *; omega)
    exact (cursorInv_dDecode rfl).2 ⟨⟨rfl, hrun⟩, hop, hread, Nat.le_refl _⟩

/-- The chunk ends where the reader stands, which is inside the input (R176, R266, R270). -/
theorem chunkEnd_running {s : State} (h : RunningCursors s) (hr : ReaderInv s) : RunningCursors (chunkEnd s) := by
  obtain ⟨hmt, hlat, hout, hin⟩ := h
  obtain ⟨-, -, hlow, hhigh⟩ := hr
  refine ⟨hmt, hlat, hout, ?_⟩
  show (BitVec.ofNat 33 (s.cur.inPos.toNat + (s.rd.rpos.toNat - s.cur.inPos.toNat))).toNat ≤ s.cur.slen.toNat
  rw [BitVec.toNat_ofNat]
  omega

/-- Skipping buffered bits keeps the invariant (R173, R176). -/
theorem skip_cursorInv {s : State} {n : Nat} (h : CursorInv s) (hp : s.phase = .dDecode) (hn : n ≤ s.rd.nbits.toNat) :
    CursorInv (skip n s) := by
  obtain ⟨hrun, hop, hread, hout⟩ := (cursorInv_dDecode hp).1 h
  exact (cursorInv_dDecode (by exact hp)).2 ⟨hrun, hop, skip_reader hread hn, hout⟩

theorem literal_cursorInv {s t : State} {b : Byte} (h : CursorInv s) (hp : s.phase = .dDecode)
    (ht : settle (literal b s) = .next t) : CursorInv t := by
  obtain ⟨⟨hmt, hlat, -, hin⟩, hop, hread, hout⟩ := (cursorInv_dDecode hp).1 h
  unfold literal at ht
  split at ht
  · cases ht
    exact completeErr_cursorInv _ s
  · rename_i hroom
    have hbound := s.cur.cap.isLt
    have hnext : (BitVec.ofNat 33 (s.cur.outPos.toNat + 1)).toNat = s.cur.outPos.toNat + 1 := by
      rw [BitVec.toNat_ofNat]
      omega
    have hcap : (BitVec.ofNat 33 (s.cur.outPos.toNat + 1)).toNat ≤ s.cur.cap.toNat := by omega
    have hstart : s.cur.chunkOutStart.toNat ≤ (BitVec.ofNat 33 (s.cur.outPos.toNat + 1)).toNat := by omega
    cases ht
    exact (cursorInv_dDecode (by exact hp)).2 ⟨⟨hmt, hlat, hcap, hin⟩, hop, hread, hstart⟩

theorem matchSymbol_cursorInv {s t : State} {o n : BitVec 4} (h : CursorInv s) (hp : s.phase = .dDecode)
    (ht : settle (matchSymbol o n s) = .next t) : CursorInv t := by
  obtain ⟨⟨-, hlat, -, hin⟩, hop, hread, hout⟩ := (cursorInv_dDecode hp).1 h
  rcases matchSymbol_spec o n s hread hlat with ⟨e, u, he, -⟩ | ⟨u, he, hread', hmt, hlow, hhigh, hu, -⟩
  · rw [he] at ht
    cases ht
    exact completeErr_cursorInv e u
  · rw [he] at ht
    cases ht
    have hcur : t.cur = { s.cur with outPos := t.cur.outPos } := by rw [hu]
    have hp' : t.phase = .dDecode := by rw [hu]; exact hp
    have hstart : s.cur.chunkOutStart.toNat ≤ t.cur.outPos.toNat := by omega
    rw [cursorInv_dDecode hp', RunningCursors, Latched, hcur]
    exact ⟨⟨hmt, hlat, hhigh, hin⟩, hop, hread', hstart⟩

theorem exec_sym_cursorInv {s t : State} {sym : Sym} {z : Bool} (h : CursorInv s) (hp : s.phase = .dDecode)
    (ht : exec (decodeSym sym z) s = .next t) : CursorInv t := by
  rcases decodeSym_cases sym z with e | ⟨b, e⟩ | ⟨o, n, e⟩ <;> rw [e] at ht
  · obtain ⟨hrun, hop, hread, -⟩ := (cursorInv_dDecode hp).1 h
    cases ht
    exact (cursorInv_dEndOfStream rfl).2 ⟨chunkEnd_running hrun hread, hop⟩
  · exact literal_cursorInv h hp ht
  · exact matchSymbol_cursorInv h hp ht

theorem fetchDecode_cursorInv {s t : State} (h : CursorInv s) (hp : s.phase = .dDecode)
    (ht : perform (fetchDecode s) = .next t) : CursorInv t := by
  obtain ⟨hrun, hop, hread, hout⟩ := (cursorInv_dDecode hp).1 h
  unfold fetchDecode at ht
  rw [if_neg (by simp [hrun.1])] at ht
  split at ht
  · rcases decodeNext_spec s with ⟨sym, b, hb, e⟩ | e <;> rw [e] at ht
    · exact exec_sym_cursorInv (skip_cursorInv h hp hb) hp ht
    · cases ht
      exact completeErr_cursorInv _ s
  · cases ht
    exact (cursorInv_dReadHeader rfl).2 ⟨chunkEnd_running hrun hread, hop⟩

/-! ### The engine's step -/

theorem engineStep_cursorInv {o : Config.Oracles} {s t : State} (h : CursorInv s) (ht : engineStep o s = .next t) :
    CursorInv t := by
  cases hp : s.phase with
  | idle =>
    rw [engineStep_idle o hp] at ht
    cases ht
    exact h
  | cTokenize =>
    rw [engineStep_cTokenize o hp] at ht
    rcases settle_next ht with ht | ⟨e, u, -, rfl⟩
    · exact tokenizeStep_cursorInv h hp ht
    · exact completeErr_cursorInv e u
  | cPack =>
    rw [engineStep_cPack o hp] at ht
    exact fetchPack_cursorInv h hp ht
  | cEmpty =>
    rw [engineStep_cEmpty o hp] at ht
    exact emptyStep_cursorInv h ht
  | dReadHeader =>
    rw [engineStep_dReadHeader o hp] at ht
    exact readHeader_cursorInv h hp ht
  | dDecode =>
    rw [engineStep_dDecode o hp] at ht
    exact fetchDecode_cursorInv h hp ht
  | dEndOfStream =>
    rw [engineStep_dEndOfStream o hp] at ht
    cases ht
    exact completeOk_cursorInv h.1

/-! ### The host's steps -/

/-- An accepted command starts with both cursors at 0, in the buffers it has latched (R90, R200, R250). -/
theorem acceptCommand_running {s : State} (op : Op) (h : s.launchOk = true) : RunningCursors (acceptCommand op s) :=
  ⟨rfl, h, Nat.zero_le _, Nat.zero_le _⟩

theorem exec_decodeCmd_cursorInv {v : Word} {s t : State} (h : CursorInv s) (ht : exec (decodeCmd v) s = .next t) :
    CursorInv t := by
  rcases exec_decodeCmd_guarded ht with rfl | ⟨-, ⟨hl, rfl | rfl⟩ | rfl⟩
  · exact h
  · exact nextChunk_cursorInv (acceptCommand_running .compress hl) rfl
  · exact (cursorInv_dReadHeader rfl).2 ⟨acceptCommand_running .decompress hl, rfl⟩
  · exact h

/-! ### The obligation -/

/-- Settles O55, by the ways a step answers a next state: the engine's move and a command word are the lemmas above, reset
goes to IDLE with no match half assembled, and no other access of the host's changes what the invariant reads. -/
theorem stepKeepsCursors : Obligations.StepKeepsCursors := by
  intro o s t h ht
  rcases stepWith_next ht with ⟨hs, he, -⟩ | ⟨hs, rs, us, rfl, -⟩ | ⟨hs, v, -, he⟩ | ⟨hs, off, v, rfl⟩ |
    ⟨hs, a, v, -, rfl⟩ | ⟨hs, rfl⟩
  · exact engineStep_cursorInv (s := { s with host := hs }) h he
  · exact h
  · exact exec_decodeCmd_cursorInv (s := { s with host := hs }) h he
  · rw [regWrite_eq]
    exact h
  · exact h
  · exact (cursorInv_idle rfl).2 rfl

end Sys2Proof.Machine
end

section
/-! SUPPORT. The host's accesses to the register window (R32 to R41, R86) and who moves in a step (R30, R45, R346). -/

namespace Sys2Proof.Machine

/-! ### Where an access falls -/

/-- An aligned 32-bit access inside the window names the register at its offset (R81, R86). -/
theorem accessOf_reg {s : State} {addr : Word} {off : Nat} (ha : addr.toNat = s.par.xhBase.toNat + off) (hlt : off < 64)
    (halign : off % 4 = 0) : accessOf addr 4 s = .reg off := by
  have he : addr.toNat - s.par.xhBase.toNat = off := by omega
  unfold accessOf
  rw [he, if_neg (by omega), if_neg (by omega)]

theorem stepWith_regLoad (o : Config.Oracles) {s : State} {addr : Word} {off : Nat} {rest : List HostOp}
    (ha : addr.toNat = s.par.xhBase.toNat + off) (hlt : off < 64) (halign : off % 4 = 0)
    (hh : s.host = .regLoad addr 4 :: rest) : stepWith o s = .next (hostRegLoad off { s with host := rest }) := by
  have hacc : accessOf addr 4 { s with host := rest } = .reg off := accessOf_reg ha hlt halign
  simp [stepWith, fetchWith, hh, fetchRegLoad, hacc]

/-- A store to a register other than CMD is a register write. -/
theorem stepWith_regStore (o : Config.Oracles) {s : State} {addr v : Word} {off : Nat} {rest : List HostOp}
    (ha : addr.toNat = s.par.xhBase.toNat + off) (hlt : off < 64) (halign : off % 4 = 0) (h0 : off ≠ 0)
    (hh : s.host = .regStore addr 4 v :: rest) : stepWith o s = .next (regWrite off v { s with host := rest }) := by
  have hacc : accessOf addr 4 { s with host := rest } = .reg off := accessOf_reg ha hlt halign
  simp [stepWith, fetchWith, hh, fetchRegStore, hacc, h0]

/-! ### What a register holds and takes -/

/-- The registers by their offsets; CMD, the reserved offsets and every other one read 0 (R32 to R41). -/
theorem regRead_eq (off : Nat) (s : State) : regRead off s =
    if off = 0x04 then s.win.status.setWidth 32
    else if off = 0x08 then s.win.srcAddr
    else if off = 0x0C then s.win.srcLen
    else if off = 0x10 then s.win.dstAddr
    else if off = 0x14 then s.win.dstCap
    else if off = 0x18 then s.win.result
    else if off = 0x1C then s.win.error.setWidth 32
    else if off = 0x20 then s.win.inConsumed
    else 0 := by
  unfold regRead
  split <;> simp_all

theorem regRead_reserved {off : Nat} (s : State) (h : 0x24 ≤ off) : regRead off s = 0 := by
  unfold regRead
  split
  all_goals simp at h ⊢

/-- With BUSY = 0 a store to STATUS goes through its write-1-to-clear bits (R33). -/
theorem regWrite_status {s : State} (v : Word) (hb : s.busy = false) :
    regWrite 0x04 v s = { s with win := { s.win with status := statusWrite s.win.status v } } := by
  simp [regWrite, hb]

theorem regWrite_srcAddr {s : State} (v : Word) (hb : s.busy = false) :
    regWrite 0x08 v s = { s with win := { s.win with srcAddr := v } } := by
  simp [regWrite, hb]

theorem regWrite_srcLen {s : State} (v : Word) (hb : s.busy = false) :
    regWrite 0x0C v s = { s with win := { s.win with srcLen := v } } := by
  simp [regWrite, hb]

theorem regWrite_dstAddr {s : State} (v : Word) (hb : s.busy = false) :
    regWrite 0x10 v s = { s with win := { s.win with dstAddr := v } } := by
  simp [regWrite, hb]

theorem regWrite_dstCap {s : State} (v : Word) (hb : s.busy = false) :
    regWrite 0x14 v s = { s with win := { s.win with dstCap := v } } := by
  simp [regWrite, hb]

/-- The read-only registers and the reserved offsets ignore stores (R38 to R41). -/
theorem regWrite_readOnly {off : Nat} (v : Word) (s : State) (h : 0x18 ≤ off) : regWrite off v s = s := by
  unfold regWrite
  split
  · rfl
  · split
    all_goals simp at h ⊢

/-! ### STATUS -/

/-- The three bits of STATUS after a store to it (R33). -/
theorem getLsbD_statusWrite (st : BitVec 3) (v : Word) {i : Nat} (hi : i < 3) :
    (statusWrite st v).getLsbD i = (st.getLsbD i && (i == 0 || !v.getLsbD i)) := by
  obtain rfl | rfl | rfl : i = 0 ∨ i = 1 ∨ i = 2 := by omega
  all_goals simp [statusWrite]

/-! ### The obligations -/

/-- Settles O16: CMD_NOP is ignored as it stands, the other words by their test of BUSY. -/
theorem ignoredCommandsChangeNothing : Obligations.IgnoredCommandsChangeNothing := by
  exact fun s => ⟨rfl, fun hb => ⟨if_pos hb, if_pos hb, fun _ => if_pos hb⟩⟩

/-- Settles O21, by the register that the load names and what that register reads. -/
theorem registerLoadsReadTheWindow : Obligations.RegisterLoadsReadTheWindow := by
  intro o s addr off rest ha hlt halign hh
  rw [stepWith_regLoad o ha hlt halign hh, hostRegLoad, regRead_eq]
  rfl

/-- Settles O23, by the register that the store names and what that register takes. -/
theorem operandRegistersAreWritten : Obligations.OperandRegistersAreWritten := by
  intro o s addr off v rest hb ha hh
  have hb' : State.busy { s with host := rest } = false := hb
  refine ⟨?_, ?_, ?_, ?_⟩ <;> rintro rfl
  · rw [stepWith_regStore o ha (by decide) (by decide) (by decide) hh, regWrite_srcAddr v hb']
  · rw [stepWith_regStore o ha (by decide) (by decide) (by decide) hh, regWrite_srcLen v hb']
  · rw [stepWith_regStore o ha (by decide) (by decide) (by decide) hh, regWrite_dstAddr v hb']
  · rw [stepWith_regStore o ha (by decide) (by decide) (by decide) hh, regWrite_dstCap v hb']

/-- Settles O24, by the bits of STATUS after a store to it. -/
theorem statusStoreClearsDoneAndErr : Obligations.StatusStoreClearsDoneAndErr := by
  intro o s addr v rest hb ha hh
  have hb' : State.busy { s with host := rest } = false := hb
  refine ⟨_, stepWith_regStore o ha (by decide) (by decide) (by decide) hh, ?_⟩
  rw [regWrite_status v hb']
  have bit := fun i hi => getLsbD_statusWrite s.win.status v (i := i) hi
  refine ⟨rfl, (bit 0 (by decide)).trans ?_, (bit 1 (by decide)).trans ?_, (bit 2 (by decide)).trans ?_⟩
  · simpa [State.busy] using hb
  · simp [State.done]
  · simp [State.err]

/-- Settles O25, by what the registers from 0x18 on take and those from 0x24 on read. -/
theorem readOnlyAndReservedStoresAreIgnored : Obligations.ReadOnlyAndReservedStoresAreIgnored := by
  intro o s addr off v rest ha hlow hhigh halign
  constructor
  · intro hh
    rw [stepWith_regStore o ha (by omega) halign (by omega) hh, regWrite_readOnly v _ hlow]
  · intro hh hres
    rw [stepWith_regLoad o ha (by omega) halign hh, hostRegLoad, regRead_reserved _ hres, if_neg (by omega)]
    rfl

/-- Settles O31: each clause is the arm of the schedule for the head of the host's list; in IDLE the engine does nothing. -/
theorem hostScheduleDrivesEngine : Obligations.HostScheduleDrivesEngine := by
  intro o s rest
  refine ⟨fun hh => ?_, fun hh => ?_, fun hh hb => ?_, fun hh hb => ?_, engineStep_idle o⟩
  · simp [stepWith, fetchWith, hh, engineStep]
  · simp [stepWith, fetchWith, hh, engineStep]
  · simp [stepWith, fetchWith, hh, hb, engineStep]
  · simp [stepWith, fetchWith, hh, hb, State.synchronise]

end Sys2Proof.Machine
end

section
/-! SUPPORT. Where a step's bytes go (R88, R89, R99, R276): every operation of the engine writes inside the latched output
buffer, so a step in which the host writes no memory keeps every byte outside it. -/

namespace Sys2Proof.Machine

/-! ### Bytes outside the latched output buffer -/

/-- From `s` to `t` the latched output buffer is the same and no byte outside it has changed. -/
def KeepsOutside (s t : State) : Prop :=
  t.cur.dst = s.cur.dst ∧ t.cur.cap = s.cur.cap ∧ ∀ a, ¬InOutput s a → t.readByte a = s.readByte a

theorem KeepsOutside.refl (s : State) : KeepsOutside s s := ⟨rfl, rfl, fun _ _ => rfl⟩

theorem KeepsOutside.trans {s t u : State} (h : KeepsOutside s t) (h' : KeepsOutside t u) : KeepsOutside s u := by
  obtain ⟨hdst, hcap, hbytes⟩ := h
  obtain ⟨hdst', hcap', hbytes'⟩ := h'
  refine ⟨hdst'.trans hdst, hcap'.trans hcap, fun a ha => ?_⟩
  rw [hbytes' a (by unfold InOutput at *; rwa [hdst, hcap]), hbytes a ha]

/-- A change that leaves system memory and the latched operands alone. -/
theorem KeepsOutside.of_same {s t : State} (hd : t.cur.dst = s.cur.dst) (hc : t.cur.cap = s.cur.cap)
    (hm : t.mem = s.mem) (hl : t.lost = s.lost) : KeepsOutside s t :=
  ⟨hd, hc, fun a _ => State.readByte_congr hm hl a⟩

theorem completeErr_keepsOutside (e : Err) (s : State) : KeepsOutside s (completeErr e s) :=
  ⟨rfl, rfl, fun _ ha => completeErr_readByte e s ha⟩

/-- Bytes written inside the capacity (R89). -/
theorem writeOut_keepsOutside {s : State} (hb : Latched s) {off : Nat} {bs : List Byte}
    (h : off + bs.length ≤ s.cur.cap.toNat) : KeepsOutside s (s.writeOut off bs) :=
  ⟨rfl, rfl, fun _ ha => writeOut_outside hb h ha⟩

/-- An operation that keeps those bytes, raised or not, keeps them in the step that ends with it (R27, R310). -/
theorem KeepsOutside.settle {s t : State} {r : Res Unit} (h : KeepsOutside s r.state) (ht : Machine.settle r = .next t) :
    KeepsOutside s t := by
  rcases settle_next ht with rfl | ⟨e, u, rfl, rfl⟩
  · exact h
  · exact h.trans (completeErr_keepsOutside e u)

theorem PackKeeps.keepsOutside {s t : State} (h : PackKeeps s t) : KeepsOutside s t := by
  obtain ⟨ht, -, hbytes⟩ := h
  exact ⟨by rw [ht], by rw [ht], hbytes⟩

theorem TokKeeps.keepsOutside {s t : State} (h : TokKeeps s t) : KeepsOutside s t := by
  unfold TokKeeps at h
  exact .of_same (by rw [h]) (by rw [h]) (by rw [h]) (by rw [h])

/-! ### Compression -/

theorem nextChunk_readByte (s : State) (a : Word) : (nextChunk s).readByte a = s.readByte a := by
  unfold nextChunk
  dsimp only
  repeat' split
  all_goals rfl

theorem nextChunk_keepsOutside (s : State) : KeepsOutside s (nextChunk s) := by
  obtain ⟨⟨-, -, -, -, -, -, -, -, -, hdst, hcap⟩, -⟩ := nextChunk_phase s
  exact ⟨hdst, hcap, fun a _ => nextChunk_readByte s a⟩

theorem openChunk_keepsOutside (s : State) : KeepsOutside s (openChunk s).state := by
  unfold openChunk checkCapacity
  split
  · exact .refl s
  · exact .refl s

theorem tokenFor_keepsOutside (a : Nat × Nat) {s : State} (h : s.tk.tpos.toNat < s.tk.tend.toNat) :
    KeepsOutside s (tokenFor a s).state := by
  obtain ⟨n, -, -, ⟨u, t, -, e, hk, -⟩ | ⟨-, u, hk, e⟩⟩ := tokenFor_spec a s h <;> rw [e]
  · exact hk.keepsOutside
  · exact hk.keepsOutside

/-- PackChunk's head writes the 256 table bytes at out_pos (R212). -/
theorem packHeader_keepsOutside {s : State} (hb : Latched s) (hlen : s.len.length = 512)
    (hroom : s.cur.outPos.toNat + 256 ≤ s.cur.cap.toNat) : KeepsOutside s (packHeader s).state := by
  have hw : KeepsOutside s (s.writeOut s.cur.outPos.toNat (tableToBytes s.len)) :=
    writeOut_keepsOutside hb (by rwa [tableToBytes_length 256 s.len hlen])
  unfold packHeader writerInit
  split
  · exact hw
  · exact hw

theorem closeTokens_keepsOutside (o : Config.Oracles) {s : State} (hb : Latched s)
    (hroom : s.cur.outPos.toNat + 256 ≤ s.cur.cap.toNat) : KeepsOutside s (closeTokens o s).state := by
  have heos : TokKeeps s (if s.cur.finalChunk then tokEos s else .ok () s).state := by
    split
    · rcases tokEos_spec s with ⟨t, e, hk⟩ | ⟨-, u, hk, e⟩ <;> rw [e] <;> exact hk
    · exact .refl s
  unfold closeTokens
  cases hr : (if s.cur.finalChunk then tokEos s else .ok () s) with
  | raise e u =>
    rw [hr] at heos
    exact heos.keepsOutside
  | ok x u =>
    rw [hr] at heos
    have hcur : u.cur = s.cur := by rw [show u = _ from heos]
    have hhead : KeepsOutside (buildCode o u) (packHeader (buildCode o u)).state :=
      packHeader_keepsOutside (by unfold Latched; rwa [buildCode_cur, hcur]) (builtLengths_length o u.cnt)
        (by rwa [buildCode_cur, hcur])
    exact heos.keepsOutside.trans hhead

theorem tokenizeStep_keepsOutside (o : Config.Oracles) {s : State} (h : CursorInv s) (hp : s.phase = .cTokenize) :
    KeepsOutside s (tokenizeStep o s).state := by
  obtain ⟨⟨-, hlat, -⟩, -, -, htok⟩ := (cursorInv_cTokenize hp).1 h
  unfold tokenizeStep
  split
  · exact openChunk_keepsOutside s
  · rename_i hopen
    split
    · rename_i hlt
      exact tokenFor_keepsOutside _ hlt
    · obtain ⟨hcap, -⟩ := htok (by simpa using hopen)
      exact closeTokens_keepsOutside o hlat (by unfold Config.minBlock at hcap; omega)

/-- The end of a chunk fills the writer's two slots and writes nothing else (R164, R221). -/
theorem finishChunk_keepsOutside {s : State} (hw : WriterInv s) (hb : Latched s) : KeepsOutside s (finishChunk s) := by
  obtain ⟨-, hbytes⟩ := finishWriter_keeps hw hb
  have hf : KeepsOutside s (finishWriter s) := ⟨rfl, rfl, hbytes⟩
  unfold finishChunk
  dsimp only
  split
  · exact hf
  · exact KeepsOutside.trans hf (nextChunk_keepsOutside _)

theorem exec_token_keepsOutside {f : Format} {bs : List Byte} {i : Instr} {r : List Byte} {s t : State} (hw : WriterInv s)
    (hb : Latched s) (hd : decode f bs = .ok (i, r)) (hf : f = .group ∨ f = .lit ∨ f = .mat)
    (h : exec i s = .next t) : KeepsOutside s t := by
  rcases decode_token hd hf with ⟨m, rfl⟩ | ⟨b, rfl⟩ | ⟨off, l, hm⟩
  · cases h
    exact .refl s
  · exact (encodeSym_keeps b.toNat hw hb).keepsOutside.settle h
  · obtain ⟨he, hoff⟩ := matchFields_exec (s := s) hm
    rw [he] at h
    exact (packMatch_keeps l hoff hw hb).keepsOutside.settle h

theorem fetchToken_keepsOutside {f : Format} {bits : Nat} {bs : List Byte} {s t : State} (hw : WriterInv s)
    (hb : Latched s) (hf : f = .group ∨ f = .lit ∨ f = .mat) (h : perform (fetchToken f bits bs s) = .next t) :
    KeepsOutside s t := by
  rcases perform_fetchToken f bits bs s with ⟨i, r, hd, e⟩ | e <;> rw [e] at h
  · have hk := exec_token_keepsOutside (by exact hw) (by exact hb) hd hf h
    exact hk
  · cases h
    exact completeErr_keepsOutside _ s

theorem fetchPack_keepsOutside {s t : State} (h : CursorInv s) (hp : s.phase = .cPack)
    (ht : perform (fetchPack s) = .next t) : KeepsOutside s t := by
  obtain ⟨⟨-, hlat, -⟩, -, -, hwr⟩ := (cursorInv_cPack hp).1 h
  unfold fetchPack at ht
  repeat' split at ht
  · cases ht
    exact finishChunk_keepsOutside hwr hlat
  · exact fetchToken_keepsOutside hwr hlat (.inl rfl) ht
  · exact fetchToken_keepsOutside hwr hlat (.inr (.inr rfl)) ht
  · exact fetchToken_keepsOutside hwr hlat (.inr (.inl rfl)) ht

theorem emptyBlock_length : emptyBlock.length = 260 := by
  rw [emptyBlock, List.length_append, List.length_cons, List.length_replicate, List.length_replicate]

/-- The empty block is written where the capacity holds its 260 bytes (R220, R222). -/
theorem emptyStep_keepsOutside {s : State} (hb : Latched s) : KeepsOutside s (emptyStep s).state := by
  have hlen := emptyBlock_length
  unfold emptyStep checkCapacity
  generalize emptyBlock = bs at *
  split
  · exact .refl s
  · rename_i hcap
    have hw : KeepsOutside s (s.writeOut s.cur.outPos.toNat bs) :=
      writeOut_keepsOutside hb (by rw [hlen]; exact Nat.le_of_not_lt hcap)
    exact hw

/-! ### Decompression -/

theorem readHeader_keepsOutside (s : State) : KeepsOutside s (readHeader s).state := by
  unfold readHeader
  dsimp only
  repeat' split
  all_goals exact .of_same rfl rfl rfl rfl

/-- A literal is one byte, written at out_pos below the capacity (R258). -/
theorem literal_keepsOutside (b : Byte) {s : State} (hb : Latched s) : KeepsOutside s (literal b s).state := by
  unfold literal
  split
  · exact .refl s
  · rename_i hroom
    have hw : KeepsOutside s (s.writeOut s.cur.outPos.toNat [b]) :=
      writeOut_keepsOutside hb (Nat.lt_of_not_le hroom)
    exact hw

theorem matchSymbol_keepsOutside (o n : BitVec 4) {s : State} (hr : ReaderInv s) (hb : Latched s) :
    KeepsOutside s (matchSymbol o n s).state := by
  rcases matchSymbol_spec o n s hr hb with ⟨e, u, he, hu⟩ | ⟨u, he, -, -, -, -, hu, hbytes⟩
  · rw [he, Res.state_raise]
    exact .of_same (by rw [hu]) (by rw [hu]) (by rw [hu]) (by rw [hu])
  · rw [he, Res.state_ok]
    exact ⟨by rw [hu], by rw [hu], hbytes⟩

theorem exec_sym_keepsOutside {s t : State} {sym : Sym} {z : Bool} (hr : ReaderInv s) (hb : Latched s)
    (h : exec (decodeSym sym z) s = .next t) : KeepsOutside s t := by
  rcases decodeSym_cases sym z with e | ⟨b, e⟩ | ⟨o, n, e⟩ <;> rw [e] at h
  · cases h
    exact .refl s
  · exact (literal_keepsOutside b hb).settle h
  · exact (matchSymbol_keepsOutside o n hr hb).settle h

theorem fetchDecode_keepsOutside {s t : State} (h : CursorInv s) (hp : s.phase = .dDecode)
    (ht : perform (fetchDecode s) = .next t) : KeepsOutside s t := by
  obtain ⟨⟨hmt, hlat, -⟩, -, hread, -⟩ := (cursorInv_dDecode hp).1 h
  unfold fetchDecode at ht
  rw [if_neg (by simp [hmt])] at ht
  split at ht
  · rcases decodeNext_spec s with ⟨sym, b, hb, e⟩ | e <;> rw [e] at ht
    · exact exec_sym_keepsOutside (s := skip b s) (skip_reader hread hb) hlat ht
    · cases ht
      exact completeErr_keepsOutside _ s
  · cases ht
    exact .refl s

/-! ### The step -/

theorem engineStep_keepsOutside {o : Config.Oracles} {s t : State} (h : CursorInv s) (ht : engineStep o s = .next t) :
    KeepsOutside s t := by
  cases hp : s.phase with
  | idle =>
    rw [engineStep_idle o hp] at ht
    cases ht
    exact .refl s
  | cTokenize =>
    rw [engineStep_cTokenize o hp] at ht
    exact (tokenizeStep_keepsOutside o h hp).settle ht
  | cPack =>
    rw [engineStep_cPack o hp] at ht
    exact fetchPack_keepsOutside h hp ht
  | cEmpty =>
    obtain ⟨⟨-, hlat, -⟩, -⟩ := (cursorInv_cEmpty hp).1 h
    rw [engineStep_cEmpty o hp] at ht
    exact (emptyStep_keepsOutside hlat).settle ht
  | dReadHeader =>
    rw [engineStep_dReadHeader o hp] at ht
    exact (readHeader_keepsOutside s).settle ht
  | dDecode =>
    rw [engineStep_dDecode o hp] at ht
    exact fetchDecode_keepsOutside h hp ht
  | dEndOfStream =>
    rw [engineStep_dEndOfStream o hp] at ht
    cases ht
    exact .refl s

/-- A word stored to CMD changes no byte of system memory (R200, R250, R304, R319). -/
theorem exec_decodeCmd_readByte {v : Word} {s t : State} (h : exec (decodeCmd v) s = .next t) (a : Word) :
    t.readByte a = s.readByte a := by
  rcases exec_decodeCmd_next h with rfl | rfl | rfl | rfl
  · rfl
  · exact nextChunk_readByte (acceptCommand .compress s) a
  · rfl
  · rfl

/-- Reset makes the output buffer's bytes unspecified at most (R340, R342). -/
theorem hostReset_readByte (s : State) {a : Word} (ha : ¬InOutput s a) : (hostReset s).readByte a = s.readByte a := by
  rw [State.readByte_congr (hostReset_mem s) (hostReset_lost s)]
  split
  · exact State.readByte_lose_outside s ha
  · rfl

/-! ### The obligation -/

/-- Settles O58, by the ways a step answers a next state: the engine's move, a command word and reset are the lemmas above,
a byte of the host's is excluded, and no other access of the host's touches system memory. -/
theorem onlyTheOutputBufferChanges : Obligations.OnlyTheOutputBufferChanges := by
  intro o s t h hno ht a ha
  rcases stepWith_next ht with ⟨hs, he, -⟩ | ⟨hs, rs, us, rfl, -⟩ | ⟨hs, v, -, he⟩ | ⟨hs, off, v, rfl⟩ |
    ⟨hs, x, v, hh, -⟩ | ⟨hs, rfl⟩
  · obtain ⟨-, -, hbytes⟩ := engineStep_keepsOutside (s := { s with host := hs }) h he
    exact hbytes a ha
  · rfl
  · exact exec_decodeCmd_readByte (s := { s with host := hs }) he a
  · rw [regWrite_eq]
    rfl
  · exact absurd hh (hno x v hs)
  · exact hostReset_readByte { s with host := hs } ha

end Sys2Proof.Machine
end

section
/-! SUPPORT. The launch precondition (R90), the bytes an error leaves (R99), a register access that names no register
(R86) and the host's accesses to system memory (R95, R97, R351). -/

namespace Sys2Proof.Machine

/-! ### The launch precondition -/

/-- Two ranges share a number exactly when neither is empty and neither ends before the other begins. -/
theorem ranges_meet_iff (i n j m : Nat) :
    (∃ a, i ≤ a ∧ a < i + n ∧ j ≤ a ∧ a < j + m) ↔ 0 < n ∧ 0 < m ∧ j < i + n ∧ i < j + m := by
  constructor
  · rintro ⟨a, h1, h2, h3, h4⟩
    omega
  · rintro ⟨h1, h2, h3, h4⟩
    exact ⟨max i j, by omega, by omega, by omega, by omega⟩

/-- The launch precondition fails exactly when a buffer wraps or the two share a byte (R90). -/
theorem launchOk_eq_false_iff (s : State) : s.launchOk = false ↔
    4294967296 < s.win.srcAddr.toNat + s.win.srcLen.toNat ∨ 4294967296 < s.win.dstAddr.toNat + s.win.dstCap.toNat ∨
      ∃ a : Nat, s.win.srcAddr.toNat ≤ a ∧ a < s.win.srcAddr.toNat + s.win.srcLen.toNat ∧
        s.win.dstAddr.toNat ≤ a ∧ a < s.win.dstAddr.toNat + s.win.dstCap.toNat := by
  have zero_iff : ∀ w : Word, w = 0#32 ↔ w.toNat = 0 := fun w => BitVec.toNat_inj.symm
  simp only [ranges_meet_iff, State.launchOk, buffersOk, Bool.and_eq_false_iff, Bool.or_eq_false_iff,
    decide_eq_false_iff_not, zero_iff]
  unfold memBound
  omega

/-- With BUSY = 0 both launches are refused where the precondition fails, and accepted where it holds (R90, R353). -/
theorem exec_launch_refused {s : State} (hb : s.busy = false) (hl : s.launchOk = false) :
    exec .compress s = .refused .badBuffers ∧ exec .decompress s = .refused .badBuffers := by
  simp [exec, execCompress, execDecompress, hb, hl]

theorem exec_launch_accepted {s : State} (hb : s.busy = false) (hl : s.launchOk = true) :
    exec .compress s = .next (nextChunk (acceptCommand .compress s)) ∧
      exec .decompress s = .next { acceptCommand .decompress s with phase := .dReadHeader } := by
  simp [exec, execCompress, execDecompress, hb, hl]

/-! ### What the host's accesses test -/

theorem inInput_iff (s : State) (a : Word) : s.inInput a = true ↔ InInput s a := by
  simp [State.inInput, InInput]

theorem inOutput_iff (s : State) (a : Word) : s.inOutput a = true ↔ InOutput s a := by
  simp [State.inOutput, InOutput]

theorem isUnseen_iff (s : State) (a : Word) : s.isUnseen a = true ↔ Unseen s a := by
  simp [State.isUnseen, Unseen]

theorem hostViewOpen_iff (s : State) (a : Word) : s.hostViewOpen a = true ↔ HostViewOpen s a := by
  simp [State.hostViewOpen, HostViewOpen, inOutput_iff, isUnseen_iff, or_assoc]

/-! ### What the host's accesses do -/

/-- An access inside the window of another width than 32 bits, or not aligned, names no register (R86). -/
theorem accessOf_misshapen {s : State} {addr : Word} {off width : Nat} (ha : addr.toNat = s.par.xhBase.toNat + off)
    (hlt : off < 64) (hbad : width ≠ 4 ∨ off % 4 ≠ 0) : accessOf addr width s = .bad .badRegisterAccess := by
  have he : addr.toNat - s.par.xhBase.toNat = off := by omega
  unfold accessOf
  rw [he, if_neg (by omega), if_pos hbad]

theorem stepWith_memStore (o : Config.Oracles) {s : State} {a : Word} {v : Byte} {rest : List HostOp}
    (hh : s.host = .memStore a v :: rest) : stepWith o s = hostStore a v { s with host := rest } := by
  simp [stepWith, fetchWith, hh]

theorem stepWith_memLoad (o : Config.Oracles) {s : State} {a : Word} {rest : List HostOp}
    (hh : s.host = .memLoad a :: rest) :
    stepWith o s = .next (logRead ((hostLoad a s).setWidth 32) { s with host := rest }) := by
  simp [stepWith, fetchWith, hh]

/-- A byte of a running command's buffers is a race (R97, R352). -/
theorem hostStore_race {s : State} {a : Word} (v : Byte) (hb : s.busy = true) (ha : InInput s a ∨ InOutput s a) :
    hostStore a v s = .fault .bufferRace := by
  rw [← inInput_iff, ← inOutput_iff] at ha
  simp [hostStore, hb, ha]

theorem hostStore_free {s : State} {a : Word} (v : Byte) (h : s.busy = false ∨ ¬(InInput s a ∨ InOutput s a)) :
    hostStore a v s = .next (hostWrite a v s) := by
  rw [← inInput_iff, ← inOutput_iff] at h
  refine if_neg fun hrace => ?_
  simp only [Bool.and_eq_true, Bool.or_eq_true] at hrace
  obtain ⟨hb, ha⟩ := hrace
  rcases h with h | h
  · simp [hb] at h
  · exact h ha

/-- The written byte is contested exactly where it goes over an engine write not yet synchronised with (log entry 29). -/
theorem mem_contested_hostWrite_same (a : Word) (v : Byte) (s : State) :
    a.toNat ∈ (hostWrite a v s).contested ↔ Unseen s a := by
  rw [hostWrite_contested, ← isUnseen_iff]
  split <;> simp [*]

theorem mem_contested_hostWrite_other {a : Word} (v : Byte) (s : State) {k : Nat} (hk : k ≠ a.toNat) :
    k ∈ (hostWrite a v s).contested ↔ k ∈ s.contested := by
  rw [hostWrite_contested]
  split <;> simp [hk]

theorem hostLoad_closed {s : State} {a : Word} (h : ¬HostViewOpen s a) : hostLoad a s = s.readByte a := by
  rw [← hostViewOpen_iff] at h
  exact if_neg h

theorem hostLoad_open {s : State} {a : Word} (h : HostViewOpen s a) :
    hostLoad a s = Config.freeBusyRead s.reads.length := by
  rw [← hostViewOpen_iff] at h
  exact if_pos h

/-! ### The obligations -/

/-- Settles O20, by when the launch precondition fails. -/
theorem badBuffersAreRefused : Obligations.BadBuffersAreRefused := by
  intro s hb
  rw [← launchOk_eq_false_iff]
  refine ⟨exec_launch_refused hb, fun hl => ?_⟩
  obtain ⟨hc, hd⟩ := exec_launch_accepted hb (by simpa using hl)
  exact ⟨⟨_, hc⟩, ⟨_, hd⟩⟩

/-- Settles O28: a completion with an error loses the output buffer's range and no byte outside it. -/
theorem errorLeavesOutputUnspecified : Obligations.ErrorLeavesOutputUnspecified := by
  exact fun e s a => ⟨State.lose_inside s, completeErr_readByte e s⟩

/-- Settles O30: a store is a race or a byte written, a load the byte or a free value, by what the access tests. -/
theorem hostMemoryAccessesMeetTheEngine : Obligations.HostMemoryAccessesMeetTheEngine := by
  intro o s a v rest
  refine ⟨fun hh => ⟨fun hb ha => ?_, fun hfree => ?_⟩, fun hh => ⟨fun hclosed => ?_, fun hopen => ?_⟩⟩
  · rw [stepWith_memStore o hh]
    exact hostStore_race v hb ha
  · rw [stepWith_memStore o hh]
    exact ⟨_, hostStore_free v hfree, rfl, State.readByte_writeByte_same s a v,
      fun x hx => State.readByte_writeByte_other s v hx, mem_contested_hostWrite_same a v _,
      fun k hk => mem_contested_hostWrite_other v _ hk⟩
  · rw [stepWith_memLoad o hh, hostLoad_closed hclosed]
    rfl
  · rw [stepWith_memLoad o hh, hostLoad_open hopen]
    rfl

/-- Settles O26, by where a misshapen access falls. -/
theorem misshapenRegisterAccessIsRefused : Obligations.MisshapenRegisterAccessIsRefused := by
  intro o s addr off width v rest ha hlt hbad
  have hacc : accessOf addr width { s with host := rest } = .bad .badRegisterAccess := accessOf_misshapen ha hlt hbad
  constructor <;> intro hh
  · simp [stepWith, fetchWith, hh, fetchRegLoad, hacc]
  · simp [stepWith, fetchWith, hh, fetchRegStore, hacc]

end Sys2Proof.Machine
end

section
/-! SUPPORT. Decoding and encoding of every row (30_encoding R110 to R126): each format's decoder on the bytes of a field,
and what an accepted word says about its bytes. -/

namespace Sys2Proof

/-! ### Fields -/

theorem ofNat_ofBytesLE_bytesLE (m v : Nat) : BitVec.ofNat (8 * m) (ofBytesLE (bytesLE m v)) = BitVec.ofNat (8 * m) v := by
  apply BitVec.eq_of_toNat_eq
  rw [ofBytesLE_bytesLE, BitVec.toNat_ofNat, BitVec.toNat_ofNat, pow_mul]
  exact Nat.mod_mod _ _

theorem ofNat_ofBytesLE_toNat (m : Nat) (v : BitVec (8 * m)) : BitVec.ofNat (8 * m) (ofBytesLE (bytesLE m v.toNat)) = v := by
  rw [ofBytesLE_bytesLE, ofNat_mod v _ (by simp [pow_mul])]

theorem bytesLE_toNat_ofNat (bs : List Byte) : bytesLE bs.length (BitVec.ofNat (8 * bs.length) (ofBytesLE bs)).toNat = bs :=
  ofNat_ofBytesLE_inj _ bs rfl rfl

/-- A 16-bit field is 0 exactly where its two bytes are. -/
theorem ofNat_ofBytesLE_ne_zero {b c : Byte} (h : ofBytesLE [b, c] ≠ 0) : BitVec.ofNat 16 (ofBytesLE [b, c]) ≠ 0#16 := by
  intro e
  have hlt : ofBytesLE [b, c] < 2 ^ 16 := by simpa using ofBytesLE_lt [b, c]
  have hz := congrArg BitVec.toNat e
  rw [BitVec.toNat_ofNat, Nat.mod_eq_of_lt hlt] at hz
  exact h hz

theorem ofBytesLE_bytesLE_toNat_ne_zero {w : Half} (h : w ≠ 0#16) : ofBytesLE (bytesLE 2 w.toNat) ≠ 0 := by
  rw [ofBytesLE_bytesLE, Nat.mod_eq_of_lt (by exact w.isLt)]
  exact fun e => h (BitVec.eq_of_toNat_eq e)

theorem eq_zero_of_ofBytesLE_eq_zero {b c : Byte} (h : ofBytesLE [b, c] = 0) : b = 0#8 ∧ c = 0#8 := by
  simp only [ofBytesLE] at h
  exact ⟨BitVec.eq_of_toNat_eq (by simp; omega), BitVec.eq_of_toNat_eq (by simp; omega)⟩

/-! ### Command words (R124) -/

theorem decode_cmd (v : Nat) (rest : List Byte) :
    decode .cmd (bytesLE 4 v ++ rest) = .ok (decodeCmd (BitVec.ofNat 32 v), rest) := by
  rw [← show BitVec.ofNat 32 _ = _ from ofNat_ofBytesLE_bytesLE 4 v]
  rfl

theorem decodeCmd_of_three_le {v : Word} (h : 3 ≤ v.toNat) : decodeCmd v = .cmdIllegal v := by
  have hne : ∀ k : Word, k.toNat < 3 → v ≠ k := by
    rintro k hk rfl
    omega
  rw [decodeCmd, if_neg (hne _ (by decide)), if_neg (hne _ (by decide)), if_neg (hne _ (by decide))]

/-- A word stored to CMD names a row, whose encoding it is. -/
theorem decodeCmd_spec (v : Word) : (decodeCmd v).wellFormed = true ∧ encode (decodeCmd v) = bytesLE 4 v.toNat := by
  unfold decodeCmd
  split
  case isTrue h => subst h; exact ⟨rfl, rfl⟩
  split
  case isTrue h => subst h; exact ⟨rfl, rfl⟩
  split
  case isTrue h => subst h; exact ⟨rfl, rfl⟩
  case isFalse h0 h1 h2 =>
    refine ⟨decide_eq_true ?_, rfl⟩
    simp only [← BitVec.toNat_inj, BitVec.toNat_ofNat, Nat.reducePow, Nat.reduceMod] at h0 h1 h2
    omega

/-! ### Symbols (R114, R115) -/

theorem decode_sym (z : Bool) {v : Nat} (h : v < 512) (rest : List Byte) :
    decode (.sym z) (bytesLE 2 v ++ rest) = .ok (decodeSym (BitVec.ofNat 9 v) z, rest) := by
  have hv : ofBytesLE (bytesLE 2 v) = v := by rw [ofBytesLE_bytesLE]; omega
  show (if ofBytesLE (bytesLE 2 v) < 512 then Except.ok (decodeSym (BitVec.ofNat 9 (ofBytesLE (bytesLE 2 v))) z, rest)
    else .error DecodeError.symbolTooWide) = _
  rw [hv, if_pos h]

theorem decodeSym_lit (b : Byte) (z : Bool) : decodeSym (BitVec.ofNat 9 b.toNat) z = .symLit b := by
  have hb := b.isLt
  have hn : (BitVec.ofNat 9 b.toNat).toNat = b.toNat := by rw [BitVec.toNat_ofNat]; omega
  have hne : BitVec.ofNat 9 b.toNat ≠ 256#9 := by
    intro e
    rw [e] at hn
    simp at hn
    omega
  rw [decodeSym, if_neg (fun h => hne h.1), hn, if_pos hb, BitVec.ofNat_toNat, BitVec.setWidth_eq]

theorem decodeSym_match {o n : Nat} (ho : o ≤ 15) (hn : n ≤ 15) :
    decodeSym (BitVec.ofNat 9 (matchSym o n)) false = .symMatch (BitVec.ofNat 4 o) (BitVec.ofNat 4 n) := by
  have hs : (BitVec.ofNat 9 (matchSym o n)).toNat = 256 + 16 * o + n := by
    rw [BitVec.toNat_ofNat, matchSym]; omega
  rw [decodeSym, if_neg (by simp), hs, if_neg (by omega)]
  congr 1 <;> apply BitVec.eq_of_toNat_eq <;> simp only [BitVec.toNat_ofNat] <;> omega

/-- A symbol names a row, whose encoding it is. -/
theorem decodeSym_spec (s : Sym) (z : Bool) :
    (decodeSym s z).wellFormed = true ∧ encode (decodeSym s z) = bytesLE 2 s.toNat := by
  have hs := s.isLt
  unfold decodeSym
  split
  case isTrue h => rw [h.1]; exact ⟨rfl, rfl⟩
  split
  case isTrue hlit =>
    refine ⟨rfl, ?_⟩
    rw [encode, BitVec.toNat_ofNat, Nat.mod_eq_of_lt hlit]
  case isFalse hlit =>
    refine ⟨rfl, ?_⟩
    rw [encode, matchSym]
    simp only [BitVec.toNat_ofNat]
    congr 1
    omega

/-! ### Length forms (R118) -/

/-- The nibble of the symbol a length form stands after. -/
def LenForm.symNibble : LenForm → BitVec 4
  | .nibble n => n
  | .ext8 _ => 15#4
  | .ext16 _ => 15#4
  | .ext32 _ => 15#4

theorem decode_len {n : BitVec 4} {bs r : List Byte} {g : LenForm} (h : decodeLength n bs = .ok (g, r)) :
    decode (.len n) bs = .ok (g.instr, r) := by
  rw [decode, h]

theorem decodeLength_encode (g : LenForm) (rest : List Byte) (h : g.instr.wellFormed = true) :
    decodeLength g.symNibble (encode g.instr ++ rest) = .ok (g, rest) := by
  cases g with
  | nibble n =>
    have hn : n ≠ 15#4 := of_decide_eq_true h
    exact if_pos hn
  | ext8 b =>
    have hb : b ≠ 255#8 := of_decide_eq_true h
    exact if_pos hb
  | ext16 w =>
    have hw : w ≠ 0#16 := of_decide_eq_true h
    refine (if_pos (ofBytesLE_bytesLE_toNat_ne_zero hw)).trans ?_
    exact congrArg (fun v => Except.ok (LenForm.ext16 v, rest)) (ofNat_ofBytesLE_toNat 2 w)
  | ext32 x =>
    exact congrArg (fun v => Except.ok (LenForm.ext32 v, rest)) (ofNat_ofBytesLE_toNat 4 x)

/-- An accepted length form is a row that stands after the nibble given, and the bytes taken are its encoding. -/
theorem decodeLength_spec {n : BitVec 4} {bs r : List Byte} {g : LenForm} (h : decodeLength n bs = .ok (g, r)) :
    g.instr.wellFormed = true ∧ g.symNibble = n ∧ bs = encode g.instr ++ r := by
  unfold decodeLength at h
  split at h
  case isTrue hn => cases h; exact ⟨decide_eq_true hn, rfl, rfl⟩
  case isFalse hn =>
  obtain rfl : n = 15#4 := not_not.1 hn
  split at h
  case h_1 => cases h
  split at h
  case isTrue b _ hb => cases h; exact ⟨decide_eq_true hb, rfl, rfl⟩
  case isFalse b _ hb =>
  obtain rfl : b = 255#8 := not_not.1 hb
  split at h
  case h_2 => cases h
  case h_1 w0 w1 _ =>
  split at h
  case isTrue hw =>
    cases h
    refine ⟨decide_eq_true (ofNat_ofBytesLE_ne_zero hw), rfl, ?_⟩
    exact congrArg (255#8 :: · ++ r) (bytesLE_toNat_ofNat [w0, w1]).symm
  case isFalse hw =>
  obtain ⟨rfl, rfl⟩ := eq_zero_of_ofBytesLE_eq_zero (not_not.1 hw)
  split at h
  case h_2 => cases h
  case h_1 x0 x1 x2 x3 _ =>
    cases h
    refine ⟨rfl, rfl, ?_⟩
    exact congrArg (255#8 :: 0#8 :: 0#8 :: · ++ r) (bytesLE_toNat_ofNat [x0, x1, x2, x3]).symm

/-! ### Match tokens (R122, R123) -/

/-- The match token of an offset and the length form its bytes after the offset read as: a single byte is L itself (R122),
and with offset 0 the byte 0 is the end of stream (R123). No token has a length form without bytes. -/
def tokenOfLength (off : Half) : LenForm → Instr
  | .nibble _ => .itokEos
  | .ext8 b => if off = 0#16 ∧ b = 0#8 then .itokEos else .itokMatchL8 off b
  | .ext16 w => .itokMatchL16 off w
  | .ext32 x => .itokMatchL32 off x

/-- After its offset a match token reads as the length form after nibble 15 does. -/
theorem decodeMatchToken_cons_cons (o0 o1 : Byte) (bs : List Byte) :
    decodeMatchToken (o0 :: o1 :: bs) =
      (decodeLength 15#4 bs).map fun p => (tokenOfLength (BitVec.ofNat 16 (ofBytesLE [o0, o1])) p.1, p.2) := by
  cases bs with
  | nil => rfl
  | cons b r =>
    simp only [decodeMatchToken, decodeLength, ne_eq, not_true_eq_false, if_false]
    split
    · simp only [Except.map, tokenOfLength]
      split <;> rfl
    · repeat' split
      all_goals rfl

/-- A match token is a row, whose encoding is its offset and then the length form's bytes. -/
theorem tokenOfLength_spec (off : Half) {g : LenForm} (h : g.instr.wellFormed = true) (hn : g.symNibble = 15#4) :
    (tokenOfLength off g).wellFormed = true ∧
      encode (tokenOfLength off g) = bytesLE 2 off.toNat ++ encode g.instr := by
  cases g with
  | nibble n => exact absurd hn (of_decide_eq_true h)
  | ext8 b =>
    have hb : b ≠ 255#8 := of_decide_eq_true h
    by_cases he : off = 0#16 ∧ b = 0#8
    · obtain ⟨rfl, rfl⟩ := he
      exact ⟨rfl, rfl⟩
    · rw [tokenOfLength, if_neg he]
      refine ⟨?_, rfl⟩
      simp only [Instr.wellFormed, Bool.and_eq_true, Bool.or_eq_true, decide_eq_true_eq]
      exact ⟨hb, not_and_or.1 he⟩
  | ext16 w => exact ⟨h, rfl⟩
  | ext32 x => exact ⟨rfl, rfl⟩

theorem decode_mat (off : Half) {g : LenForm} (h : g.instr.wellFormed = true) (hn : g.symNibble = 15#4)
    (rest : List Byte) :
    decode .mat (bytesLE 2 off.toNat ++ (encode g.instr ++ rest)) = .ok (tokenOfLength off g, rest) := by
  refine (decodeMatchToken_cons_cons _ _ (encode g.instr ++ rest)).trans ?_
  rw [← hn, decodeLength_encode g rest h]
  exact congrArg (fun v => Except.ok (tokenOfLength v g, rest)) (ofNat_ofBytesLE_toNat 2 off)

/-- An accepted match token is a row, and the bytes taken are its encoding. -/
theorem decodeMatchToken_spec {bs r : List Byte} {i : Instr} (h : decodeMatchToken bs = .ok (i, r)) :
    i.wellFormed = true ∧ bs = encode i ++ r := by
  match bs with
  | [] => cases h
  | [_] => cases h
  | o0 :: o1 :: bs =>
    rw [decodeMatchToken_cons_cons] at h
    cases hd : decodeLength 15#4 bs with
    | error e => rw [hd] at h; cases h
    | ok p =>
      obtain ⟨g, r'⟩ := p
      rw [hd] at h
      cases h
      obtain ⟨hwf, hn, rfl⟩ := decodeLength_spec hd
      obtain ⟨hwf', he⟩ := tokenOfLength_spec (BitVec.ofNat 16 (ofBytesLE [o0, o1])) hwf hn
      refine ⟨hwf', ?_⟩
      rw [he, List.append_assoc]
      exact congrArg (· ++ (encode g.instr ++ r')) (bytesLE_toNat_ofNat [o0, o1]).symm

/-! ### The obligations -/

/-- Settles O1, row by row: each format's decoder reads the row's fields back from their bytes. -/
theorem decodeOfEncodeGivesInstruction : Obligations.DecodeOfEncodeGivesInstruction := by
  intro i rest h
  cases i with
  | cmdNop => exact decode_cmd 0 rest
  | compress => exact decode_cmd 1 rest
  | decompress => exact decode_cmd 2 rest
  | cmdIllegal v =>
    refine (decode_cmd v.toNat rest).trans ?_
    rw [BitVec.ofNat_toNat, BitVec.setWidth_eq, decodeCmd_of_three_le (of_decide_eq_true h)]
  | symLit b =>
    refine (decode_sym false (by have := b.isLt; omega) rest).trans ?_
    rw [decodeSym_lit]
  | symEos => exact decode_sym true (by decide) rest
  | symMatch o n =>
    have ho := o.isLt
    have hn := n.isLt
    refine (decode_sym false (by rw [matchSym]; omega) rest).trans ?_
    rw [decodeSym_match (by omega) (by omega)]
    simp only [BitVec.ofNat_toNat, BitVec.setWidth_eq]
  | lenNibble n => exact decode_len (decodeLength_encode (.nibble n) rest h)
  | lenExt8 b => exact decode_len (decodeLength_encode (.ext8 b) rest h)
  | lenExt16 w => exact decode_len (decodeLength_encode (.ext16 w) rest h)
  | lenExt32 x => exact decode_len (decodeLength_encode (.ext32 x) rest h)
  | itokGroup m =>
    exact congrArg (fun v => Except.ok (Instr.itokGroup v, rest)) (ofNat_ofBytesLE_toNat 4 m)
  | itokLit b => rfl
  | itokMatchL8 off l =>
    simp only [Instr.wellFormed, Bool.and_eq_true, Bool.or_eq_true, decide_eq_true_eq] at h
    obtain ⟨hl, hne⟩ := h
    refine (decode_mat off (g := .ext8 l) (decide_eq_true hl) rfl rest).trans ?_
    rw [tokenOfLength, if_neg (not_and_or.2 hne)]
  | itokMatchL16 off w => exact decode_mat off (g := .ext16 w) h rfl rest
  | itokMatchL32 off x => exact decode_mat off (g := .ext32 x) rfl rfl rest
  | itokEos => exact decode_mat 0#16 (g := .ext8 0#8) rfl rfl rest

/-- Settles O2, format by format: what each decoder answers is a row, and its fields are the bytes it took. -/
theorem decodedBytesAreItsEncoding : Obligations.DecodedBytesAreItsEncoding := by
  intro f bs i rest h
  cases f with
  | cmd =>
    simp only [decode] at h
    split at h <;> cases h
    rename_i a b c d
    obtain ⟨hwf, he⟩ := decodeCmd_spec (BitVec.ofNat 32 (ofBytesLE [a, b, c, d]))
    rw [he]
    exact ⟨hwf, congrArg (· ++ rest) (bytesLE_toNat_ofNat [a, b, c, d]).symm⟩
  | sym z =>
    simp only [decode] at h
    split at h
    case h_2 => cases h
    case h_1 a b r =>
    split at h <;> cases h
    rename_i hlt
    obtain ⟨hwf, he⟩ := decodeSym_spec (BitVec.ofNat 9 (ofBytesLE [a, b])) z
    rw [he, BitVec.toNat_ofNat, Nat.mod_eq_of_lt hlt]
    exact ⟨hwf, congrArg (· ++ rest) (bytesLE_ofBytesLE [a, b]).symm⟩
  | len n =>
    simp only [decode] at h
    split at h <;> cases h
    rename_i g hd
    obtain ⟨hwf, -, he⟩ := decodeLength_spec hd
    exact ⟨hwf, he⟩
  | group =>
    simp only [decode] at h
    split at h <;> cases h
    rename_i a b c d
    exact ⟨rfl, congrArg (· ++ rest) (bytesLE_toNat_ofNat [a, b, c, d]).symm⟩
  | lit =>
    simp only [decode] at h
    split at h <;> cases h
    exact ⟨rfl, rfl⟩
  | mat => exact decodeMatchToken_spec h

end Sys2Proof
end

section
/-! SUPPORT. The operand forms on the wire: a symbol's fields (R114), symbol formation and the residual (R115, R117), the
length tiers (R118, R119) and the code-length table's nibbles (R113). -/

namespace Sys2Proof.Machine

/-! ### Symbols (R114, R115, R117) -/

theorem decodeSym_eq_symEos_iff (s : Sym) (z : Bool) : decodeSym s z = .symEos ↔ s = 256#9 ∧ z = true := by
  unfold decodeSym
  split
  case isTrue h => simp [h]
  case isFalse h => split <;> simp [h]

theorem decodeSym_of_lt {s : Sym} (z : Bool) (h : s.toNat < 256) : decodeSym s z = .symLit (s.extractLsb' 0 8) := by
  have hne : s ≠ 256#9 := by
    rintro rfl
    exact absurd h (by decide)
  rw [decodeSym, if_neg (fun he => hne he.1), if_pos h]
  rfl

theorem decodeSym_of_le {s : Sym} {z : Bool} (h : 256 ≤ s.toNat) (hne : ¬(s = 256#9 ∧ z = true)) :
    decodeSym s z = .symMatch (s.extractLsb' 4 4) (s.extractLsb' 0 4) := by
  rw [decodeSym, if_neg hne, if_neg (Nat.not_lt.2 h)]
  have ho : BitVec.ofNat 4 (s.toNat / 16) = s.extractLsb' 4 4 :=
    BitVec.eq_of_toNat_eq (by simp [Nat.shiftRight_eq_div_pow])
  rw [ho]
  rfl

/-- Settles O4: the symbol's row by the decoder's two tests, its fields as bit ranges. -/
theorem symbolFieldsAreRead : Obligations.SymbolFieldsAreRead := by
  exact fun s z => ⟨decodeSym_eq_symEos_iff s z, decodeSym_of_lt z, decodeSym_of_le⟩

/-- Settles O5: highbit brackets the offset between two powers of 2, and the symbol reads back its two fields. -/
theorem matchSymbolCarriesItsClass : Obligations.MatchSymbolCarriesItsClass := by
  intro off l hpos hle
  have hhigh := highbit_le hle
  obtain ⟨hlow, hup⟩ := highbit_spec hpos
  rw [pow_succ] at hup
  refine ⟨decodeSym_match hhigh (Nat.min_le_left 15 l), hhigh, ?_, ?_⟩ <;> unfold residualOf <;> omega

/-- Settles O3: the four words, decoded. -/
theorem sampleWordsDecode : Obligations.SampleWordsDecode := by
  unfold Obligations.SampleWordsDecode
  decide

/-! ### The length tiers (R118, R119) -/

theorem wireLength_nibble {l : Nat} (h : l < 15) : wireLength l = .nibble (BitVec.ofNat 4 l) := if_pos h

theorem wireLength_ext8 {l : Nat} (h : 15 ≤ l) (h' : l ≤ 268) : wireLength l = .ext8 (BitVec.ofNat 8 (l - 15)) := by
  rw [wireLength, if_neg (by omega), if_pos (by omega)]

theorem wireLength_ext16 {l : Nat} (h : 269 ≤ l) (h' : l ≤ 65535) : wireLength l = .ext16 (BitVec.ofNat 16 l) := by
  rw [wireLength, if_neg (by omega), if_neg (by omega), if_pos h']

theorem wireLength_ext32 {l : Nat} (h : 65536 ≤ l) : wireLength l = .ext32 (BitVec.ofNat 32 l) := by
  rw [wireLength, if_neg (by omega), if_neg (by omega), if_neg (by omega)]

/-- The four tiers of R119. -/
theorem length_tiers (l : Nat) : l < 15 ∨ (15 ≤ l ∧ l ≤ 268) ∨ (269 ≤ l ∧ l ≤ 65535) ∨ 65536 ≤ l := by omega

theorem ofNat_ne {n a b : Nat} (ha : a < 2 ^ n) (hb : b < 2 ^ n) (h : a ≠ b) : BitVec.ofNat n a ≠ BitVec.ofNat n b := by
  intro e
  have hval := congrArg BitVec.toNat e
  rw [BitVec.toNat_ofNat, BitVec.toNat_ofNat, Nat.mod_eq_of_lt ha, Nat.mod_eq_of_lt hb] at hval
  exact h hval

/-- The form the packer writes is a row of the table. -/
theorem wireLength_wellFormed {l : Nat} (hl : l < 4294967296) : (wireLength l).instr.wellFormed = true := by
  rcases length_tiers l with h | ⟨h, h'⟩ | ⟨h, h'⟩ | h
  · rw [wireLength_nibble h]
    exact decide_eq_true (ofNat_ne (by omega) (by omega) (by omega))
  · rw [wireLength_ext8 h h']
    exact decide_eq_true (ofNat_ne (by omega) (by omega) (by omega))
  · rw [wireLength_ext16 h h']
    exact decide_eq_true (ofNat_ne (by omega) (by omega) (by omega))
  · rw [wireLength_ext32 h]
    rfl

/-- It stands after the nibble N = min(15, L) of the match's symbol (R115). -/
theorem wireLength_symNibble (l : Nat) : (wireLength l).symNibble = BitVec.ofNat 4 (min 15 l) := by
  rcases length_tiers l with h | ⟨h, h'⟩ | ⟨h, h'⟩ | h
  · rw [wireLength_nibble h, Nat.min_eq_right (by omega)]
    rfl
  · rw [wireLength_ext8 h h', Nat.min_eq_left h]
    rfl
  · rw [wireLength_ext16 h h', Nat.min_eq_left (by omega)]
    rfl
  · rw [wireLength_ext32 h, Nat.min_eq_left (by omega)]
    rfl

/-- It carries L, in a field wide enough and at least 15 where R118 asks for it. -/
theorem lengthValue_wireLength {l : Nat} (hl : l < 4294967296) : lengthValue (wireLength l) = some l := by
  rcases length_tiers l with h | ⟨h, h'⟩ | ⟨h, h'⟩ | h
  · rw [wireLength_nibble h, lengthValue, BitVec.toNat_ofNat, Nat.mod_eq_of_lt (by omega)]
  · rw [wireLength_ext8 h h', lengthValue, BitVec.toNat_ofNat, Nat.mod_eq_of_lt (by omega), Nat.add_sub_cancel' h]
  · rw [wireLength_ext16 h h', lengthValue, BitVec.toNat_ofNat, Nat.mod_eq_of_lt (by omega), if_neg (by omega)]
  · rw [wireLength_ext32 h, lengthValue, BitVec.toNat_ofNat, Nat.mod_eq_of_lt (by omega), if_neg (by omega)]

theorem encode_wireLength_ext16 {l : Nat} (h : 269 ≤ l) (h' : l ≤ 65535) :
    encode (wireLength l).instr = [0xFF#8, BitVec.ofNat 8 l, BitVec.ofNat 8 (l / 256)] := by
  rw [wireLength_ext16 h h', LenForm.instr, encode, BitVec.toNat_ofNat, Nat.mod_eq_of_lt (by omega)]
  rfl

theorem encode_wireLength_ext32 {l : Nat} (h : 65536 ≤ l) (hl : l < 4294967296) :
    encode (wireLength l).instr = [0xFF#8, 0#8, 0#8, BitVec.ofNat 8 l, BitVec.ofNat 8 (l / 256),
      BitVec.ofNat 8 (l / 65536), BitVec.ofNat 8 (l / 16777216)] := by
  rw [wireLength_ext32 h, LenForm.instr, encode, BitVec.toNat_ofNat, Nat.mod_eq_of_lt (by omega)]
  simp only [bytesLE, Nat.div_div_eq_div_mul]
  rfl

/-- Settles O6: the tiers of `wireLength` are R119's, and what the packer writes is a length form that the decoder reads
back and that carries L. -/
theorem wireLengthReadsBack : Obligations.WireLengthReadsBack := by
  intro l rest hl
  refine ⟨fun h => ?_, fun h h' => ?_, encode_wireLength_ext16, fun h => encode_wireLength_ext32 h hl, ?_,
    lengthValue_wireLength hl⟩
  · rw [wireLength_nibble h]
    rfl
  · rw [wireLength_ext8 h h']
    rfl
  · rw [← wireLength_symNibble]
    exact decodeLength_encode _ rest (wireLength_wellFormed hl)

/-! ### The code-length table (R113) -/

theorem tableOfBytes_getD {bs : List Byte} {i : Nat} (h : i < bs.length) :
    (tableOfBytes bs).getD (2 * i) 0 = (bs.getD i 0).extractLsb' 0 4 ∧
      (tableOfBytes bs).getD (2 * i + 1) 0 = (bs.getD i 0).extractLsb' 4 4 := by
  induction bs generalizing i with
  | nil => exact absurd h (Nat.not_lt_zero i)
  | cons t r ih =>
    cases i with
    | zero =>
      constructor <;> apply BitVec.eq_of_toNat_eq <;> simp [tableOfBytes, Nat.shiftRight_eq_div_pow]
    | succ i =>
      obtain ⟨heven, hodd⟩ := ih (Nat.lt_of_succ_lt_succ h)
      exact ⟨heven, hodd⟩

/-- A byte is its two nibbles. -/
theorem ofNat_nibbles (t : Byte) :
    BitVec.ofNat 8 ((BitVec.ofNat 4 t.toNat).toNat + 16 * (BitVec.ofNat 4 (t.toNat / 16)).toNat) = t := by
  have ht := t.isLt
  apply BitVec.eq_of_toNat_eq
  simp only [BitVec.toNat_ofNat]
  omega

theorem tableToBytes_tableOfBytes (bs : List Byte) : tableToBytes (tableOfBytes bs) = bs := by
  induction bs with
  | nil => rfl
  | cons t r ih => rw [tableOfBytes, tableToBytes, ih, ofNat_nibbles]

/-- Settles O7, by induction on the bytes. -/
theorem lengthTableNibbles : Obligations.LengthTableNibbles := by
  exact fun bs => ⟨tableOfBytes_length bs, fun _ => tableOfBytes_getD, tableToBytes_tableOfBytes bs⟩

end Sys2Proof.Machine
end

section
/-! SUPPORT. The length forms of a held match (R259 to R263), the group mask (R212), and PackMatch on a writer with room
(R162, R163, R214). -/

namespace Sys2Proof.Machine

/-! ### Length forms -/

/-- The state a held match's copy starts from: no length form is awaited and the residual is skipped (R259). -/
def copyStart (s : State) : State := skip s.mt.o.toNat { s with mt := { s.mt with await := false } }

theorem finishMatch_of_room {l : Nat} {s : State} (hroom : s.cur.outPos.toNat + (l + 3) ≤ s.cur.cap.toNat) :
    finishMatch l s = .ok () (copyRun s.mt.off.toNat (l + 3) (copyStart s)) := if_neg (Nat.not_lt.2 hroom)

/-- With the offset held and room, the rest of a match is the copy (R262, R263). -/
theorem finishMatch_copies {l : Nat} {s : State} (hoff : 1 ≤ s.mt.off.toNat) (hle : s.mt.off.toNat ≤ s.cur.outPos.toNat)
    (hroom : s.cur.outPos.toNat + (l + 3) ≤ s.cur.cap.toNat) :
    ∃ t, finishMatch l s = .ok () t ∧ CopiedMatch s s.mt.off.toNat (l + 3) s.mt.o.toNat t := by
  have hcap := s.cur.cap.isLt
  have hpos : s.cur.outPos.toNat + (l + 3) < 4294967296 := by omega
  have hpos33 : s.cur.outPos.toNat + (l + 3) < 8589934592 := lt_trans hpos (by decide)
  have heq := copyRun_eq s.mt.off.toNat (l + 3) (copyStart s) hpos33
  refine ⟨_, finishMatch_of_room hroom, ?_, ?_, fun i hi => ?_,
    fun a ha => copyRun_other s.mt.off.toNat (l + 3) (copyStart s) hpos33 ha⟩
  · rw [heq]; rfl
  · rw [heq]; rfl
  · have hrepeat := copyRun_repeats s.mt.off.toNat (l + 3) (copyStart s) hoff hle hpos hi
    rw [heq] at hrepeat ⊢
    exact hrepeat

/-- A length form whose L is legal and fits copies L + 3 bytes (R118, R259). -/
theorem lengthAction_copies {g : LenForm} {l : Nat} {s : State} (hg : lengthValue g = some l) (hoff : 1 ≤ s.mt.off.toNat)
    (hle : s.mt.off.toNat ≤ s.cur.outPos.toNat) (hroom : s.cur.outPos.toNat + (l + 3) ≤ s.cur.cap.toNat) :
    ∃ t, settle (lengthAction g s) = .next t ∧ CopiedMatch s s.mt.off.toNat (l + 3) s.mt.o.toNat t := by
  obtain ⟨t, ht, hcopy⟩ := finishMatch_copies hoff hle hroom
  exact ⟨t, by rw [lengthAction, hg]; exact congrArg settle ht, hcopy⟩

/-- A length field that is none is InvalidData (R118, R125). -/
theorem lengthAction_invalid {g : LenForm} (hg : lengthValue g = none) (s : State) :
    ∃ t, settle (lengthAction g s) = .next t ∧ FailedWith 2 s t := by
  rw [lengthAction, hg]
  exact ⟨_, rfl, failed_self .invalidData s⟩

/-- A legal length that passes the capacity is InsufficientBuffer (R262). -/
theorem lengthAction_full {g : LenForm} {l : Nat} {s : State} (hg : lengthValue g = some l)
    (hfull : s.cur.cap.toNat < s.cur.outPos.toNat + (l + 3)) :
    ∃ t, settle (lengthAction g s) = .next t ∧ FailedWith 1 s t := by
  rw [lengthAction, hg]
  exact ⟨_, congrArg settle (if_pos hfull), failed_self .insufficientBuffer s⟩

theorem lengthValue_ext16 {w : Half} (h : 15 ≤ w.toNat) : lengthValue (.ext16 w) = some w.toNat := if_neg (Nat.not_lt.2 h)

theorem lengthValue_ext32 {x : Word} (h : 15 ≤ x.toNat) : lengthValue (.ext32 x) = some x.toNat := if_neg (Nat.not_lt.2 h)

/-- Settles O37: each form carries its L, and a legal L with room is copied. -/
theorem lengthFormsFinishTheMatch : Obligations.LengthFormsFinishTheMatch := by
  exact fun s hoff hle => ⟨fun n => lengthAction_copies (g := .nibble n) rfl hoff hle,
    fun b => lengthAction_copies (g := .ext8 b) rfl hoff hle,
    fun w hw => lengthAction_copies (lengthValue_ext16 hw) hoff hle,
    fun x hx => lengthAction_copies (lengthValue_ext32 hx) hoff hle⟩

/-- Settles O38: a wide field below 15 is no length, and a legal length is compared with the capacity in full. -/
theorem badLengthsAreRejected : Obligations.BadLengthsAreRejected := by
  exact fun s => ⟨fun w hw => lengthAction_invalid (g := .ext16 w) (if_pos hw) s,
    fun x hx => lengthAction_invalid (g := .ext32 x) (if_pos hx) s,
    fun n => lengthAction_full (g := .nibble n) rfl, fun b => lengthAction_full (g := .ext8 b) rfl,
    fun w hw => lengthAction_full (lengthValue_ext16 hw), fun x hx => lengthAction_full (lengthValue_ext32 hx)⟩

/-! ### Packing -/

/-- Settles O48: the mask and its first bit are the packer's two registers. -/
theorem groupMaskIsHeld : Obligations.GroupMaskIsHeld := by
  exact fun _ _ => rfl

/-- WriteBits with room (R162): the pending bits, or the flushed word in the first slot. -/
theorem writeBits_wrote (v : Nat) {n : Nat} {s : State}
    (hroom : s.wr.rawpos.toNat + bitsNeed s.wr.nacc.toNat n ≤ s.cur.cap.toNat) :
    ∃ t, writeBits v n s = .ok () t ∧ WroteBits s v n t := by
  unfold writeBits WroteBits
  rcases bitsNeed_cases s.wr.nacc.toNat n with ⟨-, hfit⟩ | ⟨hneed, hflush⟩
  · rw [if_pos hfit]
    exact ⟨_, rfl, by rw [if_pos hfit]⟩
  · rw [hneed] at hroom
    rw [if_neg (Nat.not_le.2 hflush), if_neg (Nat.not_lt.2 hroom)]
    refine ⟨_, rfl, ?_⟩
    rw [if_neg (Nat.not_le.2 hflush)]
    have hat := fun j (hj : j < 2) => State.readByte_writeOut_at s (off := s.wr.slot0.toNat)
      (bs := bytesLE 2 (flushedWord s v n)) (j := j) hj (by rw [length_bytesLE]; decide)
    refine ⟨rfl, hat 0 (by decide), hat 1 (by decide), fun a h0 h1 => ?_⟩
    refine State.readByte_writeOut_other s fun j hj => ?_
    match j, hj with
    | 0, _ => exact h0
    | 1, _ => exact h1

/-- WriteBits with room leaves the cursors alone, and moves the raw position and the pending bits as counted (R162). -/
theorem WroteBits.frame {s t : State} {v n : Nat} (h : WroteBits s v n t) (hn : n ≤ 15)
    (hroom : s.wr.rawpos.toNat + bitsNeed s.wr.nacc.toNat n ≤ s.cur.cap.toNat) :
    t.cur = s.cur ∧ t.wr.rawpos.toNat = s.wr.rawpos.toNat + bitsNeed s.wr.nacc.toNat n ∧
      t.wr.nacc.toNat = naccAfter s.wr.nacc.toNat n := by
  have hcap := s.cur.cap.isLt
  unfold WroteBits at h
  unfold bitsNeed naccAfter at *
  split at h
  case isTrue hfit =>
    rw [if_pos hfit, if_pos hfit, h]
    exact ⟨rfl, rfl, by simp; omega⟩
  case isFalse hflush =>
    obtain ⟨ht, -⟩ := h
    rw [if_neg hflush] at hroom ⊢
    rw [if_neg hflush, ht]
    exact ⟨rfl, by simp; omega, by simp; omega⟩

/-- The extension bytes with room (R119, R163, R214). -/
theorem writeExtension_wrote {l : Nat} {s : State} (hroom : s.wr.rawpos.toNat + (wireLength l).size ≤ s.cur.cap.toNat) :
    ∃ t, writeExtension l s = .ok () t ∧ WroteExtension s l t ∧ t.cur = s.cur ∧ t.wr.nacc = s.wr.nacc ∧
      t.wr.rawpos.toNat = s.wr.rawpos.toNat + (wireLength l).size := by
  have hcap := s.cur.cap.isLt
  have hlen := wireLength_size l
  have hsmall : (encode (wireLength l).instr).length ≤ memBound := by unfold memBound; omega
  refine ⟨_, writeExtension_ok l s hroom,
    ⟨rfl, fun j hj => ?_, fun a ha => State.readByte_writeOut_other s ha⟩, rfl, rfl, ?_⟩
  · rw [List.getD_eq_getElem _ _ hj]
    exact State.readByte_writeOut_at s hj hsmall
  · rw [rawAll_rawpos (by omega), hlen]

/-- The residual with room (R117, R214). -/
theorem writeResidual_wrote {off : Nat} {s : State}
    (hroom : s.wr.rawpos.toNat + bitsNeed s.wr.nacc.toNat (highbit off) ≤ s.cur.cap.toNat) :
    ∃ t, writeResidual off s = .ok () t ∧
      if highbit off = 0 then t = s else WroteBits s (off - 2 ^ highbit off) (highbit off) t := by
  unfold writeResidual
  split
  · exact ⟨s, rfl, rfl⟩
  · exact writeBits_wrote (residualOf off) hroom

/-- PackMatch with a codeword and room writes its three parts in order (R214). -/
theorem packMatch_packed {off l : Nat} {s : State} (hcode : lenOf s.len (symOfMatch off l) ≠ 0)
    (hroom : s.wr.rawpos.toNat + packNeed s off l ≤ s.cur.cap.toNat) :
    ∃ t, packMatch off l s = .ok () t ∧ PackedMatch s off l t := by
  simp only [packNeed] at hroom
  have hroom1 : s.wr.rawpos.toNat + bitsNeed s.wr.nacc.toNat (lenOf s.len (symOfMatch off l)) ≤ s.cur.cap.toNat := by omega
  obtain ⟨s1, he1, hw1⟩ := writeBits_wrote (codeOf s.len (symOfMatch off l)) hroom1
  obtain ⟨hcur1, hpos1, hnacc1⟩ := hw1.frame (lenOf_le _ _) hroom1
  obtain ⟨s2, he2, hw2, hcur2, hnacc2, hpos2⟩ := writeExtension_wrote (l := l) (s := s1) (by rw [hpos1, hcur1]; omega)
  obtain ⟨t, he3, hw3⟩ := writeResidual_wrote (off := off) (s := s2)
    (by rw [hpos2, hnacc2, hnacc1, hpos1, hcur2, hcur1]; omega)
  refine ⟨t, ?_, s1, s2, hw1, hw2, hw3⟩
  rw [packMatch, encodeSym, if_neg hcode, he1, Res.andThen_ok, he2, Res.andThen_ok, he3]

/-- A match token or the EOS token with a codeword and room packs its match (R214). -/
theorem exec_matchFields_packed {i : Instr} {off l : Nat} {s : State} (hi : matchFields i = some (off, l))
    (hcode : lenOf s.len (symOfMatch off l) ≠ 0) (hroom : s.wr.rawpos.toNat + packNeed s off l ≤ s.cur.cap.toNat) :
    ∃ t, exec i s = .next t ∧ PackedMatch s off l t := by
  obtain ⟨t, ht, hpacked⟩ := packMatch_packed hcode hroom
  exact ⟨t, by rw [(matchFields_exec hi).1, ht]; rfl, hpacked⟩

/-- Settles O50: each token runs PackMatch of its fields, those of the EOS token being 0 and 0, which form symbol 0x100. -/
theorem matchTokensPackSymbolExtensionResidual : Obligations.MatchTokensPackSymbolExtensionResidual := by
  exact fun s => ⟨fun off l => exec_matchFields_packed (i := .itokMatchL8 off l) rfl,
    fun off w => exec_matchFields_packed (i := .itokMatchL16 off w) rfl,
    fun off x => exec_matchFields_packed (i := .itokMatchL32 off x) rfl,
    exec_matchFields_packed (i := .itokEos) rfl⟩

end Sys2Proof.Machine
end

section
/-! SUPPORT. The canonical code (R180, R181) and Decode() (R183): the codeword of each symbol, that no codeword heads
another symbol's, and what the loop of Decode() answers over the lengths it tries. -/

namespace Sys2Proof.Machine

/-! ### Codewords -/

theorem firstCode_succ (len : List (BitVec 4)) {b : Nat} (h : 1 ≤ b) :
    firstCode len (b + 1) = (firstCode len b + lengthCount len b) * 2 := if_neg (by omega)

/-- The symbols before one of length `b` leave it a codeword of that length (R181). -/
theorem countP_take_lt_lengthCount {len : List (BitVec 4)} {s : Nat} (h : lenOf len s ≠ 0) :
    (len.take s).countP (fun l => l.toNat == lenOf len s) < lengthCount len (lenOf len s) := by
  have hlt := countP_take_lt (lenOf_lt_length h) rfl h
  rwa [List.take_length] at hlt

/-- The codeword R181 assigns: the first of its length plus the number of smaller symbols of that length. A valid table
keeps it below 2^15, so its 15-bit register holds all of it. -/
theorem codeOf_eq {len : List (BitVec 4)} (hv : tableValid len = true) {s : Nat} (h : lenOf len s ≠ 0) :
    codeOf len s = firstCode len (lenOf len s) + (len.take s).countP (fun l => l.toNat == lenOf len s) := by
  have hle := lenOf_le len s
  have hfirst : ((List.range 16).map (firstCode len)).getD (lenOf len s) 0 = firstCode len (lenOf len s) := by
    simp [List.getD_eq_getElem?_getD, show lenOf len s < 16 by omega]
  have hcount := countP_take_lt_lengthCount h
  have hbound := firstCode_bound hv (b := lenOf len s) (by omega) hle
  have hpow : 2 ^ lenOf len s ≤ 2 ^ 15 := Nat.pow_le_pow_right (by decide) hle
  rw [codeOf, codeTable, assignCodes_getD _ (by simp) _ _ h, hfirst, BitVec.toNat_ofNat, Nat.mod_eq_of_lt (by omega)]

theorem firstCode_le_codeOf {len : List (BitVec 4)} (hv : tableValid len = true) {s : Nat} (h : lenOf len s ≠ 0) :
    firstCode len (lenOf len s) ≤ codeOf len s := by
  rw [codeOf_eq hv h]; exact Nat.le_add_right _ _

theorem codeOf_lt_end {len : List (BitVec 4)} (hv : tableValid len = true) {s : Nat} (h : lenOf len s ≠ 0) :
    codeOf len s < firstCode len (lenOf len s) + lengthCount len (lenOf len s) := by
  rw [codeOf_eq hv h]; exact Nat.add_lt_add_left (countP_take_lt_lengthCount h) _

/-- Within one length a smaller symbol has the smaller codeword (R181). -/
theorem codeOf_lt_of_lt {len : List (BitVec 4)} (hv : tableValid len = true) {r s : Nat} (hr : lenOf len r ≠ 0)
    (he : lenOf len r = lenOf len s) (hlt : r < s) : codeOf len r < codeOf len s := by
  rw [codeOf_eq hv hr, codeOf_eq hv (he ▸ hr), he]
  exact Nat.add_lt_add_left (countP_take_lt hlt he (he ▸ hr)) _

/-- No codeword heads another symbol's (R180, R181): of one length two codewords differ, and those of a longer length start
past every shorter one, extended. -/
theorem codeOf_heads_no_other {len : List (BitVec 4)} (hv : tableValid len = true) {s r : Nat} (hs : lenOf len s ≠ 0)
    (hr : lenOf len r ≠ 0) (hne : r ≠ s) (hle : lenOf len s ≤ lenOf len r) :
    codeOf len r / 2 ^ (lenOf len r - lenOf len s) ≠ codeOf len s := by
  rcases Nat.eq_or_lt_of_le hle with he | hlt
  · rw [he, Nat.sub_self, pow_zero, Nat.div_one]
    rcases Nat.lt_or_gt_of_ne hne with h | h
    · exact (codeOf_lt_of_lt hv hr he.symm h).ne
    · exact (codeOf_lt_of_lt hv hs he h).ne'
  · obtain ⟨d, hd⟩ : ∃ d, lenOf len r = lenOf len s + (d + 1) := ⟨lenOf len r - lenOf len s - 1, by omega⟩
    have hpast := firstCode_past len d (Nat.one_le_iff_ne_zero.2 hs)
    rw [← hd] at hpast
    have hdiv : firstCode len (lenOf len s) + lengthCount len (lenOf len s) ≤ codeOf len r / 2 ^ (d + 1) :=
      (Nat.le_div_iff_mul_le (by positivity)).2 (hpast.trans (firstCode_le_codeOf hv hr))
    rw [hd, Nat.add_sub_cancel_left]
    exact ((codeOf_lt_end hv hs).trans_le hdiv).ne'

/-- Settles O8: a codeword lies below the end of its length's range, and no codeword heads another symbol's. -/
theorem canonicalCodeIsPrefixFree : Obligations.CanonicalCodeIsPrefixFree := by
  intro len hv s hs
  have hbound := firstCode_bound hv (Nat.one_le_iff_ne_zero.2 hs) (lenOf_le len s)
  exact ⟨(codeOf_lt_end hv hs).trans_le hbound, fun r hne hr hle => codeOf_heads_no_other hv hs hr hne hle⟩

/-- Settles O9, by the recurrence of the first codewords and what the walk over the symbols assigns. -/
theorem codewordsAscendWithinALength : Obligations.CodewordsAscendWithinALength := by
  exact fun len hv => ⟨rfl, fun _ hb => firstCode_succ len hb, fun _ hs => codeOf_eq hv hs⟩

/-! ### Decode() -/

/-- Symbol `sym` has a codeword, which is buffered whole and heads the bit buffer (R183). -/
def Heads (s : State) (sym : Nat) : Prop :=
  1 ≤ lenOf s.len sym ∧ lenOf s.len sym ≤ s.rd.nbits.toNat ∧ peek (lenOf s.len sym) s = codeOf s.len sym

/-- The first bits of the buffer are the first bits of more of them (R172). -/
theorem peek_div (s : State) {a b : Nat} (ha : 1 ≤ a) (hab : a ≤ b) (hb : b ≤ 32) :
    peek b s / 2 ^ (b - a) = peek a s := by
  rw [peek, peek, if_neg (by omega), if_neg (by omega), ← Nat.shiftRight_eq_div_pow, ← Nat.shiftRight_add]
  congr 1; omega

/-- With a valid table at most one codeword heads the buffer (R180, R183). -/
theorem Heads.unique {s : State} {x y : Nat} (hv : tableValid s.len = true) (hx : Heads s x) (hy : Heads s y) : x = y := by
  wlog hle : lenOf s.len x ≤ lenOf s.len y generalizing x y
  · exact (this hy hx (Nat.le_of_not_le hle)).symm
  obtain ⟨hx1, -, hxcode⟩ := hx
  obtain ⟨hy1, -, hycode⟩ := hy
  by_contra hne
  apply codeOf_heads_no_other hv (Nat.one_le_iff_ne_zero.1 hx1) (Nat.one_le_iff_ne_zero.1 hy1) (Ne.symm hne) hle
  rw [← hycode, ← hxcode]
  exact peek_div s hx1 hle ((lenOf_le _ _).trans (by decide))

/-- What the loop of Decode() answers is a symbol whose codeword heads the buffer, and that codeword is skipped (R183). -/
theorem decodeFrom_ok {s t : State} {sym fuel : Nat} (hf : fuel ≤ 15) (h : decodeFrom s fuel = .ok sym t) :
    Heads s sym ∧ t = skip (lenOf s.len sym) s := by
  induction fuel with
  | zero => cases h
  | succ fuel ih =>
    simp only [decodeFrom] at h
    split at h
    · cases h
    · split at h
      next hbits _ hfound =>
        cases h
        obtain ⟨hlen, hcode⟩ := findCode_some hfound
        rw [Heads, hlen]
        exact ⟨⟨by omega, by omega, hcode.symm⟩, rfl⟩
      next => exact ih (by omega) h

/-- Where the loop of Decode() fails, it is with InvalidData, nothing is skipped, and no codeword of the lengths it had left
to try heads the buffer (R183). -/
theorem decodeFrom_raise {s t : State} {e : Err} {fuel : Nat} (h : decodeFrom s fuel = .raise e t) :
    e = .invalidData ∧ t = s ∧ ∀ sym, 16 - fuel ≤ lenOf s.len sym → ¬Heads s sym := by
  induction fuel with
  | zero =>
    cases h
    exact ⟨rfl, rfl, fun sym hlen _ => by have := lenOf_le s.len sym; omega⟩
  | succ fuel ih =>
    simp only [decodeFrom] at h
    split at h
    next hbits =>
      cases h
      exact ⟨rfl, rfl, fun sym hlen ⟨_, hbuf, _⟩ => by omega⟩
    next hbits =>
      split at h
      next => cases h
      next hnone =>
        obtain ⟨he, ht, hrest⟩ := ih h
        refine ⟨he, ht, fun sym hlen hhead => ?_⟩
        have ⟨hpos, _, hcode⟩ := hhead
        by_cases hb : lenOf s.len sym = 15 - fuel
        · exact findCode_none hnone (by omega) hb (hb ▸ hcode.symm)
        · exact hrest sym (by omega) hhead

/-- Settles O10: the loop answers a symbol whose codeword heads the buffer or finds none that does, and with a valid table
no other symbol's codeword heads it. -/
theorem decodeFindsExactlyTheCodeword : Obligations.DecodeFindsExactlyTheCodeword := by
  intro s
  refine ⟨fun sym hv hne hbuf hcode => ?_, fun sym t h => ?_, fun e t h => ?_⟩
  · have hsym : Heads s sym := ⟨Nat.one_le_iff_ne_zero.2 hne, hbuf, hcode⟩
    cases h : decodeNext s with
    | ok found t =>
      obtain ⟨hfound, rfl⟩ := decodeFrom_ok le_rfl h
      rw [hfound.unique hv hsym]
    | raise e t =>
      obtain ⟨-, -, hnone⟩ := decodeFrom_raise h
      exact absurd hsym (hnone sym hsym.1)
  · obtain ⟨⟨hpos, hbuf, hcode⟩, ht⟩ := decodeFrom_ok le_rfl h
    exact ⟨hpos, hbuf, hcode, ht⟩
  · obtain ⟨he, ht, hnone⟩ := decodeFrom_raise h
    exact ⟨he, ht, fun sym hpos hbuf hcode => hnone sym hpos ⟨hpos, hbuf, hcode⟩⟩

end Sys2Proof.Machine
end

section
/-! SUPPORT. The bit writer and the bit reader (R162 to R164, R173): where each operation's bytes go, when it raises, and a
literal token (R213), which is one codeword. -/

namespace Sys2Proof.Machine

/-! ### WriteBits (R162) -/

theorem writeBits_full (v : Nat) {n : Nat} {s : State} (hflush : 16 < s.wr.nacc.toNat + n)
    (hfull : s.cur.cap.toNat < s.wr.rawpos.toNat + 2) : writeBits v n s = .raise .insufficientBuffer s := by
  rw [writeBits, if_neg (Nat.not_le.2 hflush), if_pos hfull]

/-- WriteBits without a flush tests no capacity, and with one it needs room for a word. -/
theorem writeBits_room (v : Nat) {n : Nat} {s : State}
    (hroom : s.wr.nacc.toNat + n ≤ 16 ∨ s.wr.rawpos.toNat + 2 ≤ s.cur.cap.toNat) :
    ∃ t, writeBits v n s = .ok () t ∧ WroteBits s v n t := by
  by_cases hfit : s.wr.nacc.toNat + n ≤ 16
  · exact ⟨_, if_pos hfit, by rw [WroteBits, if_pos hfit]⟩
  · have hneed : bitsNeed s.wr.nacc.toNat n = 2 := if_neg hfit
    exact writeBits_wrote v (by rw [hneed]; exact hroom.resolve_left hfit)

/-- Settles O11: the flush is due beyond the 16th bit, and then the capacity is tested first. -/
theorem writeBitsFlushesBeyondSixteen : Obligations.WriteBitsFlushesBeyondSixteen := by
  exact fun v _ _ => ⟨writeBits_full v, writeBits_room v⟩

/-! ### WriteRaw (R163) -/

/-- Byte `j` of the little-endian bytes of `v` written at output offset `off`. -/
theorem outByte_writeOut_bytesLE (s : State) {off m v j : Nat} (hj : j < m) (hm : m ≤ memBound) :
    (s.writeOut off (bytesLE m v)).outByte (off + j) = BitVec.ofNat 8 (v / 256 ^ j) := by
  have hlen : j < (bytesLE m v).length := by rwa [length_bytesLE]
  rw [← bytesLE_getElem m v j hj hlen]
  exact State.readByte_writeOut_at s hlen (by rwa [length_bytesLE])

/-- Settles O12: the capacity is tested for all `m` bytes, which then are one run at the raw position. -/
theorem writeRawPlacesBytesAtRawpos : Obligations.WriteRawPlacesBytesAtRawpos := by
  intro v m s hm
  have hbound : m ≤ memBound := by unfold memBound; omega
  refine ⟨fun hfull => if_pos hfull, fun hroom => ⟨_, if_neg (Nat.not_lt.2 hroom), rfl, fun j hj => ?_, fun a ha => ?_⟩⟩
  · exact outByte_writeOut_bytesLE s hj hbound
  · exact State.readByte_writeOut_other s (by rwa [length_bytesLE])

/-! ### Finish (R164) -/

theorem readByte_writeOut_word_other (s : State) {off v : Nat} {a : Word} (h0 : a ≠ s.outAddr off)
    (h1 : a ≠ s.outAddr (off + 1)) : (s.writeOut off (bytesLE 2 v)).readByte a = s.readByte a := by
  refine State.readByte_writeOut_other s fun j hj => ?_
  match j, hj with
  | 0, _ => exact h0
  | 1, _ => exact h1

/-- A word written at one output offset leaves the byte at another. -/
theorem outByte_writeOut_word_other (s : State) {off v i : Nat} (hi : i < 4294967296) (hoff : off + 1 < 4294967296)
    (h0 : i ≠ off) (h1 : i ≠ off + 1) : (s.writeOut off (bytesLE 2 v)).outByte i = s.outByte i :=
  readByte_writeOut_word_other s (fun h => h0 (outAddr_inj s hi (by omega) h)) (fun h => h1 (outAddr_inj s hi hoff h))

theorem ofNat_div_mod_word (v : Nat) {j : Nat} (hj : j < 2) :
    BitVec.ofNat 8 (v % 65536 / 256 ^ j) = BitVec.ofNat 8 (v / 256 ^ j) := by
  apply BitVec.eq_of_toNat_eq
  rw [BitVec.toNat_ofNat, BitVec.toNat_ofNat]
  interval_cases j <;> omega

/-- Finish leaves the pending word in slot0: the zero word in slot1 lies past it. -/
theorem finishWriter_slot0 {s : State} (hw : WriterInv s) {j : Nat} (hj : j < 2) :
    (finishWriter s).outByte (s.wr.slot0.toNat + j) =
      BitVec.ofNat 8 (s.wr.acc.toNat <<< (16 - s.wr.nacc.toNat) / 256 ^ j) := by
  obtain ⟨-, hslots, hraw, hcap⟩ := hw
  have hlt := s.cur.cap.isLt
  rw [finishWriter, outByte_writeOut_word_other _ (by omega) (by omega) (by omega) (by omega),
    outByte_writeOut_bytesLE s hj (by decide), ofNat_div_mod_word _ hj]

theorem finishWriter_slot1 (s : State) {j : Nat} (hj : j < 2) : (finishWriter s).outByte (s.wr.slot1.toNat + j) = 0 := by
  rw [finishWriter, outByte_writeOut_bytesLE _ hj (by decide), Nat.zero_div]; rfl

/-- Settles O14: the two slots are words apart, so each keeps what Finish writes to it. -/
theorem finishFillsBothSlots : Obligations.FinishFillsBothSlots := by
  intro s hw
  refine ⟨rfl, ?_, finishWriter_slot0 hw (j := 1) (by decide), finishWriter_slot1 s (j := 0) (by decide),
    finishWriter_slot1 s (j := 1) (by decide), fun a h00 h01 h10 h11 => ?_⟩
  · rw [← Nat.div_one (_ <<< _)]
    exact finishWriter_slot0 hw (j := 0) (by decide)
  · rw [finishWriter, readByte_writeOut_word_other (s.writeOut _ _) h10 h11, readByte_writeOut_word_other s h00 h01]

/-! ### Skip (R173) -/

theorem inWord_eq (s : State) (q : Nat) : inWord s q = (s.inByte q).toNat + 256 * (s.inByte (q + 1)).toNat := by
  simp [inWord, State.inBytes, List.range_succ, ofBytesLE]

/-- Settles O13: the two cases of the refill's test, the word fetched being two input bytes. -/
theorem skipRefillsBelowSixteen : Obligations.SkipRefillsBelowSixteen := by
  refine fun n s _ _ => ⟨fun hfew hbytes => ?_, fun hkeep => ?_⟩
  · rw [skip, skipped, if_pos ⟨hfew, hbytes⟩, inWord_eq]
  · rw [skip, skipped, if_neg (by omega)]

/-! ### A literal token (R182, R213) -/

theorem encodeSym_none {sym : Nat} {s : State} (h : lenOf s.len sym = 0) :
    encodeSym sym s = .raise .invalidState s := if_pos h

theorem encodeSym_code {sym : Nat} {s : State} (h : lenOf s.len sym ≠ 0) :
    encodeSym sym s = writeBits (codeOf s.len sym) (lenOf s.len sym) s := if_neg h

theorem exec_itokLit (b : Byte) (s : State) : exec (.itokLit b) s = settle (encodeSym b.toNat s) := rfl

/-- Settles O49: a literal token is Encode of its byte, which is WriteBits of the codeword where there is one. -/
theorem literalTokenPacksItsCodeword : Obligations.LiteralTokenPacksItsCodeword := by
  intro b s
  rw [exec_itokLit]
  refine ⟨fun hnone => ?_, fun hcode hroom => ?_, fun hcode hflush hfull => ?_⟩
  · rw [encodeSym_none hnone]
    exact ⟨_, rfl, failed_self .invalidState s⟩
  · obtain ⟨t, ht, hwrote⟩ := writeBits_room (codeOf s.len b.toNat) hroom
    exact ⟨t, by rw [encodeSym_code hcode, ht]; rfl, hwrote⟩
  · rw [encodeSym_code hcode, writeBits_full _ hflush hfull]
    exact ⟨_, rfl, failed_self .insufficientBuffer s⟩

end Sys2Proof.Machine
end

section
/-! SUPPORT. How a token fails (R182, R212, R214, R216): what each part of PackMatch spends of the output where it succeeds,
so that a token that needs more than there is raises, and a token that does not decode. -/

namespace Sys2Proof.Machine

/-! ### What packing spends -/

/-- A writer's operation that raises nothing but InsufficientBuffer, and where it succeeds moves the raw position by `k`
bytes and leaves `a` pending bits (R162, R163). -/
def Spends (s : State) (k a : Nat) : Res Unit → Prop
  | .ok _ t => t.wr.rawpos.toNat = s.wr.rawpos.toNat + k ∧ t.wr.nacc.toNat = a
  | .raise e _ => e = .insufficientBuffer

theorem Spends.andThen {s : State} {k a k' a' : Nat} {r : Res Unit} {f : Unit → State → Res Unit} (h : Spends s k a r)
    (hf : ∀ t, t.wr.nacc.toNat = a → Spends t k' a' (f () t)) : Spends s (k + k') a' (r.andThen f) := by
  cases r with
  | raise e u => exact h
  | ok _ t =>
    obtain ⟨hpos, hnacc⟩ := h
    have ht := hf t hnacc
    rw [Res.andThen_ok]
    cases hres : f () t with
    | raise e u => rw [hres] at ht; exact ht
    | ok _ u =>
      rw [hres] at ht
      obtain ⟨hpos', hnacc'⟩ := ht
      exact ⟨by rw [hpos', hpos, Nat.add_assoc], hnacc'⟩

theorem Spends.nothing {s : State} {a : Nat} (h : s.wr.nacc.toNat = a) : Spends s 0 a (.ok () s) := ⟨rfl, h⟩

theorem writeRaw_spends (v m : Nat) {s : State} {a : Nat} (h : s.wr.nacc.toNat = a) : Spends s m a (writeRaw v m s) := by
  have hcap := s.cur.cap.isLt
  rw [writeRaw_eq]
  split
  · rfl
  · refine ⟨?_, h⟩
    rw [rawAll_rawpos (by rw [length_bytesLE]; omega), length_bytesLE]

theorem writeBits_spends (v : Nat) {n : Nat} (hn : n ≤ 15) {s : State} {a : Nat} (h : s.wr.nacc.toNat = a) :
    Spends s (bitsNeed a n) (naccAfter a n) (writeBits v n s) := by
  have hcap := s.cur.cap.isLt
  subst h
  unfold writeBits bitsNeed naccAfter
  split
  · exact ⟨rfl, by simp only [BitVec.toNat_ofNat]; omega⟩
  · split
    · rfl
    · constructor <;> simp only [BitVec.toNat_ofNat] <;> omega

theorem naccAfter_le {a n : Nat} (hn : n ≤ 15) : naccAfter a n ≤ 16 := by
  unfold naccAfter; split <;> omega

theorem encodeSym_spends {sym : Nat} {s : State} (hcode : lenOf s.len sym ≠ 0) {a : Nat} (h : s.wr.nacc.toNat = a) :
    Spends s (bitsNeed a (lenOf s.len sym)) (naccAfter a (lenOf s.len sym)) (encodeSym sym s) := by
  rw [encodeSym_code hcode]
  exact writeBits_spends _ (lenOf_le _ _) h

theorem writeExtension_spends (l : Nat) {s : State} {a : Nat} (h : s.wr.nacc.toNat = a) :
    Spends s (wireLength l).size a (writeExtension l s) := by
  unfold writeExtension
  cases wireLength l with
  | nibble n => exact Spends.nothing h
  | ext8 b => exact writeRaw_spends _ 1 h
  | ext16 w => exact (writeRaw_spends 255 1 h).andThen (k' := 2) fun _ ht => writeRaw_spends _ 2 ht
  | ext32 x =>
    exact (writeRaw_spends 255 1 h).andThen (k' := 2 + 4) fun _ ht =>
      (writeRaw_spends 0 2 ht).andThen fun _ hu => writeRaw_spends _ 4 hu

theorem writeResidual_spends {off : Nat} (ho : off ≤ 65535) {s : State} {a : Nat} (ha : a ≤ 16) (h : s.wr.nacc.toNat = a) :
    Spends s (bitsNeed a (highbit off)) (naccAfter a (highbit off)) (writeResidual off s) := by
  unfold writeResidual
  split
  next h0 =>
    have hneed : bitsNeed a 0 = 0 := if_pos ha
    have hafter : naccAfter a 0 = a := if_pos ha
    rw [h0, hneed, hafter]
    exact Spends.nothing h
  next => exact writeBits_spends _ (highbit_le ho) h

/-- PackMatch of a symbol with a codeword spends what it needs (R214), or raises InsufficientBuffer. -/
theorem packMatch_spends {off : Nat} (l : Nat) {s : State} (ho : off ≤ 65535) (hcode : lenOf s.len (symOfMatch off l) ≠ 0) :
    Spends s (packNeed s off l) (naccAfter (naccAfter s.wr.nacc.toNat (lenOf s.len (symOfMatch off l))) (highbit off))
      (packMatch off l s) := by
  rw [packMatch, packNeed, Nat.add_assoc]
  exact (encodeSym_spends hcode rfl).andThen fun _ ht => (writeExtension_spends l ht).andThen fun _ hu =>
    writeResidual_spends ho (naccAfter_le (lenOf_le _ _)) hu

/-! ### Failing tokens -/

/-- A match past the capacity raises InsufficientBuffer: had it succeeded, the raw position would lie past the capacity. -/
theorem packMatch_full {off l : Nat} {s : State} (ho : off ≤ 65535) (hcode : lenOf s.len (symOfMatch off l) ≠ 0)
    (hfull : s.cur.cap.toNat < s.wr.rawpos.toNat + packNeed s off l) (hw : WriterInv s) (hb : Latched s) :
    ∃ u, packMatch off l s = .raise .insufficientBuffer u ∧ PackKeeps s u := by
  have hspends := packMatch_spends l ho hcode
  have hkeeps := packMatch_keeps l ho hw hb
  cases hres : packMatch off l s with
  | raise e u =>
    rw [hres] at hspends hkeeps
    exact ⟨u, by rw [show e = .insufficientBuffer from hspends], hkeeps⟩
  | ok _ t =>
    rw [hres] at hspends hkeeps
    obtain ⟨hpos, -⟩ := hspends
    obtain ⟨heq, ⟨-, -, -, hcap⟩, -⟩ := hkeeps
    have hcur : t.cur = s.cur := by rw [show t = _ from heq]
    rw [Res.state_ok, hcur, hpos] at hcap
    omega

theorem packMatch_none {off l : Nat} {s : State} (h : lenOf s.len (symOfMatch off l) = 0) :
    packMatch off l s = .raise .invalidState s := by
  rw [packMatch, encodeSym_none h, Res.andThen_raise]

theorem PackKeeps.failed {s u : State} (h : PackKeeps s u) (e : Err) : FailedWith e.code s (completeErr e u) := by
  obtain ⟨heq, -, hbytes⟩ := h
  apply failed_of (h7 := hbytes) <;> rw [heq]

theorem perform_fetchToken_error {f : Format} {bs : List Byte} {e : DecodeError} (bits : Nat) (s : State)
    (h : decode f bs = .error e) : perform (fetchToken f bits bs s) = .next (completeErr .invalidState s) := by
  rw [fetchToken, h, perform_act]

/-- Inside the intermediate stream the packer reads a mask, a match token or a literal, as its registers say (R212). -/
theorem fetchPack_token {s : State} (h : s.pk.ppos.toNat < s.tk.scrLen.toNat) :
    ∃ bits, fetchPack s = fetchToken (if 32 ≤ s.pk.pbit.toNat then .group
      else if s.pk.pmask.getLsbD s.pk.pbit.toNat then .mat else .lit) bits (tokenBytes s) s := by
  rw [fetchPack, if_neg (Nat.not_le.2 h)]
  repeat' split
  all_goals exact ⟨_, rfl⟩

/-- Settles O51: PackMatch raises by name, and what does not decode completes with InvalidState. -/
theorem tokensFailByName : Obligations.TokensFailByName := by
  refine ⟨fun i off l s hi => ?_, fun o s f e hphase hpos hf herr => ?_⟩
  · obtain ⟨hexec, ho⟩ := matchFields_exec (s := s) hi
    rw [hexec]
    refine ⟨fun hnone => ?_, fun hcode hfull hw hb => ?_⟩
    · rw [packMatch_none hnone]
      exact ⟨_, rfl, failed_self .invalidState s⟩
    · obtain ⟨u, hu, hkeeps⟩ := packMatch_full ho hcode hfull hw hb
      rw [hu]
      exact ⟨_, rfl, hkeeps.failed .insufficientBuffer⟩
  · obtain ⟨bits, htoken⟩ := fetchPack_token hpos
    rw [engineStep_cPack o hphase, htoken, ← hf, perform_fetchToken_error bits s herr]
    exact ⟨_, rfl, failed_self .invalidState s⟩

end Sys2Proof.Machine
end

section
/-! SUPPORT. The tokenizer's tokens (R203 to R206): the mask slot of a group, and the bytes and the count of each token. -/

namespace Sys2Proof.Machine

/-- A number that fits its register is held whole (R25). -/
theorem toNat_ofNat_of_lt {w n : Nat} (h : n < 2 ^ w) : (BitVec.ofNat w n).toNat = n := by
  rw [BitVec.toNat_ofNat, Nat.mod_eq_of_lt h]

/-! ### Scratch bytes after a run of them is written -/

theorem State.scrByte_of_putList_at {s t : State} {i j : Nat} {bs : List Byte} (h : t.scr = s.scr.putList i bs)
    (hj : j < bs.length) : t.scrByte (i + j) = bs[j] := by
  rw [State.scrByte, h, Memory.find_putList_at hj, Option.getD_some]

theorem State.scrByte_of_putList_other {s t : State} {i x : Nat} {bs : List Byte} (h : t.scr = s.scr.putList i bs)
    (hx : x < i ∨ i + bs.length ≤ x) : t.scrByte x = s.scrByte x := by
  rw [State.scrByte, State.scrByte, h, Memory.find_putList_other hx]

/-! ### OpenToken (R206) -/

/-- A new group: its slot reserved at the end of the stream, its mask 0 (R206). -/
def newGroup (s : State) : State :=
  { s with
    tk := { s.tk with
      gmaskAt := s.tk.scrLen
      scrLen := BitVec.ofNat 18 (s.tk.scrLen.toNat + 4)
      gmask := 0
      gbit := 0 } }

theorem openToken_newGroup (m : Bool) {s : State} (hfull : s.tk.gbit = 32)
    (hroom : s.tk.scrLen.toNat + 4 ≤ s.par.scratchBytes) : openToken m s = .ok () (markToken m (newGroup s)) := by
  rw [openToken, openGroup, if_neg (by simp [hfull]), if_neg (Nat.not_lt.2 hroom), Res.andThen_ok, newGroup]

theorem openToken_overflow (m : Bool) {s : State} (hfull : s.tk.gbit = 32)
    (hover : s.par.scratchBytes < s.tk.scrLen.toNat + 4) : openToken m s = .raise .invalidState s := by
  rw [openToken, openGroup, if_neg (by simp [hfull]), if_pos hover, Res.andThen_raise]

theorem openToken_open (m : Bool) {s : State} (h : s.tk.gbit.toNat < 32) :
    openToken m s = .ok () (markToken m s) := by
  rw [openToken, openGroup, if_pos h.ne, Res.andThen_ok]

/-- Marking a token sets or clears the mask's bit `gbit` and no other. -/
theorem markToken_gmask (m : Bool) (s : State) {k : Nat} (hk : k < 32) :
    (markToken m s).tk.gmask.getLsbD k = if k = s.tk.gbit.toNat then m else s.tk.gmask.getLsbD k := by
  have hbit : (1#32 <<< s.tk.gbit.toNat).getLsbD k = decide (k = s.tk.gbit.toNat) := by
    rw [← BitVec.twoPow_eq, BitVec.getLsbD_twoPow, ← Bool.decide_and, decide_eq_decide]
    omega
  cases m with
  | false =>
    rw [show (markToken false s).tk.gmask = s.tk.gmask &&& ~~~(1#32 <<< s.tk.gbit.toNat) from rfl, BitVec.getLsbD_and,
      BitVec.getLsbD_not, hbit]
    split <;> simp [*]
  | true =>
    rw [show (markToken true s).tk.gmask = s.tk.gmask ||| 1#32 <<< s.tk.gbit.toNat from rfl, BitVec.getLsbD_or, hbit]
    split <;> simp [*]

theorem markToken_gbit (m : Bool) (s : State) : (markToken m s).tk.gbit = s.tk.gbit + 1 := by
  apply BitVec.eq_of_toNat_eq
  simp [markToken]

/-- The first token of a group makes its mask 1 or 0. -/
theorem markToken_newGroup_gmask (m : Bool) (s : State) : (markToken m (newGroup s)).tk.gmask = if m then 1 else 0 := by
  cases m <;> simp [markToken, newGroup]

/-- The slot of the group holds its current mask. -/
theorem markToken_slot (m : Bool) (s : State) {j : Nat} (hj : j < 4) :
    (markToken m s).scrByte (s.tk.gmaskAt.toNat + j) = BitVec.ofNat 8 ((markToken m s).tk.gmask.toNat / 256 ^ j) := by
  have hlen : j < (bytesLE 4 (markToken m s).tk.gmask.toNat).length := by rwa [length_bytesLE]
  rw [State.scrByte_of_putList_at rfl hlen, bytesLE_getElem _ _ _ hj]

theorem markToken_scrByte_other (m : Bool) (s : State) {i : Nat}
    (h : i < s.tk.gmaskAt.toNat ∨ s.tk.gmaskAt.toNat + 4 ≤ i) : (markToken m s).scrByte i = s.scrByte i :=
  State.scrByte_of_putList_other rfl (by rwa [length_bytesLE])

/-- Settles O41, by the three ways OpenToken finds its group: full with room for a slot, full without, and open. -/
theorem openTokenMarksTheGroup : Obligations.OpenTokenMarksTheGroup := by
  intro m s
  refine ⟨fun hfull hroom _ => ?_, openToken_overflow m, fun hopen => ?_⟩
  · refine ⟨_, openToken_newGroup m hfull hroom, ?_, fun j hj => ?_,
      fun i => markToken_scrByte_other m (newGroup s), rfl⟩
    · rw [← markToken_newGroup_gmask m s]
      rfl
    · refine (markToken_slot m (newGroup s) hj).trans ?_
      rw [markToken_newGroup_gmask]
      cases m <;> interval_cases j <;> rfl
  · refine ⟨_, openToken_open m hopen, ?_, fun k => markToken_gmask m s, fun j => markToken_slot m s,
      fun i => markToken_scrByte_other m s, rfl⟩
    rw [← markToken_gbit m s]
    rfl

/-! ### The tokens' bytes and counts (R203 to R205) -/

/-- A symbol's counter goes up by one, where there is one, and no other does (R50). -/
theorem getD_modify_add_one (cnt : List (BitVec 17)) (sym k : Nat) :
    (cnt.modify sym (· + 1#17)).getD k 0 = if k = sym ∧ k < cnt.length then cnt.getD k 0 + 1 else cnt.getD k 0 := by
  simp only [List.getD_eq_getElem?_getD, List.getElem?_modify]
  by_cases hk : k < cnt.length
  · by_cases hs : sym = k <;> simp [hk, hs, eq_comm]
  · simp [hk]

theorem appendScr_overflow {bs : List Byte} {t : State} (h : t.par.scratchBytes < t.tk.scrLen.toNat + bs.length) :
    appendScr bs t = .raise .invalidState t := if_pos h

theorem appendScr_room {bs : List Byte} {t : State} (h : t.tk.scrLen.toNat + bs.length ≤ t.par.scratchBytes) :
    appendScr bs t = .ok () { t with
      scr := t.scr.putList t.tk.scrLen.toNat bs
      tk := { t.tk with scrLen := BitVec.ofNat 18 (t.tk.scrLen.toNat + bs.length) } } := if_neg (Nat.not_lt.2 h)

/-- What every token does once OpenToken has marked it in `t`: its bytes, its count and the cursor, or the overflow. -/
theorem appendScr_token (bs : List Byte) (sym n : Nat) (t : State) :
    (t.tk.scrLen.toNat + bs.length ≤ t.par.scratchBytes →
      ∃ u, ((appendScr bs t).andThen fun _ v => .ok () (advance n (countSym sym v))) = .ok () u ∧
        AppendedToken t bs sym n u) ∧
      (t.par.scratchBytes < t.tk.scrLen.toNat + bs.length →
        ((appendScr bs t).andThen fun _ v => .ok () (advance n (countSym sym v))) = .raise .invalidState t) := by
  refine ⟨fun hroom => ?_, fun hover => ?_⟩
  · rw [appendScr_room hroom, Res.andThen_ok]
    refine ⟨_, rfl, rfl, fun j hj => ?_, fun i => State.scrByte_of_putList_other rfl,
      fun k => getD_modify_add_one t.cnt sym k⟩
    rw [State.scrByte_of_putList_at rfl hj, List.getD_eq_getElem _ _ hj]
  · rw [appendScr_overflow hover, Res.andThen_raise]

/-- The bytes of a match token of at most a chunk: its L never needs the 32-bit form (R122, R203). -/
theorem encode_matchToken (off : Half) {l : Nat} (h : l ≤ 65534) :
    encode (matchToken off l) =
      if l ≤ 253 then [BitVec.ofNat 8 off.toNat, BitVec.ofNat 8 (off.toNat / 256), BitVec.ofNat 8 l]
      else [BitVec.ofNat 8 off.toNat, BitVec.ofNat 8 (off.toNat / 256), 0xFF, BitVec.ofNat 8 l,
        BitVec.ofNat 8 (l / 256)] := by
  have hl : (BitVec.ofNat 16 l).toNat = l := toNat_ofNat_of_lt (by omega)
  unfold matchToken
  split
  · rfl
  · rw [encode, hl]
    rfl

/-- A cursor that advances by nothing stays where it is. -/
theorem advance_zero (s : State) : advance 0 s = s := by
  simp only [advance, Nat.add_zero, BitVec.ofNat_toNat, BitVec.setWidth_eq]

/-- Settles O43: the mark is a premise, and past it the three tokens are one operation on different bytes. -/
theorem tokensAreAppended : Obligations.TokensAreAppended := by
  intro s t
  refine ⟨fun b ho => ?_, fun off n l bs ho _ hn hl hbs => ?_, fun ho => ?_⟩
  · rw [tokLit, ho, Res.andThen_ok]
    exact appendScr_token [b] b.toNat 1 t
  · have henc : encode (matchToken off l) = bs := by rw [hbs, encode_matchToken off (by omega)]
    rw [tokMatch, ho, Res.andThen_ok, ← hl, henc]
    exact appendScr_token bs (symOfMatch off.toNat l) n t
  · rw [tokEos, ho, Res.andThen_ok]
    have heos := appendScr_token (encode .itokEos) 256 0 t
    simp only [advance_zero] at heos
    exact heos

end Sys2Proof.Machine
end

section
/-! SUPPORT. The tokenizer's step case by case (R202, R207, R220, R221): the capacity check, a token and the end of the run;
why the scratch memory suffices (R208, R209); and the match decision. -/

namespace Sys2Proof.Machine

/-! ### The capacity check and the opening of a chunk (R207, R220) -/

theorem checkCapacity_full {s : State} (h : s.cur.cap.toNat < s.cur.outPos.toNat + 260) :
    checkCapacity s = .raise .insufficientBuffer s := if_pos h

theorem checkCapacity_room {s : State} (h : s.cur.outPos.toNat + 260 ≤ s.cur.cap.toNat) :
    checkCapacity s = .ok () s := if_neg (Nat.not_lt.2 h)

theorem openChunk_full {s : State} (h : s.cur.cap.toNat < s.cur.outPos.toNat + 260) :
    openChunk s = .raise .insufficientBuffer s := by
  rw [openChunk, checkCapacity_full h, Res.andThen_raise]

theorem openChunk_room {s : State} (h : s.cur.outPos.toNat + 260 ≤ s.cur.cap.toNat) :
    openChunk s = .ok () { s with
      tk := { s.tk with
        tpos := s.cur.inPos
        tend := BitVec.ofNat 33 (s.cur.inPos.toNat + s.cur.chunkLen.toNat)
        scrLen := 0
        gbit := 32 }
      cnt := zeroCounts
      chunkOpen := true } := by
  rw [openChunk, checkCapacity_room h, Res.andThen_ok]

/-! ### The tokenizer's step (R202, R207, R221) -/

theorem tokenizeStep_closed (o : Config.Oracles) {s : State} (h : s.chunkOpen = false) :
    tokenizeStep o s = openChunk s := if_pos h

theorem tokenizeStep_token (o : Config.Oracles) {s : State} (hopen : s.chunkOpen = true)
    (h : s.tk.tpos.toNat < s.tk.tend.toNat) :
    tokenizeStep o s =
      tokenFor (o.matchSource s.input s.tk.tpos.toNat (s.tk.tend.toNat - s.tk.tpos.toNat)) s := by
  rw [tokenizeStep, if_neg (by simp [hopen]), if_pos h]

theorem tokenizeStep_end (o : Config.Oracles) {s : State} (hopen : s.chunkOpen = true)
    (h : s.tk.tend.toNat ≤ s.tk.tpos.toNat) : tokenizeStep o s = closeTokens o s := by
  rw [tokenizeStep, if_neg (by simp [hopen]), if_neg (Nat.not_lt.2 h)]

/-- The end of the tokenizer's run after the EOS token, where one is due (R204, R207): PackChunk's head under the built
code. -/
theorem closeTokens_ok (o : Config.Oracles) {s u : State} (h : if s.cur.finalChunk then tokEos s = .ok () u else u = s) :
    closeTokens o s = packHeader (buildCode o u) := by
  have hu : (if s.cur.finalChunk then tokEos s else .ok () s) = .ok () u := by
    split
    · rename_i hf
      rwa [if_pos hf] at h
    · rename_i hf
      rw [if_neg hf] at h
      rw [h]
  rw [closeTokens, hu, Res.andThen_ok]

theorem writerInit_room {p : Nat} {s : State} (h : p + 4 ≤ s.cur.cap.toNat) :
    writerInit p s = .ok () { s with
      wr := ⟨0, 0, BitVec.ofNat 33 p, BitVec.ofNat 33 (p + 2), BitVec.ofNat 33 (p + 4)⟩ } := if_neg (Nat.not_lt.2 h)

theorem packHeader_room {s : State} (h : s.cur.outPos.toNat + 260 ≤ s.cur.cap.toNat) :
    packHeader s = .ok () { s.writeOut s.cur.outPos.toNat (tableToBytes s.len) with
      wr := ⟨0, 0, BitVec.ofNat 33 (s.cur.outPos.toNat + 256), BitVec.ofNat 33 (s.cur.outPos.toNat + 258),
        BitVec.ofNat 33 (s.cur.outPos.toNat + 260)⟩
      pk := { s.pk with ppos := 0, pbit := 32 }
      phase := .cPack } := by
  rw [packHeader, writerInit_room (by exact h)]
  rfl

/-! ### The scratch memory suffices (R19, R208, R209) -/

/-- Room for a token of `n` bytes while at most 65535 input bytes are consumed and the token ends within 3 bytes of a full
chunk: 65538 bytes and the masks of 2048 groups are the 73730 bytes of R19. -/
theorem ScratchInv.not_full {s : State} {n : Nat} (h : ScratchInv s) (hsize : 73730 ≤ s.par.scratchBytes)
    (hp : s.phase = .cTokenize) (hopen : s.chunkOpen = true) (hused : s.tk.tpos.toNat - s.cur.inPos.toNat ≤ 65535)
    (hn : s.tk.tpos.toNat - s.cur.inPos.toNat + n ≤ 65538) : ¬Full s n := by
  obtain ⟨hbit, g, hlen, htok⟩ := h hp hopen
  rintro (⟨hfull, hover⟩ | ⟨hroom, hover⟩)
  · have hgroups : g ≤ 2047 := by omega
    omega
  · have hgroups : g ≤ 2048 := by omega
    omega

/-- How a tokenizer's operation may end: the command runs on, or it fails for want of output capacity. -/
def GoesOn (r : Res Unit) : Prop :=
  ∃ t, settle r = .next t ∧ (t.phase = .cTokenize ∨ t.phase = .cPack ∨ t.win.error = 1)

theorem openChunk_goesOn {s : State} (hp : s.phase = .cTokenize) : GoesOn (openChunk s) := by
  rcases Nat.lt_or_ge s.cur.cap.toNat (s.cur.outPos.toNat + 260) with hfull | hroom
  · rw [openChunk_full hfull]
    exact ⟨_, rfl, .inr (.inr rfl)⟩
  · rw [openChunk_room hroom]
    exact ⟨_, rfl, .inl hp⟩

theorem tokenFor_goesOn (a : Nat × Nat) {s : State} (hp : s.phase = .cTokenize) (hlt : s.tk.tpos.toNat < s.tk.tend.toNat)
    (hroom : ∀ n, s.tk.tpos.toNat + n ≤ s.tk.tend.toNat → ¬Full s n) : GoesOn (tokenFor a s) := by
  obtain ⟨n, -, hn, ⟨u, t, -, e, hk, -⟩ | ⟨hfull, -⟩⟩ := tokenFor_spec a s hlt
  · rw [e]
    exact ⟨t, rfl, .inl (by rw [hk]; exact hp)⟩
  · exact absurd hfull (hroom n hn)

theorem closeTokens_goesOn (o : Config.Oracles) {s : State} (hcap : s.cur.outPos.toNat + 260 ≤ s.cur.cap.toNat)
    (hroom : s.cur.finalChunk = true → ¬Full s 3) : GoesOn (closeTokens o s) := by
  have heos : ∃ u, (if s.cur.finalChunk then tokEos s = .ok () u else u = s) ∧ TokKeeps s u := by
    split
    · rename_i hf
      rcases tokEos_spec s with ⟨u, e, hk⟩ | ⟨hfull, -⟩
      · exact ⟨u, e, hk⟩
      · exact absurd hfull (hroom hf)
    · exact ⟨s, rfl, .refl s⟩
  obtain ⟨u, hu, hk⟩ := heos
  have hcur : (buildCode o u).cur = s.cur := by rw [buildCode_cur, show u = _ from hk]
  rw [closeTokens_ok o hu, packHeader_room (by rwa [hcur])]
  exact ⟨_, rfl, .inr (.inl rfl)⟩

/-- Settles O57, by the three moves of a tokenizer's step: the opening tests the output capacity, and a token and the EOS
token have room in the scratch memory by the bound on the intermediate stream. The EOS token's three bytes fit because a
final chunk is at least one byte short of a full one. -/
theorem tokenizerNeverOverflowsScratch : Obligations.TokenizerNeverOverflowsScratch := by
  intro o s hsize hc hs hp
  obtain ⟨-, -, ⟨-, hmax, hfin, -⟩, htok⟩ := (cursorInv_cTokenize hp).1 hc
  rw [Config.chunkSize] at hmax hfin
  rw [engineStep_cTokenize o hp]
  cases hopen : s.chunkOpen with
  | false =>
    rw [tokenizeStep_closed o hopen]
    exact openChunk_goesOn hp
  | true =>
    obtain ⟨hcap, hpos, hle, hend⟩ := htok hopen
    rcases Nat.lt_or_ge s.tk.tpos.toNat s.tk.tend.toNat with hlt | hge
    · rw [tokenizeStep_token o hopen hlt]
      exact tokenFor_goesOn _ hp hlt fun n hn => hs.not_full hsize hp hopen (by omega) (by omega)
    · rw [tokenizeStep_end o hopen hge]
      refine closeTokens_goesOn o hcap fun hf => ?_
      have hshort := hfin hf
      exact hs.not_full hsize hp hopen (by omega) (by omega)

/-- Settles O45: the opening of a chunk is the capacity check and then the tokenizer's registers. -/
theorem capacityIsCheckedBeforeAChunk : Obligations.CapacityIsCheckedBeforeAChunk := by
  intro o s hp hclosed
  rw [engineStep_cTokenize o hp, tokenizeStep_closed o hclosed]
  refine ⟨fun hfull => ?_, fun hroom => ?_⟩
  · rw [openChunk_full hfull]
    exact ⟨_, rfl, failed_self .insufficientBuffer s⟩
  · rw [openChunk_room hroom, zeroCounts_eq]
    rfl

/-! ### The match decision (R202) -/

theorem tokenFor_match {a : Nat × Nat} {s : State} (h : 3 ≤ min a.1 (s.tk.tend.toNat - s.tk.tpos.toNat)) :
    tokenFor a s = tokMatch (BitVec.ofNat 16 a.2) (min a.1 (s.tk.tend.toNat - s.tk.tpos.toNat)) s := if_pos h

theorem tokenFor_literal {a : Nat × Nat} {s : State} (h : min a.1 (s.tk.tend.toNat - s.tk.tpos.toNat) < 3) :
    tokenFor a s = tokLit (s.inByte s.tk.tpos.toNat) s := if_neg (Nat.not_le.2 h)

theorem State.length_input (s : State) : s.input.length = s.cur.slen.toNat := by
  rw [State.input, State.inBytes, List.length_map, List.length_range]

/-- MATCH_SOURCE sees the input byte by byte (R60, R201). -/
theorem State.input_getD {s : State} {i : Nat} (h : i < s.cur.slen.toNat) : s.input.getD i 0 = s.inByte i := by
  rw [List.getD_eq_getElem _ _ (by rwa [State.length_input])]
  simp [State.input, State.inBytes]

/-- Settles O42: the two cases are the decision's test, and R201's contract speaks of the clamped answer at the cursor. -/
theorem tokenizerClampsThenDecides : Obligations.TokenizerClampsThenDecides := by
  intro o s hp hopen hlt
  dsimp only
  rw [engineStep_cTokenize o hp, tokenizeStep_token o hopen hlt]
  refine ⟨fun hm => by rw [tokenFor_match hm], fun hm hcontract hend => ?_, fun hm => by rw [tokenFor_literal hm]⟩
  obtain ⟨hoff, hle, hbytes⟩ := hcontract s.input s.tk.tpos.toNat (s.tk.tend.toNat - s.tk.tpos.toNat) (by omega)
    (by rw [State.length_input]; omega) hm
  generalize o.matchSource s.input s.tk.tpos.toNat (s.tk.tend.toNat - s.tk.tpos.toNat) = answer at *
  rw [Config.window] at hle
  refine ⟨hoff, by omega, by omega, toNat_ofNat_of_lt (by omega), fun i hi => ?_⟩
  rw [← State.input_getD (by omega), ← State.input_getD (by omega)]
  exact hbytes i hi

end Sys2Proof.Machine
end

section
/-! SUPPORT. A block and the input around it: the header's bytes (R211, R212), the empty block (R222), and the stream
driver's choice of the next chunk (R225), which acceptance of COMPRESS makes first (R200). -/

namespace Sys2Proof.Machine

/-! ### The block header (R211, R212) -/

/-- Byte `i` of the packed table holds the lengths of symbols 2i and 2i + 1 (R113). -/
theorem tableToBytes_getElem {len : List (BitVec 4)} {i : Nat} (hi : i < (tableToBytes len).length) :
    (tableToBytes len)[i] = BitVec.ofNat 8 (lenOf len (2 * i) + 16 * lenOf len (2 * i + 1)) := by
  induction len using tableToBytes.induct generalizing i with
  | case1 a b r ih =>
    cases i with
    | zero => rfl
    | succ i =>
      simp only [tableToBytes, List.getElem_cons_succ, Nat.mul_succ]
      exact ih (by simpa [tableToBytes] using hi)
  | case2 len hshort =>
    rw [tableToBytes] at hi
    · cases hi
    · exact hshort

theorem builtLengths_getD (o : Config.Oracles) (cnt : List (BitVec 17)) {k : Nat} (hk : k < 512) :
    (builtLengths o cnt).getD k 0 = o.huffBuild cnt k := by
  unfold builtLengths
  simp [Config.alphabet, hk]

/-- What R210's contract says of the lengths, in numbers. -/
theorem HuffBuildContract.built {o : Config.Oracles} (h : HuffBuildContract o) {cnt : List (BitVec 17)}
    (hcnt : cnt.length = 512) :
    kraftSum (builtLengths o cnt) ≤ 2 ^ 15 ∧ ∀ k < 512, cnt.getD k 0 ≠ 0 → 1 ≤ lenOf (builtLengths o cnt) k := by
  obtain ⟨hvalid, hcounted⟩ := h cnt hcnt
  exact ⟨(tableValid_iff _).1 hvalid, hcounted⟩

/-- Settles O44: the tokenizer's end is PackChunk's head under the built code, whose only bytes are the table's. -/
theorem blockHeaderIsWritten : Obligations.BlockHeaderIsWritten := by
  intro o s u hp hopen hend hu hroom
  have hlen : (tableToBytes (buildCode o u).len).length = 256 :=
    tableToBytes_length 256 _ (builtLengths_length o u.cnt)
  rw [engineStep_cTokenize o hp, tokenizeStep_end o hopen hend, closeTokens_ok o hu,
    packHeader_room (s := buildCode o u) hroom]
  refine ⟨_, rfl, rfl, builtLengths_length o u.cnt, fun k => builtLengths_getD o u.cnt, fun hcontract => hcontract.built,
    fun i hi => ?_, fun a ha => ?_⟩
  · refine (State.readByte_writeOut_at u (by rwa [hlen]) (by rw [hlen]; decide)).trans ?_
    exact tableToBytes_getElem _
  · exact State.readByte_writeOut_other u (by rwa [hlen])

/-! ### The empty block (R222) -/

theorem emptyStep_full {s : State} (h : s.cur.cap.toNat < s.cur.outPos.toNat + 260) :
    emptyStep s = .raise .insufficientBuffer s := by
  rw [emptyStep, checkCapacity_full h, Res.andThen_raise]

theorem emptyStep_room {s : State} (h : s.cur.outPos.toNat + 260 ≤ s.cur.cap.toNat) :
    emptyStep s = .ok () (completeOk { s.writeOut s.cur.outPos.toNat emptyBlock with
      cur := { s.cur with outPos := BitVec.ofNat 33 (s.cur.outPos.toNat + 260) } }) := by
  rw [emptyStep, checkCapacity_room h, Res.andThen_ok]
  rfl

/-- Only byte 0x80 of the empty block is not 0: the codeword length of symbol 0x100 (R222). -/
theorem emptyBlock_getElem {i : Nat} (hi : i < emptyBlock.length) : emptyBlock[i] = if i = 128 then 1 else 0 := by
  simp only [emptyBlock, List.getElem_append, List.getElem_cons, List.getElem_replicate, List.length_replicate]
  rcases Nat.lt_trichotomy i 128 with hlt | rfl | hgt
  · rw [dif_pos hlt, if_neg hlt.ne]
    rfl
  · rfl
  · rw [dif_neg (by omega), dif_neg (by omega), if_neg hgt.ne']
    rfl

/-- Settles O46: the capacity check, then the block's bytes and the completion. The block is a name from where its bytes are
known, so that no definitional check writes out all 260. -/
theorem emptyBlockIsWritten : Obligations.EmptyBlockIsWritten := by
  intro o s hp hop hst
  rw [engineStep_cEmpty o hp]
  refine ⟨fun hfull => ?_, fun hroom => ?_⟩
  · rw [emptyStep_full hfull]
    exact ⟨_, rfl, failed_self .insufficientBuffer s⟩
  · have hlen := emptyBlock_length
    have hblock := @emptyBlock_getElem
    rw [emptyStep_room hroom]
    generalize emptyBlock = block at *
    refine ⟨_, rfl, fun i hi => ?_, fun a ha => ?_, ?_⟩
    · exact (State.readByte_writeOut_at s (by rwa [hlen]) (by rw [hlen]; decide)).trans (hblock _)
    · exact State.readByte_writeOut_other s (by rwa [hlen])
    · have hcap := s.cur.cap.isLt
      have hend : (BitVec.ofNat 33 (s.cur.outPos.toNat + 260)).toNat = s.cur.outPos.toNat + 260 :=
        toNat_ofNat_of_lt (by omega)
      have hresult : (BitVec.ofNat 33 (s.cur.outPos.toNat + 260)).setWidth 32 =
          BitVec.ofNat 32 (s.cur.outPos.toNat + 260) := BitVec.setWidth_ofNat_of_le (by decide) _
      simp only [completeOk, State.writeOut_win, hop, hst, hend, hresult]
      rfl

/-! ### The stream driver (R225) -/

theorem nextChunk_full {s : State} (h : 65536 ≤ s.cur.slen.toNat - s.cur.inPos.toNat) :
    nextChunk s = { s with
      cur := { s.cur with chunkLen := 65536, finalChunk := false }, phase := .cTokenize, chunkOpen := false } := if_pos h

theorem nextChunk_empty {s : State} (h : s.cur.slen.toNat - s.cur.inPos.toNat = 0) :
    nextChunk s = { s with phase := .cEmpty } := (if_neg (by rw [h]; decide)).trans (if_pos h)

theorem nextChunk_short {s : State} (hpos : 0 < s.cur.slen.toNat - s.cur.inPos.toNat)
    (hlt : s.cur.slen.toNat - s.cur.inPos.toNat < 65536) :
    nextChunk s = { s with
      cur := { s.cur with
        chunkLen := BitVec.ofNat 17 (s.cur.slen.toNat - s.cur.inPos.toNat), finalChunk := true }
      phase := .cTokenize, chunkOpen := false } := (if_neg (Nat.not_le.2 hlt)).trans (if_neg hpos.ne')

/-- Settles O47: the end of PackChunk is Finish with the cursors' advance, and the driver's three choices are
`nextChunk`'s cases. -/
theorem streamDriverSplitsTheInput : Obligations.StreamDriverSplitsTheInput := by
  intro s
  refine ⟨fun o hp hend => ⟨_, rfl, ?_⟩, fun _ => ⟨nextChunk_full, fun hend => nextChunk_empty (by omega),
    fun hpos hlt => ?_⟩⟩
  · rw [engineStep_cPack o hp, fetchPack, if_pos hend, perform_act]
    rfl
  · rw [nextChunk_short hpos hlt]
    exact ⟨_, rfl, toNat_ofNat_of_lt (by omega), rfl⟩

/-! ### Acceptance (R200) -/

/-- Settles O17: acceptance, then the driver's choice at in_pos 0, by the input's length. -/
theorem compressIsAccepted : Obligations.CompressIsAccepted := by
  intro s hb hl
  obtain ⟨hexec, -⟩ := exec_launch_accepted hb hl
  refine ⟨_, hexec, ?_⟩
  have hrest : (acceptCommand .compress s).cur.slen.toNat - (acceptCommand .compress s).cur.inPos.toNat =
    s.win.srcLen.toNat := rfl
  by_cases hfull : 65536 ≤ s.win.srcLen.toNat
  · rw [nextChunk_full (by rwa [hrest])]
    refine ⟨rfl, fun h0 => ?_, fun _ => ⟨rfl, rfl, (Nat.min_eq_left hfull).symm, ?_⟩⟩
    · simp [h0] at hfull
    · simpa using hfull
  · by_cases h0 : s.win.srcLen = 0
    · rw [nextChunk_empty (by rw [hrest, h0]; rfl)]
      exact ⟨rfl, fun _ => ⟨rfl, rfl, rfl⟩, fun hne => absurd h0 hne⟩
    · have hpos : 0 < s.win.srcLen.toNat := Nat.pos_of_ne_zero fun h => h0 (BitVec.eq_of_toNat_eq h)
      have hlt : s.win.srcLen.toNat < 65536 := by omega
      rw [nextChunk_short (by rwa [hrest]) (by rwa [hrest])]
      refine ⟨rfl, fun h => absurd h h0, fun _ => ⟨rfl, rfl, ?_, ?_⟩⟩
      · rw [Nat.min_eq_right hlt.le]
        exact toNat_ofNat_of_lt (by omega)
      · simpa using hlt

end Sys2Proof.Machine
end

section
/-! SUPPORT. Decompression (R250 to R271): a literal, a whole match with its checks in order, the block header, and the two
ends of a chunk. -/

namespace Sys2Proof.Machine

/-! ### A literal (R258) -/

theorem literal_full (b : Byte) {s : State} (h : s.cur.cap.toNat ≤ s.cur.outPos.toNat) :
    literal b s = .raise .insufficientBuffer s := if_pos h

theorem literal_room (b : Byte) {s : State} (h : s.cur.outPos.toNat < s.cur.cap.toNat) :
    literal b s = .ok () { s.writeByte (s.outAddr s.cur.outPos.toNat) b with
      cur := { s.cur with outPos := BitVec.ofNat 33 (s.cur.outPos.toNat + 1) } } := if_neg (Nat.not_le.2 h)

theorem exec_symLit (b : Byte) (s : State) : exec (.symLit b) s = settle (literal b s) := rfl

/-- Settles O33: the capacity check, else the one byte written at out_pos. -/
theorem literalWritesOneByte : Obligations.LiteralWritesOneByte := by
  intro b s
  rw [exec_symLit]
  refine ⟨fun hfull => ?_, fun hroom => ?_⟩
  · rw [literal_full b hfull]
    exact ⟨_, rfl, failed_self .insufficientBuffer s⟩
  · rw [literal_room b hroom]
    exact ⟨_, rfl, rfl, State.readByte_writeByte_same s _ b, fun a ha => State.readByte_writeByte_other s b ha⟩

/-! ### The parts of a match (R259 to R261) -/

theorem peek_lt (s : State) {n : Nat} (h : n ≤ 32) : peek n s < 2 ^ n := by
  unfold peek
  split
  next h0 => simp [h0]
  next =>
    have hbuf : s.rd.buf.toNat < 2 ^ n * 2 ^ (32 - n) := by
      rw [← Nat.pow_add, Nat.add_sub_cancel' h]
      exact s.rd.buf.isLt
    rw [Nat.shiftRight_eq_div_pow]
    exact Nat.div_lt_of_lt_mul (by rwa [Nat.mul_comm])

/-- A symbol's O is at most 15, so that its offset fits the 16 bits of the register that holds it (R114, R260). -/
theorem matchOffset_lt (o : BitVec 4) (s : State) : 2 ^ o.toNat + peek o.toNat s < 2 ^ 16 := by
  have hpeek := peek_lt s (n := o.toNat) (by omega)
  have hpow : 2 ^ (o.toNat + 1) ≤ 2 ^ 16 := Nat.pow_le_pow_right (by decide) (by omega)
  rw [Nat.pow_succ] at hpow
  omega

theorem resolveOffset_short {o : Nat} {s : State} (h : s.rd.nbits.toNat < o) :
    resolveOffset o s = .raise .invalidData s := if_pos h

theorem resolveOffset_before {o : Nat} {s : State} (hbits : o ≤ s.rd.nbits.toNat)
    (h : s.cur.outPos.toNat < 2 ^ o + peek o s) : resolveOffset o s = .raise .invalidData s :=
  (if_neg (Nat.not_lt.2 hbits)).trans (if_pos h)

theorem resolveOffset_ok {o : Nat} {s : State} (hbits : o ≤ s.rd.nbits.toNat) (h : 2 ^ o + peek o s ≤ s.cur.outPos.toNat) :
    resolveOffset o s = .ok (2 ^ o + peek o s) s :=
  (if_neg (Nat.not_lt.2 hbits)).trans (if_neg (Nat.not_lt.2 h))

/-- The state with a match's offset, O and N held until its length form is read (R259; log entry 17). -/
def holdMatch (o n : BitVec 4) (s : State) : State :=
  { s with mt := ⟨BitVec.ofNat 16 (2 ^ o.toNat + peek o.toNat s), o, n, true⟩ }

theorem holdMatch_off (o n : BitVec 4) (s : State) : (holdMatch o n s).mt.off.toNat = 2 ^ o.toNat + peek o.toNat s :=
  toNat_ofNat_of_lt (matchOffset_lt o s)

/-- The reader's position past the raw bytes of a length form (R174). -/
def pastLength (g : LenForm) (s : State) : State :=
  { s with rd := { s.rd with rpos := BitVec.ofNat 33 (s.rd.rpos.toNat + g.size) } }

theorem fetchLength_ok {n : BitVec 4} {s : State} {g : LenForm} {r : List Byte}
    (h : decodeLength n (lengthBytes s) = .ok (g, r)) : fetchLength n s = .ok g (pastLength g s) := by
  rw [fetchLength, h]
  rfl

theorem fetchLength_error {n : BitVec 4} {s : State} {e : DecodeError} (h : decodeLength n (lengthBytes s) = .error e) :
    fetchLength n s = .raise .invalidData s := by
  rw [fetchLength, h]

/-! ### A whole match (R259 to R264) -/

theorem exec_symMatch (o n : BitVec 4) (s : State) : exec (.symMatch o n) s = settle (matchSymbol o n s) := rfl

theorem matchSymbol_unresolved {o : BitVec 4} {s : State} {e : Err} (n : BitVec 4)
    (h : resolveOffset o.toNat s = .raise e s) : matchSymbol o n s = .raise e s := by
  rw [matchSymbol, beginMatch, h, Res.andThen_raise, Res.andThen_raise]

theorem matchSymbol_resolved {o : BitVec 4} {s : State} (n : BitVec 4) (hbits : o.toNat ≤ s.rd.nbits.toNat)
    (hlow : 2 ^ o.toNat + peek o.toNat s ≤ s.cur.outPos.toNat) :
    matchSymbol o n s = (fetchLength n (holdMatch o n s)).andThen lengthAction := by
  rw [matchSymbol, beginMatch, resolveOffset_ok hbits hlow]
  rfl

/-- A match whose offset and length form are there goes on with that form (R259, R261). -/
theorem matchSymbol_fetched {o n : BitVec 4} {s : State} {g : LenForm} {r : List Byte}
    (hbits : o.toNat ≤ s.rd.nbits.toNat) (hlow : 2 ^ o.toNat + peek o.toNat s ≤ s.cur.outPos.toNat)
    (hform : decodeLength n (lengthBytes s) = .ok (g, r)) :
    matchSymbol o n s = lengthAction g (pastLength g (holdMatch o n s)) := by
  rw [matchSymbol_resolved n hbits hlow, fetchLength_ok (s := holdMatch o n s) hform, Res.andThen_ok]

theorem matchSymbol_truncated {o n : BitVec 4} {s : State} {e : DecodeError}
    (hbits : o.toNat ≤ s.rd.nbits.toNat) (hlow : 2 ^ o.toNat + peek o.toNat s ≤ s.cur.outPos.toNat)
    (hform : decodeLength n (lengthBytes s) = .error e) :
    matchSymbol o n s = .raise .invalidData (holdMatch o n s) := by
  rw [matchSymbol_resolved n hbits hlow, fetchLength_error (s := holdMatch o n s) hform, Res.andThen_raise]

/-- Settles O35: the match goes on with its length form, which copies from the offset held. -/
theorem matchCopiesItsLength : Obligations.MatchCopiesItsLength := by
  intro o n s g r l hbits hlow hform hlen hroom
  have hoff : (pastLength g (holdMatch o n s)).mt.off.toNat = 2 ^ o.toNat + peek o.toNat s := holdMatch_off o n s
  have hpos : 1 ≤ 2 ^ o.toNat := Nat.one_le_two_pow
  obtain ⟨t, ht, hcopy⟩ := lengthAction_copies (s := pastLength g (holdMatch o n s)) hlen (by omega)
    (hoff.trans_le hlow) hroom
  rw [hoff] at hcopy
  exact ⟨t, by rw [exec_symMatch, matchSymbol_fetched hbits hlow hform, ht], hcopy⟩

/-- Settles O36: each check is reached with the earlier ones passed, and its error completes the command. -/
theorem matchFailsInCheckOrder : Obligations.MatchFailsInCheckOrder := by
  intro o n s
  rw [exec_symMatch]
  refine ⟨fun hshort => ?_, fun hbits hbefore => ?_, fun hbits hlow hnone => ?_,
    fun g r l hbits hlow hform hlen hfull => ?_⟩
  · rw [matchSymbol_unresolved n (resolveOffset_short hshort)]
    exact ⟨_, rfl, failed_self .invalidData s⟩
  · rw [matchSymbol_unresolved n (resolveOffset_before hbits hbefore)]
    exact ⟨_, rfl, failed_self .invalidData s⟩
  · cases hform : decodeLength n (lengthBytes s) with
    | error e =>
      rw [matchSymbol_truncated hbits hlow hform]
      exact ⟨_, rfl, failed_self .invalidData (holdMatch o n s)⟩
    | ok p =>
      rw [matchSymbol_fetched hbits hlow hform]
      exact lengthAction_invalid (hnone _ _ hform) (pastLength p.1 (holdMatch o n s))
  · rw [matchSymbol_fetched hbits hlow hform]
    exact lengthAction_full (s := pastLength g (holdMatch o n s)) hlen hfull

/-! ### The block header (R252, R253) -/

/-- ReaderInit's buffer, its two words side by side (R171). -/
theorem readerInit_eq (q : Nat) (s : State) : readerInit q s = { s with
    rd := ⟨BitVec.ofNat 32 (inWord s q * 65536 + inWord s (q + 2)), 32, BitVec.ofNat 33 (q + 4)⟩ } := by
  have hlow : inWord s (q + 2) < 2 ^ 16 := by
    have := ofBytesLE_lt (s.inBytes (q + 2) 2)
    rwa [State.inBytes, List.length_map, List.length_range] at this
  rw [readerInit, ← Nat.shiftLeft_add_eq_or_of_lt hlow, Nat.shiftLeft_eq]

/-- The state once the header's length table is loaded, before it is checked (R252). -/
def loadTable (s : State) : State := { s with len := tableOfBytes (s.inBytes s.cur.inPos.toNat Config.tableBytes) }

theorem readHeader_short {s : State} (h : s.cur.slen.toNat - s.cur.inPos.toNat < Config.minBlock) :
    readHeader s = .raise .invalidData s := if_pos h

theorem readHeader_oversubscribed {s : State} (h : Config.minBlock ≤ s.cur.slen.toNat - s.cur.inPos.toNat)
    (hv : tableValid (loadTable s).len = false) : readHeader s = .raise .invalidData (loadTable s) :=
  (if_neg (Nat.not_lt.2 h)).trans (if_pos hv)

theorem readHeader_loads {s : State} (h : Config.minBlock ≤ s.cur.slen.toNat - s.cur.inPos.toNat)
    (hv : tableValid (loadTable s).len = true) :
    readHeader s = .ok () { readerInit (s.cur.inPos.toNat + Config.tableBytes) (loadTable s) with
      cur := { s.cur with chunkOutStart := s.cur.outPos, eosSeen := false }
      mt := { s.mt with await := false }
      phase := .dDecode } :=
  (if_neg (Nat.not_lt.2 h)).trans (if_neg (ne_false_of_eq_true hv))

/-- Settles O39: the two checks of ReadHeader in order, and ReaderInit past the table. -/
theorem headerLoadsTableAndReader : Obligations.HeaderLoadsTableAndReader := by
  intro o s hphase _
  rw [engineStep_dReadHeader o hphase]
  refine ⟨fun hshort => ?_, fun hsize hkraft => ?_, fun hsize hkraft => ?_⟩
  · rw [readHeader_short (by rw [Config.minBlock]; omega)]
    exact ⟨_, rfl, failed_self .invalidData s⟩
  · have hv : tableValid (loadTable s).len = false :=
      Bool.eq_false_iff.2 fun hv => Nat.not_le.2 hkraft ((tableValid_iff _).1 hv)
    rw [readHeader_oversubscribed (Nat.le_sub_of_add_le' hsize) hv]
    exact ⟨_, rfl, failed_self .invalidData (loadTable s)⟩
  · rw [readHeader_loads (Nat.le_sub_of_add_le' hsize) ((tableValid_iff _).2 hkraft), readerInit_eq]
    rfl

/-! ### The ends of a chunk (R255 to R257, R266, R270) -/

theorem chunkEnd_eq {s : State} (h : s.cur.inPos.toNat ≤ s.rd.rpos.toNat) :
    chunkEnd s = { s with cur := { s.cur with inPos := s.rd.rpos } } := by
  rw [chunkEnd, Nat.add_sub_cancel' h, BitVec.ofNat_toNat, BitVec.setWidth_eq]

theorem exec_symEos (s : State) : exec .symEos s =
    .next { chunkEnd s with cur := { (chunkEnd s).cur with eosSeen := true }, phase := .dEndOfStream } := rfl

/-- Settles O34: the chunk's end with eos set. -/
theorem endOfStreamEndsTheChunk : Obligations.EndOfStreamEndsTheChunk := by
  intro s hpos
  rw [exec_symEos, chunkEnd_eq hpos]

theorem fetchDecode_gateFalse {s : State} (hm : s.mt.await = false) (hg : gate s = false) :
    fetchDecode s = .act (.next (chunkEndNoEos s)) := by
  simp [fetchDecode, hm, hg]

theorem fetchDecode_undecodable {s t : State} {e : Err} (hm : s.mt.await = false) (hg : gate s = true)
    (h : decodeNext s = .raise e t) : fetchDecode s = .act (.next (completeErr e t)) := by
  simp [fetchDecode, hm, hg, h, fetchedOf]

/-- Settles O40: a false gate is the chunk's end without EOS; with a true one, Decode() raises InvalidData and nothing else. -/
theorem gateEndsTheChunk : Obligations.GateEndsTheChunk := by
  intro o s hphase hmt
  rw [engineStep_dDecode o hphase]
  refine ⟨fun hout hbuf hpos => ?_, fun e t hopen hraise => ?_⟩
  · have hg : gate s = false := Bool.eq_false_iff.2 fun hg =>
      ((gate_iff s).1 hg).elim (Nat.not_lt.2 hout) fun hne => hne hbuf
    rw [fetchDecode_gateFalse hmt hg, perform_act, chunkEndNoEos, chunkEnd_eq hpos]
  · obtain ⟨rfl, rfl, -⟩ := decodeFrom_raise hraise
    rw [fetchDecode_undecodable hmt ((gate_iff _).2 hopen) hraise, perform_act]
    exact ⟨_, rfl, failed_self .invalidData _⟩

/-! ### Acceptance (R250) -/

/-- Settles O18: acceptance, the phase being D_READ_HEADER at once. -/
theorem decompressIsAccepted : Obligations.DecompressIsAccepted := by
  intro s hb hl
  obtain ⟨-, hexec⟩ := exec_launch_accepted hb hl
  rw [hexec]
  rfl

end Sys2Proof.Machine
end

section
/-! SUPPORT. Commands, completion and dispatch (R256, R261, R304, R310, R319): what a word stored to CMD does by its value
and BUSY, what a completion sets, and where a step finds the instruction that it runs. -/

namespace Sys2Proof.Machine

/-! ### A word stored to CMD (R319) -/

/-- CMD is the register at offset 0, so a 32-bit store to the window's base is a command word. -/
theorem stepWith_cmdStore (o : Config.Oracles) {s : State} {v : Word} {rest : List HostOp}
    (hh : s.host = .regStore s.par.xhBase 4 v :: rest) :
    stepWith o s = exec (decodeCmd v) { s with host := rest } := by
  have hacc : accessOf s.par.xhBase 4 { s with host := rest } = .reg 0 := accessOf_reg rfl (by decide) rfl
  simp [stepWith, fetchWith, hh, fetchRegStore, hacc]

theorem exec_decodeCmd_busy {s : State} (v : Word) (hb : s.busy = true) : exec (decodeCmd v) s = .next s := by
  obtain ⟨hnop, hbusy⟩ := ignoredCommandsChangeNothing s
  obtain ⟨hcompress, hdecompress, hillegal⟩ := hbusy hb
  unfold decodeCmd
  split_ifs
  exacts [hnop, hcompress, hdecompress, hillegal v]

/-- A command word runs the row that its value names, CMD_NOP changing nothing (R124, R319). -/
theorem exec_decodeCmd_eq (v : Word) (s : State) : exec (decodeCmd v) s =
    if v = 0#32 then .next s
    else if v = 1#32 then exec .compress s
    else if v = 2#32 then exec .decompress s
    else exec (.cmdIllegal v) s := by
  unfold decodeCmd
  split_ifs <;> rfl

/-- Settles O19: with BUSY = 0 the illegal command sets the window at once. -/
theorem illegalCommandCompletesAtOnce : Obligations.IllegalCommandCompletesAtOnce := by
  intro s v hb
  exact if_neg (Bool.eq_false_iff.1 hb)

/-- A word other than 1 and 2 starts no command: CMD_NOP and the illegal command leave the phase as it is (R304, R319). -/
theorem exec_decodeCmd_phase {v : Word} {s t : State} (h1 : v ≠ 1#32) (h2 : v ≠ 2#32)
    (h : exec (decodeCmd v) s = .next t) : t.phase = s.phase := by
  cases hb : s.busy with
  | true =>
    rw [exec_decodeCmd_busy v hb] at h
    cases h
    rfl
  | false =>
    rw [exec_decodeCmd_eq, if_neg h1, if_neg h2, illegalCommandCompletesAtOnce s v hb] at h
    split at h
    all_goals cases h; rfl

/-- Settles O60, by the ways a step answers a next state: in IDLE a command word alone can change the phase, and only 1 and
2 do. -/
theorem onlyACommandLeavesIdle : Obligations.OnlyACommandLeavesIdle := by
  intro o s t hidle ht hleft
  rcases stepWith_next ht with ⟨hs, he, -⟩ | ⟨hs, rs, us, rfl, -⟩ | ⟨hs, v, hh, he⟩ | ⟨hs, off, v, rfl⟩ |
    ⟨hs, a, v, -, rfl⟩ | ⟨hs, rfl⟩
  · rw [engineStep_idle o (s := { s with host := hs }) hidle] at he
    cases he
    exact absurd hidle hleft
  · exact absurd hidle hleft
  · refine ⟨v, hs, hh, ?_⟩
    by_contra hv
    obtain ⟨h1, h2⟩ := not_or.1 hv
    exact hleft ((exec_decodeCmd_phase h1 h2 he).trans hidle)
  · rw [regWrite_eq] at hleft
    exact absurd hidle hleft
  · exact absurd hidle hleft
  · exact absurd rfl hleft

/-- Settles O15: every word is ignored while BUSY, and otherwise its value names the row that runs. -/
theorem commandStoreDispatches : Obligations.CommandStoreDispatches := by
  intro o s v rest hh
  rw [stepWith_cmdStore o hh]
  split
  next hb => exact exec_decodeCmd_busy v hb
  next => exact exec_decodeCmd_eq v _

/-! ### Completion (R310) -/

theorem completeOk_win {s : State} (hs : s.win.status = 1) : (completeOk s).win = { s.win with
    result := s.cur.outPos.setWidth 32
    inConsumed := if s.cur.op = .compress then s.cur.slen else s.cur.inPos.setWidth 32
    error := 0
    status := 2 } := by
  cases hop : s.cur.op <;> simp [completeOk, hop, hs, statusDone]

theorem completeErr_win (e : Err) {s : State} (hs : s.win.status = 1) : (completeErr e s).win = { s.win with
    result := 0, inConsumed := 0, error := e.code, status := 4 } := by
  simp [completeErr, hs, statusErr]

/-- Settles O27: the window of each completion, BUSY being the only flag before it; the rest is the record update. -/
theorem completionSetsTheWindow : Obligations.CompletionSetsTheWindow := by
  intro o s hs
  refine ⟨?_, engineStep_dEndOfStream o, fun e => ⟨rfl, rfl, ?_⟩⟩
  · rw [← completeOk_win hs]
    rfl
  · rw [completeErr_win e hs]
    cases e <;> rfl

/-! ### Where a step finds its instruction (R212 to R214, R256, R261) -/

theorem fetchDecode_symbol {s t : State} {sym : Nat} (hm : s.mt.await = false) (hg : gate s = true)
    (h : decodeNext s = .ok sym t) : fetchDecode s = .instr (decodeSym (BitVec.ofNat 9 sym) (maskIsZero t)) t := by
  simp [fetchDecode, hm, hg, h, fetchedOf]

theorem fetchDecode_length {s t : State} {g : LenForm} (hm : s.mt.await = true) (h : fetchLength s.mt.n s = .ok g t) :
    fetchDecode s = .instr g.instr t := by
  simp [fetchDecode, hm, h, fetchedOf]

/-- The packer's read inside the intermediate stream, with the bits of the group it passes: none for a mask, one for a
token (R212). -/
theorem fetchPack_within {s : State} (h : s.pk.ppos.toNat < s.tk.scrLen.toNat) : fetchPack s = fetchToken
    (if 32 ≤ s.pk.pbit.toNat then .group else if s.pk.pmask.getLsbD s.pk.pbit.toNat then .mat else .lit)
    (if 32 ≤ s.pk.pbit.toNat then 0 else 1) (tokenBytes s) s := by
  rw [fetchPack, if_neg (Nat.not_le.2 h)]
  split_ifs <;> rfl

theorem fetchToken_ok {f : Format} {bs r : List Byte} {i : Instr} (bits : Nat) (s : State)
    (h : decode f bs = .ok (i, r)) : fetchToken f bits bs s = .instr i { s with
      pk := { s.pk with
        ppos := BitVec.ofNat 18 (s.pk.ppos.toNat + (encode i).length)
        pbit := BitVec.ofNat 6 (s.pk.pbit.toNat + bits) } } := by
  rw [fetchToken, h]

/-- The group's bit number moves past a token and not past a mask. -/
theorem pbit_past (k : BitVec 6) : BitVec.ofNat 6 (k.toNat + if 32 ≤ k.toNat then 0 else 1) =
    if 32 ≤ k.toNat then k else k + 1 := by
  split
  · simp
  · exact BitVec.eq_of_toNat_eq (by simp)

/-- Settles O32: each place is one lemma on what is fetched there, and the step runs it. -/
theorem stepRunsTheDecodedInstruction : Obligations.StepRunsTheDecodedInstruction := by
  intro o s
  refine ⟨fun v rest hh => stepWith_cmdStore o hh, fun sym t hphase hm hg hsym => ?_,
    fun g t hphase hm hlen => ?_, fun i r f hphase hpos hf htoken => ?_⟩
  · rw [engineStep_dDecode o hphase, fetchDecode_symbol hm hg hsym, perform_instr]
  · rw [engineStep_dDecode o hphase, fetchDecode_length hm hlen, perform_instr]
  · rw [engineStep_cPack o hphase, fetchPack_within hpos, ← hf, fetchToken_ok _ s htoken, perform_instr, pbit_past]

end Sys2Proof.Machine
end

section
/-! SUPPORT. Every command completes (R361): what each phase's measure counts, and that each engine step outside IDLE answers
a next state in which less remains. -/

namespace Sys2Proof.Machine

/-! ### What remains in each phase -/

theorem remaining_idle {s : State} (hp : s.phase = .idle) : remaining s = 0 := by simp [remaining, hp]

theorem remaining_cEmpty {s : State} (hp : s.phase = .cEmpty) : remaining s = 1 := by simp [remaining, hp]

theorem remaining_dEndOfStream {s : State} (hp : s.phase = .dEndOfStream) : remaining s = 1 := by simp [remaining, hp]

theorem remaining_closedChunk {s : State} (hp : s.phase = .cTokenize) (hclosed : s.chunkOpen = false) :
    remaining s = (s.cur.slen.toNat - s.cur.inPos.toNat) * 1048576 + 1048575 := by
  simp [remaining, hp, hclosed]

theorem remaining_openedChunk {s : State} (hp : s.phase = .cTokenize) (hopen : s.chunkOpen = true) :
    remaining s =
      (s.cur.slen.toNat - s.cur.inPos.toNat) * 1048576 + 524288 + (s.tk.tend.toNat - s.tk.tpos.toNat) := by
  simp [remaining, hp, hopen]

theorem remaining_cPack {s : State} (hp : s.phase = .cPack) :
    remaining s = (s.cur.slen.toNat - s.cur.inPos.toNat) * 1048576 + 1 + (s.tk.scrLen.toNat - s.pk.ppos.toNat) := by
  simp [remaining, hp]

theorem remaining_dReadHeader {s : State} (hp : s.phase = .dReadHeader) :
    remaining s = (s.cur.slen.toNat - s.cur.inPos.toNat) * (s.cur.cap.toNat + 4) + 2 := by
  simp [remaining, hp]

theorem remaining_dDecode {s : State} (hp : s.phase = .dDecode) :
    remaining s = (s.cur.slen.toNat - s.cur.inPos.toNat - 1) * (s.cur.cap.toNat + 4) +
      (s.cur.cap.toNat - s.cur.outPos.toNat) + 3 := by
  simp [remaining, hp]

theorem remaining_pos {s : State} (hp : s.phase ≠ .idle) : 0 < remaining s := by
  cases h : s.phase with
  | idle => exact absurd h hp
  | cTokenize =>
    cases hc : s.chunkOpen with
    | false => rw [remaining_closedChunk h hc]; omega
    | true => rw [remaining_openedChunk h hc]; omega
  | cPack => rw [remaining_cPack h]; omega
  | cEmpty => rw [remaining_cEmpty h]; omega
  | dReadHeader => rw [remaining_dReadHeader h]; omega
  | dDecode => rw [remaining_dDecode h]; omega
  | dEndOfStream => rw [remaining_dEndOfStream h]; omega

/-! ### Moves that make progress -/

/-- A move from `s` that answers a next state with less of the command left (R361). -/
def Advances (s : State) (r : Host.Outcome State Fault Refusal) : Prop := ∃ t, r = .next t ∧ remaining t < remaining s

theorem Advances.of_lt {s t : State} (h : remaining t < remaining s) : Advances s (.next t) := ⟨t, rfl, h⟩

/-- A completion leaves nothing of the command (R310). -/
theorem Advances.of_idle {s t : State} (hs : s.phase ≠ .idle) (ht : t.phase = .idle) : Advances s (.next t) :=
  .of_lt (by rw [remaining_idle ht]; exact remaining_pos hs)

/-- An error completes the command, so only an operation that answers has to make progress (R27, R310). -/
theorem Advances.of_settle {s : State} {r : Res Unit} (hs : s.phase ≠ .idle)
    (h : ∀ t, r = .ok () t → remaining t < remaining s) : Advances s (settle r) := by
  cases r with
  | ok a t => exact .of_lt (h t rfl)
  | raise e t => exact .of_idle hs (completeErr_phase e t)

/-! ### The tokenizer -/

/-- The opening takes the step from above every open chunk: a chunk has at most CHUNK_SIZE bytes to tokenize (R10, R207). -/
theorem openChunk_remaining {s t : State} (h : CursorInv s) (hp : s.phase = .cTokenize) (hclosed : s.chunkOpen = false)
    (ht : openChunk s = .ok () t) : remaining t < remaining s := by
  obtain ⟨-, -, ⟨-, hmax, -⟩, -⟩ := (cursorInv_cTokenize hp).1 h
  rw [Config.chunkSize] at hmax
  rcases Nat.lt_or_ge s.cur.cap.toNat (s.cur.outPos.toNat + 260) with hfull | hroom
  · rw [openChunk_full hfull] at ht
    cases ht
  · have hend := Nat.mod_le (s.cur.inPos.toNat + s.cur.chunkLen.toNat) (2 ^ 33)
    rw [openChunk_room hroom] at ht
    cases ht
    rw [remaining_closedChunk hp hclosed, remaining_openedChunk (by exact hp) rfl]
    simp only [BitVec.toNat_ofNat]
    omega

/-- A token moves the cursor on, not past the chunk's end (R202). -/
theorem tokenFor_remaining {s t : State} {a : Nat × Nat} (hp : s.phase = .cTokenize) (hopen : s.chunkOpen = true)
    (hlt : s.tk.tpos.toNat < s.tk.tend.toNat) (ht : tokenFor a s = .ok () t) : remaining t < remaining s := by
  obtain ⟨n, hn, hle, ⟨u, t', -, e, hk, htpos, htend, -⟩ | ⟨-, u, -, e⟩⟩ := tokenFor_spec a s hlt
  · obtain rfl : t' = t := by simpa [e] using ht
    have hcur : t'.cur = s.cur := by rw [hk]
    rw [remaining_openedChunk hp hopen, remaining_openedChunk (by rw [hk]; exact hp) (by rw [hk]; exact hopen), hcur,
      htpos, htend]
    omega
  · simp [e] at ht

/-- The tokenizer's run ends in PackChunk's head, behind the EOS token where one is due (R207, R211, R212). -/
theorem closeTokens_head {o : Config.Oracles} {s t : State} (h : closeTokens o s = .ok () t) :
    ∃ u, TokKeeps s u ∧ packHeader (buildCode o u) = .ok () t := by
  unfold closeTokens at h
  split at h
  · rcases tokEos_spec s with ⟨u, e, hk⟩ | ⟨-, u, -, e⟩ <;> rw [e] at h
    · exact ⟨u, hk, h⟩
    · cases h
  · exact ⟨s, .refl s, h⟩

/-- Less remains of a chunk being packed than of it being tokenized: `scr_len` has 18 bits (R54). -/
theorem closeTokens_remaining {o : Config.Oracles} {s t : State} (hp : s.phase = .cTokenize) (hopen : s.chunkOpen = true)
    (ht : closeTokens o s = .ok () t) : remaining t < remaining s := by
  obtain ⟨u, hk, hhead⟩ := closeTokens_head ht
  obtain ⟨-, hp', hcur, -⟩ := packHeader_ok hhead
  have hlen := t.tk.scrLen.isLt
  rw [remaining_openedChunk hp hopen, remaining_cPack hp', hcur, buildCode_cur, show u.cur = s.cur by rw [hk]]
  omega

theorem tokenizeStep_remaining {o : Config.Oracles} {s t : State} (h : CursorInv s) (hp : s.phase = .cTokenize)
    (ht : tokenizeStep o s = .ok () t) : remaining t < remaining s := by
  cases hc : s.chunkOpen with
  | false =>
    rw [tokenizeStep_closed o hc] at ht
    exact openChunk_remaining h hp hc ht
  | true =>
    rcases Nat.lt_or_ge s.tk.tpos.toNat s.tk.tend.toNat with hlt | hge
    · rw [tokenizeStep_token o hc hlt] at ht
      exact tokenFor_remaining hp hc hlt ht
    · rw [tokenizeStep_end o hc hge] at ht
      exact closeTokens_remaining hp hc ht

/-! ### Packing -/

/-- Whatever the stream driver chooses, what remains is bounded by the input that is left (R225). -/
theorem nextChunk_remaining (s : State) :
    remaining (nextChunk s) ≤ (s.cur.slen.toNat - s.cur.inPos.toNat) * 1048576 + 1048575 := by
  rcases Nat.lt_or_ge (s.cur.slen.toNat - s.cur.inPos.toNat) 65536 with hlt | hfull
  · rcases Nat.eq_zero_or_pos (s.cur.slen.toNat - s.cur.inPos.toNat) with h0 | hpos
    · rw [nextChunk_empty h0, remaining_cEmpty rfl]
      omega
    · rw [nextChunk_short hpos hlt, remaining_closedChunk rfl rfl]
  · rw [nextChunk_full hfull, remaining_closedChunk rfl rfl]

/-- The end of a chunk takes at least one input byte off what is left (R221, R225). -/
theorem finishChunk_advances {s : State} (h : CursorInv s) (hp : s.phase = .cPack) : Advances s (.next (finishChunk s)) := by
  obtain ⟨-, -, ⟨hpos, -, -, hin⟩, -⟩ := (cursorInv_cPack hp).1 h
  have hslen := s.cur.slen.isLt
  unfold finishChunk
  dsimp only
  split
  · exact .of_idle (by simp [hp]) rfl
  · refine .of_lt (Nat.lt_of_le_of_lt (nextChunk_remaining _) ?_)
    rw [remaining_cPack hp]
    show (s.cur.slen.toNat - (BitVec.ofNat 33 (s.cur.inPos.toNat + s.cur.chunkLen.toNat)).toNat) * _ + _ < _
    rw [toNat_ofNat_of_lt (by omega)]
    omega

/-- Every token takes at least one byte of the intermediate stream (R120 to R123). -/
theorem encode_token_pos {f : Format} {bs r : List Byte} {i : Instr} (hd : decode f bs = .ok (i, r))
    (hf : f = .group ∨ f = .lit ∨ f = .mat) : 1 ≤ (encode i).length := by
  rcases decode_token hd hf with ⟨m, rfl⟩ | ⟨b, rfl⟩ | ⟨off, l, hm⟩
  · simp [encode]
  · simp [encode]
  · cases i <;> simp only [matchFields, reduceCtorEq] at hm
    all_goals simp [encode]

/-- Packing moves neither the input's cursor nor the packer's index, unless an error completes the command. -/
theorem settle_pack_advances {s v : State} {q : Res Unit} (hp : s.phase ≠ .idle) (hv : remaining v < remaining s)
    (hq : PackKeeps v q.state) : Advances s (settle q) := by
  refine .of_settle hp fun t ht => ?_
  rw [ht, Res.state_ok] at hq
  rw [hq.1]
  exact hv

/-- A token's instruction makes the progress that fetching it has made. -/
theorem exec_token_advances {f : Format} {bs r : List Byte} {i : Instr} {s v : State} (hp : s.phase ≠ .idle)
    (hv : remaining v < remaining s) (hw : WriterInv v) (hb : Latched v) (hd : decode f bs = .ok (i, r))
    (hf : f = .group ∨ f = .lit ∨ f = .mat) : Advances s (exec i v) := by
  rcases decode_token hd hf with ⟨m, rfl⟩ | ⟨b, rfl⟩ | ⟨off, l, hm⟩
  · exact .of_lt hv
  · exact settle_pack_advances hp hv (encodeSym_keeps _ hw hb)
  · obtain ⟨he, hoff⟩ := matchFields_exec (s := v) hm
    rw [he]
    exact settle_pack_advances hp hv (packMatch_keeps l hoff hw hb)

theorem tokenBytes_length_le (s : State) : (tokenBytes s).length ≤ s.tk.scrLen.toNat - s.pk.ppos.toNat := by
  simp [tokenBytes, State.scrBytes]

/-- A token moves the packer's index on, not past `scr_len` (R212). -/
theorem fetchToken_advances {f : Format} (bits : Nat) {s : State} (h : CursorInv s) (hp : s.phase = .cPack)
    (hf : f = .group ∨ f = .lit ∨ f = .mat) : Advances s (perform (fetchToken f bits (tokenBytes s) s)) := by
  obtain ⟨⟨-, hlat, -⟩, -, -, hwr⟩ := (cursorInv_cPack hp).1 h
  have hrun : s.phase ≠ .idle := by simp [hp]
  rcases perform_fetchToken f bits (tokenBytes s) s with ⟨i, r, hd, e⟩ | e <;> rw [e]
  · refine exec_token_advances hrun ?_ (by exact hwr) hlat hd hf
    have hpos := encode_token_pos hd hf
    have hsize := decode_size hd
    have hbytes := tokenBytes_length_le s
    have hlen := s.tk.scrLen.isLt
    rw [remaining_cPack hp, remaining_cPack (by exact hp)]
    simp only
    rw [toNat_ofNat_of_lt (by omega)]
    omega
  · exact .of_idle hrun (completeErr_phase _ s)

theorem fetchPack_advances {s : State} (h : CursorInv s) (hp : s.phase = .cPack) : Advances s (perform (fetchPack s)) := by
  unfold fetchPack
  repeat' split
  · exact finishChunk_advances h hp
  · exact fetchToken_advances 0 h hp (.inl rfl)
  · exact fetchToken_advances 1 h hp (.inr (.inr rfl))
  · exact fetchToken_advances 1 h hp (.inr (.inl rfl))

/-- The empty block completes the command either way (R222). -/
theorem emptyStep_advances {s : State} (hp : s.phase = .cEmpty) : Advances s (settle (emptyStep s)) := by
  have hrun : s.phase ≠ .idle := by simp [hp]
  rcases Nat.lt_or_ge s.cur.cap.toNat (s.cur.outPos.toNat + 260) with hfull | hroom
  · rw [emptyStep_full hfull]
    exact .of_idle hrun (completeErr_phase _ s)
  · rw [emptyStep_room hroom]
    exact .of_idle hrun (completeOk_phase _)

/-! ### Decompression -/

/-- One input byte's share of the measure covers all the output a chunk may write and its end: `cap + 4` (R252). -/
theorem readHeader_advances {s : State} (hp : s.phase = .dReadHeader) : Advances s (settle (readHeader s)) := by
  refine .of_settle (by simp [hp]) fun t ht => ?_
  rcases Nat.lt_or_ge (s.cur.slen.toNat - s.cur.inPos.toNat) Config.minBlock with hshort | hsize
  · rw [readHeader_short hshort] at ht
    cases ht
  · cases hv : tableValid (loadTable s).len with
    | false =>
      rw [readHeader_oversubscribed hsize hv] at ht
      cases ht
    | true =>
      rw [readHeader_loads hsize hv] at ht
      cases ht
      have hone : 1 ≤ s.cur.slen.toNat - s.cur.inPos.toNat := Nat.le_trans (by decide) hsize
      have hsplit := Nat.sub_one_mul (s.cur.slen.toNat - s.cur.inPos.toNat) (s.cur.cap.toNat + 4)
      have hfits := Nat.mul_le_mul_right (s.cur.cap.toNat + 4) hone
      rw [remaining_dReadHeader hp, remaining_dDecode rfl]
      simp only
      omega

/-- A chunk ends at least one input byte further on (R176, R266, R270). -/
theorem chunkEndNoEos_advances {s : State} (h : CursorInv s) (hp : s.phase = .dDecode) :
    Advances s (.next (chunkEndNoEos s)) := by
  obtain ⟨-, -, ⟨-, -, hlow, -⟩, -⟩ := (cursorInv_dDecode hp).1 h
  have hinput : s.cur.slen.toNat - s.rd.rpos.toNat ≤ s.cur.slen.toNat - s.cur.inPos.toNat - 1 := by omega
  have hless := Nat.mul_le_mul_right (s.cur.cap.toNat + 4) hinput
  refine .of_lt ?_
  rw [remaining_dDecode hp, chunkEndNoEos, chunkEnd_eq (by omega), remaining_dReadHeader rfl]
  simp only
  omega

/-- Output inside the capacity is progress. -/
theorem remaining_lt_of_output {s t : State} (hp : s.phase = .dDecode) (hp' : t.phase = .dDecode)
    (hcur : t.cur = { s.cur with outPos := t.cur.outPos }) (hlow : s.cur.outPos.toNat < t.cur.outPos.toNat)
    (hhigh : t.cur.outPos.toNat ≤ s.cur.cap.toNat) : remaining t < remaining s := by
  rw [remaining_dDecode hp, remaining_dDecode hp', hcur]
  simp only
  omega

/-- A symbol ends the stream, or a literal or a match writes output (R257 to R259). -/
theorem exec_sym_advances {s : State} (sym : Sym) (z : Bool) (h : CursorInv s) (hp : s.phase = .dDecode) :
    Advances s (exec (decodeSym sym z) s) := by
  obtain ⟨⟨-, hlat, -⟩, -, hread, -⟩ := (cursorInv_dDecode hp).1 h
  have hrun : s.phase ≠ .idle := by simp [hp]
  rcases decodeSym_cases sym z with e | ⟨b, e⟩ | ⟨o, n, e⟩ <;> rw [e]
  · rw [exec_symEos]
    refine .of_lt ?_
    rw [remaining_dEndOfStream rfl, remaining_dDecode hp]
    omega
  · rw [exec_symLit]
    refine .of_settle hrun fun t ht => ?_
    rcases Nat.lt_or_ge s.cur.outPos.toNat s.cur.cap.toNat with hroom | hfull
    · have hcap := s.cur.cap.isLt
      have hnext : (BitVec.ofNat 33 (s.cur.outPos.toNat + 1)).toNat = s.cur.outPos.toNat + 1 :=
        toNat_ofNat_of_lt (by omega)
      rw [literal_room b hroom] at ht
      cases ht
      exact remaining_lt_of_output hp (by exact hp) rfl (by simp only [hnext]; omega) (by simp only [hnext]; omega)
    · rw [literal_full b hfull] at ht
      cases ht
  · rw [exec_symMatch]
    refine .of_settle hrun fun t ht => ?_
    rcases matchSymbol_spec o n s hread hlat with ⟨e, u, he, -⟩ | ⟨u, he, -, -, hlow, hhigh, hu, -⟩
    · simp [he] at ht
    · obtain rfl : u = t := by simpa [he] using ht
      exact remaining_lt_of_output hp (by rw [hu]; exact hp) (by rw [hu]) (by omega) hhigh

theorem fetchDecode_advances {s : State} (h : CursorInv s) (hp : s.phase = .dDecode) :
    Advances s (perform (fetchDecode s)) := by
  have hmt : s.mt.await = false := h.1
  cases hg : gate s with
  | false =>
    rw [fetchDecode_gateFalse hmt hg, perform_act]
    exact chunkEndNoEos_advances h hp
  | true =>
    rcases decodeNext_spec s with ⟨sym, b, hb, e⟩ | e
    · rw [fetchDecode_symbol hmt hg e, perform_instr]
      exact exec_sym_advances _ _ (skip_cursorInv h hp hb) hp
    · rw [fetchDecode_undecodable hmt hg e, perform_act]
      exact .of_idle (by simp [hp]) (completeErr_phase _ s)

/-! ### The obligation -/

/-- Settles O59, by the phase of the engine's move. -/
theorem engineStepsMakeProgress : Obligations.EngineStepsMakeProgress := by
  intro o s h hrun
  show Advances s (engineStep o s)
  cases hp : s.phase with
  | idle => exact absurd hp hrun
  | cTokenize =>
    rw [engineStep_cTokenize o hp]
    exact .of_settle hrun fun t ht => tokenizeStep_remaining h hp ht
  | cPack =>
    rw [engineStep_cPack o hp]
    exact fetchPack_advances h hp
  | cEmpty =>
    rw [engineStep_cEmpty o hp]
    exact emptyStep_advances hp
  | dReadHeader =>
    rw [engineStep_dReadHeader o hp]
    exact readHeader_advances hp
  | dDecode =>
    rw [engineStep_dDecode o hp]
    exact fetchDecode_advances h hp
  | dEndOfStream =>
    rw [engineStep_dEndOfStream o hp]
    exact .of_idle hrun (completeOk_phase s)

end Sys2Proof.Machine
end

section
/-! SUPPORT. Reset (R340 to R342) and register stores that a running command ignores (R350). -/

namespace Sys2Proof.Machine

/-! ### Reset -/

theorem stepWith_reset (o : Config.Oracles) {s : State} {rest : List HostOp} (hh : s.host = .reset :: rest) :
    stepWith o s = .next (hostReset { s with host := rest }) := by
  simp [stepWith, fetchWith, hh]

/-- Reset with BUSY = 1 loses the output buffer's bytes (R342). -/
theorem hostReset_losesOutput {s : State} {a : Word} (hb : s.busy = true) (ha : InOutput s a) :
    (hostReset s).mem.find a.toNat = none ∧ lostCount (hostReset s).lost a.toNat = lostCount s.lost a.toNat + 1 := by
  rw [hostReset_mem, hostReset_lost, if_pos hb]
  exact State.lose_inside s ha

/-- With BUSY = 0 reset touches no byte of system memory; with BUSY = 1 none outside the output buffer (R342). -/
theorem hostReset_keepsByte {s : State} {a : Word} (h : s.busy = false ∨ ¬InOutput s a) :
    (hostReset s).readByte a = s.readByte a := by
  rcases h with hb | ha
  · exact State.readByte_congr (by simp [hb]) (by simp [hb]) a
  · exact hostReset_readByte s ha

/-- Settles O29: the window and the phase are those of `State.reset`, and memory is as the two lemmas above say. -/
theorem resetClearsTheWindow : Obligations.ResetClearsTheWindow := by
  intro o s rest hh
  refine ⟨_, stepWith_reset o hh, rfl, rfl, hostReset_host _, hostReset_reads _, hostReset_par _, ?_, hostReset_contested _,
    fun a hb ha => hostReset_losesOutput (s := { s with host := rest }) hb ha,
    fun a h => hostReset_keepsByte (s := { s with host := rest }) h⟩
  rw [hostReset_unseen, apply_ite State.unseen]
  rfl

/-- Settles O52: outside a running command the invariants ask for the settled window, empty memories and tables of 512
entries. -/
theorem resetMeetsEveryInvariant : Obligations.ResetMeetsEveryInvariant := by
  have hwin : WindowInv State.reset := SettledWindow.windowInv ⟨rfl, Nat.zero_le 4, .inl rfl⟩
  have hmem : MemoryInv State.reset :=
    ⟨by simp [Memory.wf], by simp [Memory.wf], .inl rfl, zeroCounts_length, zeroLengths_length⟩
  have hscr : ScratchInv State.reset := (ChunkClosed.of_phase_ne (by simp)).scratchInv
  exact ⟨rfl, rfl, hwin, hmem, (cursorInv_idle rfl).2 rfl, hscr⟩

/-! ### Register stores while BUSY = 1 -/

/-- Settles O22: at offset 0 the store is a command word, at any other a register write, and both test BUSY. -/
theorem registerStoresWhileBusyAreIgnored : Obligations.RegisterStoresWhileBusyAreIgnored := by
  intro o s addr off v rest hb ha hlt halign hh
  rcases Nat.eq_zero_or_pos off with rfl | hpos
  · obtain rfl : addr = s.par.xhBase := BitVec.eq_of_toNat_eq ha
    rw [stepWith_cmdStore o hh]
    exact exec_decodeCmd_busy v hb
  · rw [stepWith_regStore o ha hlt halign hpos.ne' hh]
    exact congrArg _ (regWrite_busy hb)

end Sys2Proof.Machine
end
